-- ==== Sys2Proof/Word.lean ====
section
/-! DEFINITION. The words of the DSQ core: a 32-bit register (rule R9) and a byte, which is a symbol (rule R8). -/

namespace Sys2Proof

/-- A register: 32 bits, an unsigned number (rule R9). -/
abbrev Word := BitVec 32

/-- A symbol: one byte of input, values 0 to 255 (rule R8). -/
abbrev Byte := BitVec 8

/-- A bit string, first bit at the head (rule R12): the character `'0'` stands for `false`, `'1'` for `true`. -/
abbrev BitString := List Bool

/-- A natural number as a register shows it (rule R9).  Every number the core holds is below `2^32` (rule R90), so
nothing is lost in a state that meets the core's invariants. -/
def asWord (n : Nat) : Word := BitVec.ofNat 32 n

/-- `zext_32` of a byte (rule R13). -/
def byteAsWord (b : Byte) : Word := b.setWidth 32

end Sys2Proof
end

