-- ==== Sys2Proof/Syntax.lean ====
section
/-! DEFINITION. The six commands of the core, the rows of spec/opcode_table.json (rules R2, R101).  No command has an
operand: everything it reads and writes is the fixed state its own rule names (rules R20, R100, R112). -/

namespace Sys2Proof

/-- The commands of rule R101. -/
inductive Instr where
  /-- The LZ77 sliding-window matcher (rule R130). -/
  | lzmatch
  /-- The Huffman tree builder (rule R160). -/
  | htree
  /-- The prefix-code generator (rule R190). -/
  | hcode
  /-- The bit packer (rule R210). -/
  | bpack
  /-- The bit unpacker (rule R215). -/
  | bunpack
  /-- The soft reset (rule R230). -/
  | clear
  deriving DecidableEq, Repr

end Sys2Proof
end

