-- ==== Sys2Proof/Decode.lean ====
section
/-! DEFINITION. The command word: decoder (rules R100 to R103), encoder (rule R101), and the host's numbering of the
table's words. -/

namespace Sys2Proof

/-- Why a command word is illegal (rule R103). -/
inductive IllegalWord where
  /-- `ZERO`, bits 31:8, is not 0, whatever `OP` is. -/
  | zeroFieldSet
  /-- `ZERO` is 0 and `OP` is none of the six opcodes. -/
  | reservedOpcode
  deriving DecidableEq, Repr

/-- `ZERO`, bits 31:8 of a command word (rule R100). -/
def zeroField (c : Word) : BitVec 24 := c.extractLsb' 8 24

/-- `OP`, bits 7:0 of a command word (rule R100). -/
def opField (c : Word) : Byte := c.extractLsb' 0 8

/-- The opcode map of rule R101. -/
def commandOfOpcode (op : Byte) : Option Instr :=
  match op.toNat with
  | 0x01 => some .lzmatch
  | 0x02 => some .htree
  | 0x03 => some .hcode
  | 0x04 => some .bpack
  | 0x05 => some .bunpack
  | 0x0F => some .clear
  | _ => none

/-- The decoder of rule R102, total on the 32-bit words: each is one of the six commands or illegal by name. -/
def decode (c : Word) : Except IllegalWord Instr :=
  if zeroField c = 0#24 then
    match commandOfOpcode (opField c) with
    | some i => .ok i
    | none => .error .reservedOpcode
  else
    .error .zeroFieldSet

/-- The opcode of a command (rule R101). -/
def opcode : Instr → Byte
  | .lzmatch => 0x01#8
  | .htree => 0x02#8
  | .hcode => 0x03#8
  | .bpack => 0x04#8
  | .bunpack => 0x05#8
  | .clear => 0x0F#8

/-- The command word of a command (rules R100, R101): `ZERO` above `OP`. -/
def encode (i : Instr) : Word := 0#24 ++ opcode i

/-- The command word as a number whose bit 0 is the word's least significant bit.  One command is one 32-bit write
(rule R113), so a longer row is no command. -/
def tableWord (nbits w : Nat) : Option Word :=
  if nbits ≤ 32 then some (BitVec.ofNat 32 (w % 2 ^ nbits)) else none

/-- What the decoder reads from a row of spec/opcode_table.json whose bits are `w`. -/
def decodeTableWord (nbits w : Nat) : Option Instr :=
  match tableWord nbits w with
  | none => none
  | some c =>
    match decode c with
    | .ok i => some i
    | .error _ => none

end Sys2Proof
end

