-- ==== Sys2Proof/Config.lean ====
section
/-! DEFINITION. The parameters of the core (rules R7, R10, R47, R70): fixed for one machine, changed by nothing. -/

namespace Sys2Proof

/-- The parameters that rule R47 lists.  The spec makes them arguments of the model; the host fixes the type of
`step`, so they ride in the state, where no step changes them (DESIGN CHOICE, log entry 1). -/
structure Config where
  /-- `BASE`, the byte address of the register block (rule R70). -/
  base    : Nat
  /-- `W`, the window size (rule R7). -/
  w       : Nat
  /-- `L`, the maximum match length (rule R7). -/
  l       : Nat
  /-- `IN_CAP`, the capacity of `IN` in bytes (rule R10). -/
  inCap   : Nat
  /-- `SYM_CAP`, the capacity of `SYM` in bytes (rule R10). -/
  symCap  : Nat
  /-- `BYTE_CAP`, the capacity of `BYTES` in bytes (rule R10). -/
  byteCap : Nat
  deriving DecidableEq, Repr

/-- `TOK_CAP = IN_CAP` (rule R10). -/
def Config.tokCap (c : Config) : Nat := c.inCap

/-- `BIT_CAP = 8 * BYTE_CAP` (rule R10). -/
def Config.bitCap (c : Config) : Nat := 8 * c.byteCap

/-- The constraints of rules R7, R10 and R70 on the parameters. -/
abbrev Config.Valid (c : Config) : Prop :=
  (1 ≤ c.w ∧ c.w ≤ 8191) ∧ c.l ≤ 31 ∧
  (1 ≤ c.inCap ∧ c.inCap ≤ 2147483646) ∧
  (1 ≤ c.symCap ∧ c.symCap ≤ 2147483647) ∧
  (1 ≤ c.byteCap ∧ c.byteCap ≤ 268435455) ∧
  c.base % 256 = 0

/-- How far the block's number lies up the address space: `BASE` is left to the platform (rule R70). -/
opaque Config.baseBlock : Nat

/-- How far `IN_CAP` lies below its upper bound `2^31 - 2`: the spec leaves the capacity open (rule R10). -/
opaque Config.inCapBelow : Fin 2147483646

/-- How far `SYM_CAP` lies below its upper bound `2^31 - 1` (rule R10). -/
opaque Config.symCapBelow : Fin 2147483647

/-- How far `BYTE_CAP` lies below its upper bound `2^28 - 1` (rule R10). -/
opaque Config.byteCapBelow : Fin 268435455

/-- The hardware: `W = 4096` and `L = 18` (rule R7); `BASE` and the capacities are whatever the platform and the
implementation chose within the bounds of rules R70 and R10, free values no proof can
see (DESIGN CHOICE, log entry 2). -/
def Config.hardware : Config where
  base    := 256 * Config.baseBlock
  w       := 4096
  l       := 18
  inCap   := 2147483646 - Config.inCapBelow.val
  symCap  := 2147483647 - Config.symCapBelow.val
  byteCap := 268435455 - Config.byteCapBelow.val

end Sys2Proof
end

