-- ==== Sys2Proof/Machine/State.lean ====
section
/-! DEFINITION. The architectural state of the core (rules R20 to R48) and the host's side of the bus.  Everything is
plain data; a length or count register that rule R21 lists (`IN_LEN`, `TOK_CNT`, `SYM_LEN`, `NODE_CNT`, `BIT_LEN`,
`BYTE_LEN`) is the length of its store and is not held a second time.  Counts are natural numbers (DEDUCED, log entry 7). -/

namespace Sys2Proof.Machine

/-- The literal position of a token (rule R16): a byte, or the end-of-input sentinel `END`. -/
inductive Literal where
  | byte (b : Byte)
  | sentinel
  deriving DecidableEq, Repr

/-- An LZ77 token (rule R16): back-reference distance, matched run, next literal. -/
structure Token where
  offset : Nat
  length : Nat
  lit    : Literal
  deriving DecidableEq, Repr

/-- A Huffman node (rule R17); the children are indices into the node arena. -/
inductive Node where
  | leaf (symbol : Byte) (frequency : Nat)
  | internal (frequency left right : Nat)
  deriving DecidableEq, Repr

/-- `STATUS.STATE` (rule R26).  The value 3 is never read and has no constructor. -/
inductive RunState where
  /-- No command has run since reset or `CLEAR`. -/
  | idle
  /-- The last command ended with success. -/
  | done
  /-- The last command ended in an error. -/
  | error
  deriving DecidableEq, Repr

/-- The fields of `STATUS` (rule R26). -/
structure Status where
  state : RunState
  tokV  : Bool
  treeV : Bool
  codeV : Bool
  herr  : Bool
  ever  : Bool
  deriving DecidableEq, Repr

/-- The result codes of `ERR` (rule R291). -/
inductive ErrCode where
  | ok
  | emptyInput
  | malformed
  | illegalCommand
  | sequenceError
  deriving DecidableEq, Repr

/-- The registers of the map of rule R21. -/
inductive Reg where
  | id | paramW | paramL | capIn | capSym | capByte
  | cmd | status | err | errInfo | bufClr
  | inPush | inLen | lzPos | tokCnt | tokIdx | tokData
  | symPush | symLen | nsym | nodeCnt | root | freqIdx | freqData
  | nodeIdx | nodeInfo | nodeFreq | nodeKids
  | codeIdx | codeLen | codeBits
  | bitPush | bitLen | bitIdx | bitData
  | bytePush | byteLen | byteIdx | byteData
  | vbc
  deriving DecidableEq, Repr

/-- The width of a host access: 1, 2, 4 or 8 bytes (rules R71, R72). -/
inductive Width where
  | byte | half | word | double
  deriving DecidableEq, Repr

/-- What the host and the platform can do to the core, one at a time, in order (rules R80, R322).  `off` is the byte
offset from `BASE` (rule R15).  A write of another width than 32 bits is refused whatever its data (rule R72). -/
inductive Access where
  /-- `HostRead(off)`. -/
  | read (w : Width) (off : Nat)
  /-- `HostWrite(off, v)`. -/
  | write (w : Width) (off : Nat) (v : Word)
  /-- The platform resets the core between two host accesses (rules R320, R322). -/
  | reset
  deriving DecidableEq, Repr

/-- A table with one entry for each of the 256 symbols, given by its entries (rule R10). -/
def symbolTable {α : Type} (f : Byte → α) : Vector α 256 :=
  ⟨((List.range 256).map fun k => f (BitVec.ofNat 8 k)).toArray, by simp⟩

/-- The state of the machine. -/
structure State where
  /-- The parameters (rule R47), read through `PARAM_W`, `PARAM_L`, `CAP_IN`, `CAP_SYM`, `CAP_BYTE` (rule R24). -/
  cfg     : Config
  /-- `STATUS` (rule R26). -/
  status  : Status
  /-- `ERR` (rule R27). -/
  err     : ErrCode
  /-- `ERR_INFO` (rule R28). -/
  errInfo : Word
  /-- `IN`, the matcher's input (rule R30); `IN_LEN` is its length. -/
  inBuf   : List Byte
  /-- `LZ_POS`, the matcher's cursor (rule R31). -/
  lzPos   : Nat
  /-- `TOK`, the matcher's output (rule R32); `TOK_CNT` is its length. -/
  tok     : List Token
  /-- `TOK_IDX` (rule R33). -/
  tokIdx  : Word
  /-- `SYM`, the tree builder's input (rule R34); `SYM_LEN` is its length. -/
  sym     : List Byte
  /-- `FREQ`, 256 counts (rule R35). -/
  freq    : Vector Nat 256
  /-- `FREQ_IDX` (rule R35). -/
  freqIdx : Word
  /-- `NODE`, the node arena (rule R36); `NODE_CNT` is its length. -/
  node    : List Node
  /-- `NSYM`, the number of leaves (rule R36). -/
  nsym    : Nat
  /-- `ROOT`, the index of the root node (rule R36). -/
  root    : Nat
  /-- `NODE_IDX` (rule R37). -/
  nodeIdx : Word
  /-- `PQ`, the tree builder's priority queue of node indices, empty between commands (rule R38; DESIGN CHOICE, log
  entry 9). -/
  pq      : List Nat
  /-- `CODE`, for each symbol no code or a bit string (rule R39). -/
  code    : Vector (Option BitString) 256
  /-- `CODE_IDX` (rule R39). -/
  codeIdx : Word
  /-- `BITS`, the packer's bit string (rule R40); `BIT_LEN` is its length. -/
  bits    : BitString
  /-- `BIT_IDX` (rule R40). -/
  bitIdx  : Word
  /-- `BYTES`, the packed bytes (rule R41); `BYTE_LEN` is its length. -/
  bytes   : List Byte
  /-- `BYTE_IDX` (rule R41). -/
  byteIdx : Word
  /-- `VBC`, the valid-bit-count (rule R42). -/
  vbc     : Word
  /-- The host's side: the accesses it has issued and the core has not yet performed, in program order (rule R80 (a),
  log entry 3). -/
  pending : List Access
  /-- The host's side: the values its reads have returned, oldest first (DESIGN CHOICE, log entry 3). -/
  replies : List Word
  deriving DecidableEq, Repr

/-- Reasons the machine stops with a fault: there are none.  Rule R308: there is no undefined or unpredictable
behaviour anywhere in the core, and every error is a step with a defined next state. -/
inductive Fault : Type
  deriving DecidableEq, Repr

/-- Reasons the model gives something no step. -/
inductive Refusal where
  /-- An instruction without a meaning in this model, raised by `exec`; no arm raises it.  Safe: nothing is claimed of
  what is refused. -/
  | notModelled (mnemonic : String)
  /-- A host access of 1, 2 or 8 bytes, raised by `serve`: the bus refuses it (rule R72).  Safe: the core's state does
  not change and the model stops where the hardware goes on. -/
  | unsupportedWidth
  /-- A host access at an offset that is no multiple of 4, raised by `serve`: the bus refuses it (rule R72).  Safe, as
  above. -/
  | misalignedOffset
  /-- A host access at an offset above 0xFF, raised by `serve`: it is no access to the block (rules R70, R71).  Safe, as
  above. -/
  | outsideBlock
  deriving DecidableEq, Repr

/-- `STATUS` after reset: 0 (rule R48). -/
def Status.reset : Status where
  state := .idle
  tokV  := false
  treeV := false
  codeV := false
  herr  := false
  ever  := false

/-- The state after reset of the core with the parameters `c`: everything zero or empty (rule R48), the host idle. -/
def State.resetWith (c : Config) : State where
  cfg     := c
  status  := Status.reset
  err     := .ok
  errInfo := 0#32
  inBuf   := []
  lzPos   := 0
  tok     := []
  tokIdx  := 0#32
  sym     := []
  freq    := symbolTable fun _ => 0
  freqIdx := 0#32
  node    := []
  nsym    := 0
  root    := 0
  nodeIdx := 0#32
  pq      := []
  code    := symbolTable fun _ => none
  codeIdx := 0#32
  bits    := []
  bitIdx  := 0#32
  bytes   := []
  byteIdx := 0#32
  vbc     := 0#32
  pending := []
  replies := []

/-- The machine right after reset (rules R48, R320). -/
def State.reset : State := State.resetWith Config.hardware

end Sys2Proof.Machine
end

