-- ==== Sys2Proof/Machine/Flags.lean ====
section
/-! DEFINITION. `STATUS` and `ERR`: how they read (rules R26, R291) and how a command's end writes them (rules R43,
R295, R296). -/

namespace Sys2Proof.Machine

/-- The encoding of `STATUS.STATE` (rule R26). -/
def RunState.field : RunState → BitVec 2
  | .idle => 0#2
  | .done => 1#2
  | .error => 2#2

/-- A flag as one bit. -/
def flagBit (b : Bool) : BitVec 1 := BitVec.ofBool b

/-- `STATUS` as a read returns it (rule R26): bits 31:10 and 7:5 are 0. -/
def Status.asWord (t : Status) : Word :=
  0#22 ++ flagBit t.ever ++ flagBit t.herr ++ 0#3 ++ flagBit t.codeV ++ flagBit t.treeV ++ flagBit t.tokV ++ t.state.field

/-- The result codes of rule R291. -/
def ErrCode.code : ErrCode → Word
  | .ok => 0#32
  | .emptyInput => 1#32
  | .malformed => 2#32
  | .illegalCommand => 3#32
  | .sequenceError => 4#32

/-- `STATUS` when a command ends with success (rule R295): only `STATE` changes. -/
def Status.ended (t : Status) : Status := { t with state := .done }

/-- `STATUS` when a command ends in an error (rule R296): `STATE` and the sticky flag `EVER`. -/
def Status.failed (t : Status) : Status := { t with state := .error, ever := true }

/-- `STATUS` after a push to a full buffer (rule R236): the sticky flag `HERR`. -/
def Status.dropped (t : Status) : Status := { t with herr := true }

end Sys2Proof.Machine
end

