-- ==== Sys2Proof/Machine/Operands.lean ====
section
/-! DEFINITION. The register map (rules R21, R73, R75) and the formats of the words on the ports: elements pushed
(rules R109, R110), token words (R104, R105), node records (R106), code-table entries (R107), packed bytes (R108). -/

namespace Sys2Proof.Machine

/-- Access rights (rule R21). -/
inductive Rights where
  | readOnly | writeOnly | readWrite
  deriving DecidableEq, Repr

/-- The offsets of the register map (rule R21). -/
def Reg.offset : Reg → Nat
  | .id => 0x00
  | .paramW => 0x04
  | .paramL => 0x08
  | .capIn => 0x0C
  | .capSym => 0x10
  | .capByte => 0x14
  | .cmd => 0x18
  | .status => 0x1C
  | .err => 0x20
  | .errInfo => 0x24
  | .bufClr => 0x28
  | .inPush => 0x30
  | .inLen => 0x34
  | .lzPos => 0x38
  | .tokCnt => 0x3C
  | .tokIdx => 0x40
  | .tokData => 0x44
  | .symPush => 0x50
  | .symLen => 0x54
  | .nsym => 0x58
  | .nodeCnt => 0x5C
  | .root => 0x60
  | .freqIdx => 0x64
  | .freqData => 0x68
  | .nodeIdx => 0x6C
  | .nodeInfo => 0x70
  | .nodeFreq => 0x74
  | .nodeKids => 0x78
  | .codeIdx => 0x80
  | .codeLen => 0x84
  | .codeBits => 0x88
  | .bitPush => 0x90
  | .bitLen => 0x94
  | .bitIdx => 0x98
  | .bitData => 0x9C
  | .bytePush => 0xA0
  | .byteLen => 0xA4
  | .byteIdx => 0xA8
  | .byteData => 0xAC
  | .vbc => 0xB0

/-- The access column of rule R21. -/
def Reg.rights : Reg → Rights
  | .cmd | .bufClr | .inPush | .symPush | .bitPush | .bytePush => .writeOnly
  | .tokIdx | .freqIdx | .nodeIdx | .codeIdx | .bitIdx | .byteIdx | .vbc => .readWrite
  | .id | .paramW | .paramL | .capIn | .capSym | .capByte | .status | .err | .errInfo | .inLen | .lzPos | .tokCnt
  | .tokData | .symLen | .nsym | .nodeCnt | .root | .freqData | .nodeInfo | .nodeFreq | .nodeKids | .codeLen
  | .codeBits | .bitLen | .bitData | .byteLen | .byteData => .readOnly

/-- Every register of the map, in the order of rule R21. -/
def Reg.all : List Reg :=
  [.id, .paramW, .paramL, .capIn, .capSym, .capByte, .cmd, .status, .err, .errInfo, .bufClr,
   .inPush, .inLen, .lzPos, .tokCnt, .tokIdx, .tokData,
   .symPush, .symLen, .nsym, .nodeCnt, .root, .freqIdx, .freqData,
   .nodeIdx, .nodeInfo, .nodeFreq, .nodeKids, .codeIdx, .codeLen, .codeBits,
   .bitPush, .bitLen, .bitIdx, .bitData, .bytePush, .byteLen, .byteIdx, .byteData, .vbc]

/-- The register at an offset; none at a reserved offset (rules R21, R75). -/
def Reg.atOffset (off : Nat) : Option Reg := Reg.all.find? fun r => r.offset == off

/-- The byte a host pushes: bits 7:0 of the written word (rule R110). -/
def pushedByte (v : Word) : Byte := v.extractLsb' 0 8

/-- The bit a host pushes: bit 0 of the written word (rule R109). -/
def pushedBit (v : Word) : Bool := v.getLsbD 0

/-- The number a bit string writes, first bit most significant (rules R77 (a), R77 (b), R108). -/
def msbValue (bs : BitString) : Nat := bs.foldl (fun v b => 2 * v + b.toNat) 0

/-- The `count` bits of a bit string from index `first` on, 0 where it has none. -/
def bitWindow (bs : BitString) (first count : Nat) : BitString :=
  (List.range count).map fun r => bs.getD (first + r) false

/-- Fields `END` and `LITERAL` of a token word (rule R104). -/
def Literal.fields : Literal → BitVec 1 × Byte
  | .byte b => (0#1, b)
  | .sentinel => (1#1, 0#8)

/-- The token word of rule R104: `V`, 0, `END`, `LITERAL`, `LENGTH`, `OFFSET`. -/
def Token.asWord (t : Token) : Word :=
  1#1 ++ 0#4 ++ t.lit.fields.1 ++ t.lit.fields.2 ++ BitVec.ofNat 5 t.length ++ BitVec.ofNat 13 t.offset

/-- What a host decodes from a token word (rule R105). -/
def Token.ofWord (v : Word) : Token where
  offset := (v.extractLsb' 0 13).toNat
  length := (v.extractLsb' 13 5).toNat
  lit    := if v.getLsbD 26 then .sentinel else .byte (v.extractLsb' 18 8)

/-- `NODE_INFO` of a node that exists: `V`, `TAG`, `SYMBOL` (rule R106). -/
def Node.info : Node → Word
  | .leaf s _ => 1#1 ++ 0#22 ++ 0#1 ++ s
  | .internal _ _ _ => 1#1 ++ 0#22 ++ 1#1 ++ 0#8

/-- `freq(n)` of a node (rule R17). -/
def Node.freq : Node → Nat
  | .leaf _ f => f
  | .internal f _ _ => f

/-- `NODE_KIDS` of a node that exists: `RIGHT` in bits 24:16, `LEFT` in bits 8:0, 0 for a leaf (rule R106). -/
def Node.kids : Node → Word
  | .leaf _ _ => 0#32
  | .internal _ l r => 0#7 ++ BitVec.ofNat 9 r ++ 0#7 ++ BitVec.ofNat 9 l

/-- `CODE_LEN` of a symbol that has the code `c`: `V`, `LEN` (rule R107). -/
def codeLenWord (c : BitString) : Word := 1#1 ++ 0#22 ++ BitVec.ofNat 9 c.length

/-- Word `w` of the code `c` in `CODE_BITS`: bit `31 - r` is code bit `32 * w + r` (rule R107). -/
def codeBitsWord (c : BitString) (w : Nat) : Word := BitVec.ofNat 32 (msbValue (bitWindow c (32 * w) 32))

/-- The byte of the eight bits from index `8 * q` on, first bit in bit 7, missing bits 0 (rules R108, R210, R212). -/
def packedByte (bs : BitString) (q : Nat) : Byte := BitVec.ofNat 8 (msbValue (bitWindow bs (8 * q) 8))

/-- Bit `p` of the expansion of a byte sequence: bit `7 - (p mod 8)` of byte `p div 8` (rules R108, R216). -/
def expandedBit (bytes : List Byte) (p : Nat) : Bool := (bytes.getD (p / 8) 0#8).getLsbD (7 - p % 8)

/-- `CODE_IDX[31:11]`, which must be 0 (rule R107). -/
def codeIdxZero (v : Word) : BitVec 21 := v.extractLsb' 11 21

/-- `CODE_IDX[10:8]`, the word of the code (rule R107). -/
def codeIdxWord (v : Word) : Nat := (v.extractLsb' 8 3).toNat

/-- `CODE_IDX[7:0]`, the symbol (rule R107). -/
def codeIdxSymbol (v : Word) : Byte := v.extractLsb' 0 8

end Sys2Proof.Machine
end

