-- ==== Sys2Proof/Machine/Ops.lean ====
section
/-! DEFINITION. The operations the meanings share: how a command ends (rules R294 to R296), the emptying of a unit's
outputs (rule R45), the push ports (rules R235, R236), `BUF_CLR` (rule R237), the tables by symbol, the bus's view of an
access (rules R70 to R72). -/

namespace Sys2Proof.Machine

/-- What a step of this machine answers. -/
abbrev Outcome := Host.Outcome State Fault Refusal

/-- The entry of a table for the symbol `s`. -/
def entry {α : Type} (t : Vector α 256) (s : Byte) : α := t[s.toNat]'s.isLt

/-- The 256 symbols, ascending (rule R8). -/
def symbols : List Byte := (List.range 256).map (BitVec.ofNat 8)

/-- `done`: a command ends with success (rule R295). -/
def endDone (s : State) : State :=
  { s with status := s.status.ended, err := .ok }

/-- `raise e(info)`: a command ends in an error (rule R296).  Nothing else is saved and control goes nowhere; there is
no return from it (rule R300). -/
def raise (e : ErrCode) (info : Word) (s : State) : State :=
  { s with status := s.status.failed, err := e, errInfo := info }

/-- The matcher's outputs emptied (rule R131). -/
def emptyTokens (s : State) : State :=
  { s with tok := [], lzPos := 0, status := { s.status with tokV := false } }

/-- The code table emptied (rule R194). -/
def emptyCodes (s : State) : State :=
  { s with code := symbolTable fun _ => none, status := { s.status with codeV := false } }

/-- The tree builder's outputs emptied, and the codes that depend on them (rule R161). -/
def emptyTree (s : State) : State :=
  { s with
    freq := symbolTable fun _ => 0, node := [], nsym := 0, root := 0, pq := [],
    code := symbolTable fun _ => none,
    status := { s.status with treeV := false, codeV := false } }

/-- The unpacker's output emptied (rule R217). -/
def emptyBits (s : State) : State := { s with bits := [] }

/-- A push to a full buffer: dropped, `HERR` set, nothing else (rule R236). -/
def dropPush (s : State) : State := { s with status := s.status.dropped }

/-- A write to `IN_PUSH` (rule R235). -/
def pushIn (v : Word) (s : State) : State :=
  if s.inBuf.length < s.cfg.inCap then { s with inBuf := s.inBuf ++ [pushedByte v] } else dropPush s

/-- A write to `SYM_PUSH` (rule R235). -/
def pushSym (v : Word) (s : State) : State :=
  if s.sym.length < s.cfg.symCap then { s with sym := s.sym ++ [pushedByte v] } else dropPush s

/-- A write to `BIT_PUSH` (rule R235). -/
def pushBit (v : Word) (s : State) : State :=
  if s.bits.length < s.cfg.bitCap then { s with bits := s.bits ++ [pushedBit v] } else dropPush s

/-- A write to `BYTE_PUSH` (rule R235). -/
def pushByte (v : Word) (s : State) : State :=
  if s.bytes.length < s.cfg.byteCap then { s with bytes := s.bytes ++ [pushedByte v] } else dropPush s

/-- A write to `BUF_CLR` (rule R237): each of bits 3:0 empties one host-loaded buffer. -/
def clearBuffers (v : Word) (s : State) : State :=
  { s with
    inBuf := if v.getLsbD 0 then [] else s.inBuf
    sym := if v.getLsbD 1 then [] else s.sym
    bits := if v.getLsbD 2 then [] else s.bits
    bytes := if v.getLsbD 3 then [] else s.bytes }

/-- The reset state of the core (rules R48, R320, R321): all of the core's state takes its reset value.  The parameters
are constants (rule R24); the host's own side of the bus is no state of the core (DESIGN CHOICE, log entry 3). -/
def resetCore (s : State) : State :=
  { State.resetWith s.cfg with pending := s.pending, replies := s.replies }

/-- Why the bus refuses an access of width `w` at offset `off`, if it does: only aligned 32-bit accesses inside the
256-byte block are supported (rules R70 to R72; DEDUCED, log entry 10). -/
def busRefusal (w : Width) (off : Nat) : Option Refusal :=
  match w with
  | .byte => some .unsupportedWidth
  | .half => some .unsupportedWidth
  | .double => some .unsupportedWidth
  | .word =>
    if 256 ≤ off then some .outsideBlock
    else if off % 4 ≠ 0 then some .misalignedOffset
    else none

/-- The offset from `BASE` of a byte address, if it lies in the block (rule R70). -/
def blockOffset (c : Config) (addr : Nat) : Option Nat :=
  if c.base ≤ addr ∧ addr < c.base + 256 then some (addr - c.base) else none

/-- The core has taken the access at the head of the host's queue (rule R80 (a)). -/
def takeAccess (rest : List Access) (s : State) : State := { s with pending := rest }

/-- A read returns its value to the host and changes no state of the core (rules R74, R231). -/
def reply (v : Word) (s : State) : State := { s with replies := s.replies ++ [v] }

end Sys2Proof.Machine
end

