-- ==== Sys2Proof/Machine/BitPacker.lean ====
section
/-! DEFINITION. The bit packer and unpacker, commands `BPACK` and `BUNPACK` (rules R210 to R225). -/

namespace Sys2Proof.Machine

/-- The bytes of a bit string (rules R210 to R212): `(n + 7) div 8` of them, the last padded with zero bits. -/
def packBits (bs : BitString) : List Byte := (List.range ((bs.length + 7) / 8)).map (packedByte bs)

/-- The first `n` bits of the expansion of a byte sequence (rule R216). -/
def unpackBits (bytes : List Byte) (n : Nat) : BitString := (List.range n).map (expandedBit bytes)

/-- The packer's outputs: `BYTES` replaced, `VBC` the number of bits (rules R213, R214). -/
def storePacked (s : State) : State := { s with bytes := packBits s.bits, vbc := asWord s.bits.length }

/-- `BPACK` (rules R210, R214): it always succeeds. -/
def execBpack (s : State) : Outcome := .next (endDone (storePacked s))

/-- The unpacker's output: `BITS` replaced (rules R216, R219). -/
def storeUnpacked (s : State) : State := { s with bits := unpackBits s.bytes s.vbc.toNat }

/-- `BUNPACK` (rules R215 to R219). -/
def execBunpack (s : State) : Outcome :=
  if 8 * s.bytes.length < s.vbc.toNat then
    .next (raise .malformed s.vbc (emptyBits s))
  else
    .next (endDone (storeUnpacked (emptyBits s)))

end Sys2Proof.Machine
end

