-- ==== Sys2Proof/Machine/CodeGenerator.lean ====
section
/-! DEFINITION. The prefix-code generator, command `HCODE` (rules R190 to R203). -/

namespace Sys2Proof.Machine

/-- `gen(n, acc)` of rule R190 as the list of the codes it emits, left subtree before right (rule R191).  A child's index
is below its parent's in every tree `HTREE` builds, so a depth of the arena's length suffices; deeper recursion, on an
arena that is no such tree, emits nothing (DESIGN CHOICE, log entry 5). -/
def genCodes (nodes : List Node) : (fuel n : Nat) → BitString → List (Byte × BitString)
  | 0, _, _ => []
  | fuel + 1, n, acc =>
    match nodes[n]? with
    | some (.leaf s _) => [(s, acc)]
    | some (.internal _ l r) => genCodes nodes fuel l (acc ++ [false]) ++ genCodes nodes fuel r (acc ++ [true])
    | none => []

/-- The codes emitted for the tree with the root `root` (rules R190, R193). -/
def emittedCodes (nodes : List Node) (root : Nat) : List (Byte × BitString) :=
  match nodes[root]? with
  | some (.leaf s _) => [(s, [false])]
  | _ => genCodes nodes nodes.length root []

/-- The code table after the writes `CODE[s] <- c` in the order given: the last write to a symbol stays. -/
def codeTable (writes : List (Byte × BitString)) : Vector (Option BitString) 256 :=
  symbolTable fun s => ((writes.filter fun p => p.1 == s).getLast?).map (·.2)

/-- A successful end of the code generator (rule R195). -/
def storeCodes (t : Vector (Option BitString) 256) (s : State) : State :=
  { s with code := t, status := { s.status with codeV := true } }

/-- `HCODE` (rules R190, R194, R195, R199).  The information word of `SequenceError` is the command word. -/
def execHcode (s : State) : Outcome :=
  if s.status.treeV then
    .next (endDone (storeCodes (codeTable (emittedCodes s.node s.root)) (emptyCodes s)))
  else
    .next (raise .sequenceError 3#32 (emptyCodes s))

end Sys2Proof.Machine
end

