-- ==== Sys2Proof/Machine/Control.lean ====
section
/-! DEFINITION. The command `CLEAR` (rule R230), and what a read of each register returns (rules R23 to R42, R231,
R232). -/

namespace Sys2Proof.Machine

/-- `CLEAR`: the state takes its reset value (rules R230, R321). -/
def execClear (s : State) : Outcome := .next (resetCore s)

/-- `TOK_DATA` (rule R33). -/
def tokDataWord (s : State) : Word :=
  match s.tok[s.tokIdx.toNat]? with
  | some t => t.asWord
  | none => 0#32

/-- `FREQ_DATA` (rule R35). -/
def freqDataWord (s : State) : Word :=
  match s.freq[s.freqIdx.toNat]? with
  | some f => asWord f
  | none => 0#32

/-- One of the three node read registers: a field of node `NODE_IDX`, 0 when there is no such node (rule R37). -/
def nodeDataWord (field : Node → Word) (s : State) : Word :=
  match s.node[s.nodeIdx.toNat]? with
  | some n => field n
  | none => 0#32

/-- The code `CODE_IDX` selects, if bits 31:11 are 0 and the symbol has one (rule R39). -/
def selectedCode (s : State) : Option BitString :=
  if codeIdxZero s.codeIdx = 0#21 then entry s.code (codeIdxSymbol s.codeIdx) else none

/-- `CODE_LEN` (rule R39). -/
def codeLenData (s : State) : Word :=
  match selectedCode s with
  | some c => codeLenWord c
  | none => 0#32

/-- `CODE_BITS` (rule R39). -/
def codeBitsData (s : State) : Word :=
  match selectedCode s with
  | some c => codeBitsWord c (codeIdxWord s.codeIdx)
  | none => 0#32

/-- `BIT_DATA` (rule R40). -/
def bitDataWord (s : State) : Word :=
  match s.bits[s.bitIdx.toNat]? with
  | some b => asWord b.toNat
  | none => 0#32

/-- `BYTE_DATA` (rule R41). -/
def byteDataWord (s : State) : Word :=
  match s.bytes[s.byteIdx.toNat]? with
  | some b => byteAsWord b
  | none => 0#32

/-- The value a read of a register returns (rules R23 to R42, R73, R231). -/
def readReg (s : State) : Reg → Word
  | .id => 0x44535131#32
  | .paramW => asWord s.cfg.w
  | .paramL => asWord s.cfg.l
  | .capIn => asWord s.cfg.inCap
  | .capSym => asWord s.cfg.symCap
  | .capByte => asWord s.cfg.byteCap
  | .cmd => 0#32
  | .status => s.status.asWord
  | .err => s.err.code
  | .errInfo => s.errInfo
  | .bufClr => 0#32
  | .inPush => 0#32
  | .inLen => asWord s.inBuf.length
  | .lzPos => asWord s.lzPos
  | .tokCnt => asWord s.tok.length
  | .tokIdx => s.tokIdx
  | .tokData => tokDataWord s
  | .symPush => 0#32
  | .symLen => asWord s.sym.length
  | .nsym => asWord s.nsym
  | .nodeCnt => asWord s.node.length
  | .root => asWord s.root
  | .freqIdx => s.freqIdx
  | .freqData => freqDataWord s
  | .nodeIdx => s.nodeIdx
  | .nodeInfo => nodeDataWord Node.info s
  | .nodeFreq => nodeDataWord (fun n => asWord n.freq) s
  | .nodeKids => nodeDataWord Node.kids s
  | .codeIdx => s.codeIdx
  | .codeLen => codeLenData s
  | .codeBits => codeBitsData s
  | .bitPush => 0#32
  | .bitLen => asWord s.bits.length
  | .bitIdx => s.bitIdx
  | .bitData => bitDataWord s
  | .bytePush => 0#32
  | .byteLen => asWord s.bytes.length
  | .byteIdx => s.byteIdx
  | .byteData => byteDataWord s
  | .vbc => s.vbc

/-- `HostRead(off)` for a supported access (rule R231): 0 at a reserved offset (rule R75). -/
def readOffset (s : State) (off : Nat) : Word :=
  match Reg.atOffset off with
  | some r => readReg s r
  | none => 0#32

end Sys2Proof.Machine
end

