-- ==== Sys2Proof/Machine/Matcher.lean ====
section
/-! DEFINITION. The LZ77 sliding-window matcher, command `LZMATCH` (rules R130 to R151). -/

namespace Sys2Proof.Machine

/-- The loop of rule R133 from `k` on, with `fuel` comparisons left before `k` reaches `L`. -/
def matchFrom (inp : List Byte) (i j : Nat) : (fuel k : Nat) → Nat
  | 0, k => k
  | fuel + 1, k =>
    if j + k < i ∧ i + k < inp.length ∧ inp[j + k]? = inp[i + k]? then matchFrom inp i j fuel (k + 1) else k

/-- `mlen(i, j)`: the match length of the candidate `j` at position `i` (rule R133). -/
def matchLen (inp : List Byte) (l i j : Nat) : Nat := matchFrom inp i j l 0

/-- The candidates at position `i`, ascending: `i -. W` to `i - 1` (rule R134). -/
def candidates (w i : Nat) : List Nat := List.range' (i - w) (min i w)

/-- The best match so far as (offset, length): a candidate replaces it only when strictly longer (rule R135). -/
def better (inp : List Byte) (l i : Nat) (best : Nat × Nat) (j : Nat) : Nat × Nat :=
  let k := matchLen inp l i j
  if best.2 < k then (i - j, k) else best

/-- The best (offset, length) at position `i` (rule R135). -/
def bestMatch (inp : List Byte) (w l i : Nat) : Nat × Nat :=
  (candidates w i).foldl (better inp l i) (0, 0)

/-- The literal after a match that ends before index `p`: the byte there, or `END` (rule R137). -/
def literalAt (inp : List Byte) (p : Nat) : Literal :=
  match inp[p]? with
  | some b => .byte b
  | none => .sentinel

/-- The token of the step at position `i` (rules R135 to R137). -/
def tokenAt (inp : List Byte) (w l i : Nat) : Token :=
  match bestMatch inp w l i with
  | (off, len) => { offset := off, length := len, lit := literalAt inp (i + len) }

/-- `lzstep(IN, n, W, L, i) = (token, i')` (rules R132, R136). -/
def lzStep (inp : List Byte) (w l i : Nat) : Token × Nat :=
  let t := tokenAt inp w l i
  (t, i + t.length + 1)

/-- The steps from position `i` on (rule R132): the tokens emitted and the final cursor.  Each step advances, so as many
steps as there are bytes suffice (rule R332). -/
def lzSteps (inp : List Byte) (w l : Nat) : (fuel i : Nat) → List Token × Nat
  | 0, i => ([], i)
  | fuel + 1, i =>
    if i < inp.length then
      match lzStep inp w l i with
      | (t, i') =>
        match lzSteps inp w l fuel i' with
        | (ts, last) => (t :: ts, last)
    else ([], i)

/-- The tokens of a whole input and the final cursor (rule R130). -/
def lzTokens (inp : List Byte) (w l : Nat) : List Token × Nat := lzSteps inp w l inp.length 0

/-- A successful end of the matcher (rules R136, R138). -/
def storeTokens (r : List Token × Nat) (s : State) : State :=
  { s with tok := r.1, lzPos := r.2, status := { s.status with tokV := true } }

/-- `LZMATCH` (rules R130, R131, R138, R147). -/
def execLzmatch (s : State) : Outcome :=
  if s.inBuf.length = 0 then
    .next (raise .emptyInput 0#32 (emptyTokens s))
  else
    .next (endDone (storeTokens (lzTokens s.inBuf s.cfg.w s.cfg.l) (emptyTokens s)))

end Sys2Proof.Machine
end

