-- ==== Sys2Proof/Machine/TreeBuilder.lean ====
section
/-! DEFINITION. The Huffman tree builder, command `HTREE` (rules R160 to R182). -/

namespace Sys2Proof.Machine

/-- The frequency count (rule R163): for each symbol the number of its positions in `SYM`. -/
def countSymbols (sym : List Byte) : Vector Nat 256 := symbolTable fun s => sym.count s

/-- The leaves: one for each symbol that occurs, ascending (rule R164). -/
def leavesOf (freq : Vector Nat 256) : List Node :=
  symbols.filterMap fun s => if 0 < entry freq s then some (.leaf s (entry freq s)) else none

/-- `freq` of the node at an index. -/
def freqAt (nodes : List Node) (x : Nat) : Nat :=
  match nodes[x]? with
  | some n => n.freq
  | none => 0

/-- Node `x` comes before node `y` in the priority order (rule R165): lower frequency, among equals lower index
(DESIGN CHOICE, log entry 8: `TIEBREAK` is no argument). -/
def comesBefore (nodes : List Node) (x y : Nat) : Bool :=
  decide (freqAt nodes x < freqAt nodes y ∨ (freqAt nodes x = freqAt nodes y ∧ x < y))

/-- `pq_insert(PQ, x)` (rule R166). -/
def pqInsert (pq : List Nat) (x : Nat) : List Nat := pq ++ [x]

/-- The first in the priority order among `m` and the indices of `pq`. -/
def pqMin (nodes : List Node) (m : Nat) (pq : List Nat) : Nat :=
  pq.foldl (fun m y => if comesBefore nodes y m then y else m) m

/-- `pq_extract_min(PQ)`: the node before every other, and what remains (rule R167). -/
def pqExtractMin (nodes : List Node) : List Nat → Option (Nat × List Nat)
  | [] => none
  | x :: xs => some (pqMin nodes x xs, (x :: xs).erase (pqMin nodes x xs))

/-- One merge (rules R168, R171): the node extracted first becomes the left child.  None when `PQ` holds fewer than two
nodes. -/
def mergeOnce (nodes : List Node) (pq : List Nat) : Option (List Node × List Nat) :=
  match pqExtractMin nodes pq with
  | none => none
  | some (a, pq1) =>
    match pqExtractMin nodes pq1 with
    | none => none
    | some (b, pq2) =>
      some (nodes ++ [.internal (freqAt nodes a + freqAt nodes b) a b], pqInsert pq2 nodes.length)

/-- The merging (rule R168): each merge lowers `|PQ|` by one, so as many merges as there are nodes suffice. -/
def mergeAll : (fuel : Nat) → List Node → List Nat → List Node × List Nat
  | 0, nodes, pq => (nodes, pq)
  | fuel + 1, nodes, pq =>
    match mergeOnce nodes pq with
    | none => (nodes, pq)
    | some (nodes', pq') => mergeAll fuel nodes' pq'

/-- The arena and the queue when the merging ends, from the counts (rules R164, R168). -/
def buildArena (freq : Vector Nat 256) : List Node × List Nat :=
  mergeAll (leavesOf freq).length (leavesOf freq) (List.range (leavesOf freq).length)

/-- The root: the one node left in `PQ` (rule R169). -/
def rootOf (r : List Node × List Nat) : Nat :=
  match pqExtractMin r.1 r.2 with
  | some (x, _) => x
  | none => 0

/-- A successful end of the tree builder (rules R163, R164, R169, R170); `PQ` is emptied. -/
def storeTree (freq : Vector Nat 256) (s : State) : State :=
  { s with
    freq := freq
    node := (buildArena freq).1
    nsym := (leavesOf freq).length
    root := rootOf (buildArena freq)
    pq := []
    status := { s.status with treeV := true } }

/-- `HTREE` (rules R160 to R162, R170). -/
def execHtree (s : State) : Outcome :=
  if s.sym.length = 0 then
    .next (raise .emptyInput 0#32 (emptyTree s))
  else
    .next (endDone (storeTree (countSymbols s.sym) (emptyTree s)))

end Sys2Proof.Machine
end

