-- ==== Sys2Proof/Machine/Dispatch.lean ====
section
/-! DEFINITION. One arm per command: each calls its meaning. -/

namespace Sys2Proof.Machine

def exec (i : Instr) (s : State) : Host.Outcome State Fault Refusal :=
  match i with
  | .lzmatch => Sys2Proof.Machine.execLzmatch s
  | .htree => Sys2Proof.Machine.execHtree s
  | .hcode => Sys2Proof.Machine.execHcode s
  | .bpack => Sys2Proof.Machine.execBpack s
  | .bunpack => Sys2Proof.Machine.execBunpack s
  | .clear => Sys2Proof.Machine.execClear s

end Sys2Proof.Machine
end

