-- ==== Sys2Proof/Machine/Bus.lean ====
section
/-! DEFINITION. The host's accesses: writes to each register (rule R233), the command a write to `CMD` runs (rules R25,
R102, R103), and the bus's refusals (rule R72). -/

namespace Sys2Proof.Machine

/-- A write of `c` to `CMD`: the decoded command runs from start to end, an illegal word ends as `IllegalCommand` and
touches nothing else (rules R25, R80, R102, R103, R297). -/
def runCommand (c : Word) (s : State) : Outcome :=
  match decode c with
  | .ok i => exec i s
  | .error _ => .next (raise .illegalCommand c s)

/-- `HostWrite` of `v` to a register (rules R73, R233): a read-write register stores all 32 bits, a read-only register
ignores the write. -/
def writeReg (r : Reg) (v : Word) (s : State) : Outcome :=
  match r with
  | .cmd => runCommand v s
  | .bufClr => .next (clearBuffers v s)
  | .inPush => .next (pushIn v s)
  | .symPush => .next (pushSym v s)
  | .bitPush => .next (pushBit v s)
  | .bytePush => .next (pushByte v s)
  | .tokIdx => .next { s with tokIdx := v }
  | .freqIdx => .next { s with freqIdx := v }
  | .nodeIdx => .next { s with nodeIdx := v }
  | .codeIdx => .next { s with codeIdx := v }
  | .bitIdx => .next { s with bitIdx := v }
  | .byteIdx => .next { s with byteIdx := v }
  | .vbc => .next { s with vbc := v }
  | .id | .paramW | .paramL | .capIn | .capSym | .capByte | .status | .err | .errInfo | .inLen | .lzPos | .tokCnt
  | .tokData | .symLen | .nsym | .nodeCnt | .root | .freqData | .nodeInfo | .nodeFreq | .nodeKids | .codeLen
  | .codeBits | .bitLen | .bitData | .byteLen | .byteData => .next s

/-- `HostWrite(off, v)` for a supported access (rule R233): ignored at a reserved offset (rule R75). -/
def writeOffset (off : Nat) (v : Word) (s : State) : Outcome :=
  match Reg.atOffset off with
  | some r => writeReg r v s
  | none => .next s

/-- One access of the host or the platform, from start to end (rules R71, R72, R80, R320). -/
def serve (a : Access) (s : State) : Outcome :=
  match a with
  | .reset => .next (resetCore s)
  | .read w off =>
    match busRefusal w off with
    | some r => .refused r
    | none => .next (reply (readOffset s off) s)
  | .write w off v =>
    match busRefusal w off with
    | some r => .refused r
    | none => writeOffset off v s

/-- The access at the head of the host's queue is performed; with none waiting, the core waits (rules R80, R323). -/
def serveNext (s : State) : Outcome :=
  match s.pending with
  | [] => .next s
  | a :: rest => serve a (takeAccess rest s)

/-- The host's queue with a write of the command word `c` to `CMD` in front (rule R25). -/
def issueCommand (c : Word) (s : State) : State :=
  { s with pending := .write .word Reg.cmd.offset c :: s.pending }

end Sys2Proof.Machine
end

