-- ==== Sys2Proof/Machine/Step.lean ====
section
/-! DEFINITION. One step of the machine: one host access (rule R80, DESIGN CHOICE, log entry 3).  A command is one atomic step, taken
inside the host's write to `CMD`. -/

namespace Sys2Proof.Machine

/-- The step. -/
def step (s : State) : Host.Outcome State Fault Refusal := serveNext s

/-- The state in which the very next step runs the command whose word is `w`: the host's next access is the write of that
word to `CMD` (rule R25, DESIGN CHOICE, log entry 4). -/
def State.withFetchWord (s : State) (nbits w : Nat) : State :=
  match tableWord nbits w with
  | some c => issueCommand c s
  | none => s

end Sys2Proof.Machine
end

