-- ==== Sys2Proof/Machine/HostNotation.lean ====
section
/-! DEFINITION. The notation for host programs (rules R114, R115): bus accesses, the pseudo-instructions' expansions, and
a run of a list of accesses. -/

namespace Sys2Proof.Machine

/-- `WR reg, v` (rule R114). -/
def wr (r : Reg) (v : Word) : Access := .write .word r.offset v

/-- `RD reg` (rule R114). -/
def rd (r : Reg) : Access := .read .word r.offset

/-- `CMD m` (rule R115). -/
def cmdAccess (i : Instr) : Access := wr .cmd (encode i)

/-- `PUSH port, b0 b1 ...` for bytes (rule R115). -/
def pushBytes (port : Reg) (bs : List Byte) : List Access := bs.map fun b => wr port (byteAsWord b)

/-- `PUSH BIT_PUSH, b0 b1 ...` (rules R109, R115). -/
def pushBits (bs : BitString) : List Access := bs.map fun b => wr .bitPush (asWord b.toNat)

/-- `RDTOK k` (rule R115). -/
def rdTok (k : Nat) : List Access := [wr .tokIdx (asWord k), rd .tokData]

/-- `RDFREQ s` (rule R115). -/
def rdFreq (s : Byte) : List Access := [wr .freqIdx (byteAsWord s), rd .freqData]

/-- `RDNODE n` (rule R115). -/
def rdNode (n : Nat) : List Access := [wr .nodeIdx (asWord n), rd .nodeInfo, rd .nodeFreq, rd .nodeKids]

/-- `CODE_IDX = s + 256 * w` (rule R115). -/
def codeIdxOf (s : Byte) (w : Nat) : Word := 0#21 ++ BitVec.ofNat 3 w ++ s

/-- `RDCODE s`, at word `w` of the code (rule R115). -/
def rdCode (s : Byte) (w : Nat) : List Access := [wr .codeIdx (codeIdxOf s w), rd .codeLen, rd .codeBits]

/-- `RDBIT p` (rule R115). -/
def rdBit (p : Nat) : List Access := [wr .bitIdx (asWord p), rd .bitData]

/-- `RDBYTE q` (rule R115). -/
def rdByte (q : Nat) : List Access := [wr .byteIdx (asWord q), rd .byteData]

/-- A host program: its accesses performed one at a time, in order (rule R80). -/
def hostRun : List Access → State → Outcome
  | [], s => .next s
  | a :: rest, s =>
    match serve a s with
    | .next t => hostRun rest t
    | .fault r => .fault r
    | .refused r => .refused r

end Sys2Proof.Machine
end

