-- ==== Sys2Proof/Machine/HostSoftware.lean ====
section
/-! DEFINITION. The software around the core as reference functions (rules R250 to R283).  None of it is hardware: no
step of the machine calls it.  It is here because the core's properties are stated through it (rule R5). -/

namespace Sys2Proof.Machine

/-! ### The LZ77 token codec (rules R251 to R255) -/

/-- `SENTINEL_POLICY`: the bytes written in the literal's place for `END`, which the source leaves open (rule R254). -/
structure SentinelPolicy where
  endBytes : List Byte
  deriving DecidableEq, Repr

/-- The policy `nul`: `END` is written as the byte 0x00 (rule R254). -/
def SentinelPolicy.nul : SentinelPolicy := { endBytes := [0x00#8] }

/-- The comma that separates fields (rule R251). -/
def comma : Byte := 0x2C#8

/-- The semicolon that separates records (rule R251). -/
def semicolon : Byte := 0x3B#8

/-- The ASCII digit of a number below 10 (rule R12). -/
def digitByte (d : Nat) : Byte := BitVec.ofNat 8 (0x30 + d)

/-- The number of an ASCII digit, if the byte is one (rule R12). -/
def digitOfByte (b : Byte) : Option Nat :=
  if 0x30 ≤ b.toNat ∧ b.toNat ≤ 0x39 then some (b.toNat - 0x30) else none

/-- The decimal digits of `n` in front of `acc`. -/
def decimalFrom : (fuel n : Nat) → List Byte → List Byte
  | 0, _, acc => acc
  | fuel + 1, n, acc =>
    if n / 10 = 0 then digitByte (n % 10) :: acc else decimalFrom fuel (n / 10) (digitByte (n % 10) :: acc)

/-- A number in decimal ASCII, no sign and no padding (rule R251). -/
def decimalText (n : Nat) : List Byte := decimalFrom (n + 1) n []

/-- The number a field writes in decimal ASCII; none if a byte is no digit or there is no byte (DESIGN CHOICE, log entry 6). -/
def parseDecimal (bs : List Byte) : Option Nat :=
  if bs = [] then none
  else bs.foldlM (fun v b => (digitOfByte b).map fun d => 10 * v + d) 0

/-- The literal field of a record (rules R251, R254). -/
def literalText (p : SentinelPolicy) : Literal → List Byte
  | .byte b => [b]
  | .sentinel => p.endBytes

/-- One token as the text `offset,length,nextChar;` (rule R251). -/
def tokenText (p : SentinelPolicy) (t : Token) : List Byte :=
  decimalText t.offset ++ [comma] ++ decimalText t.length ++ [comma] ++ literalText p t.lit ++ [semicolon]

/-- The token text: all records concatenated (rule R251). -/
def tokensText (p : SentinelPolicy) (ts : List Token) : List Byte := ts.flatMap (tokenText p)

/-- What stands before the first `sep` and what stands after it, if there is one. -/
def splitFirst (sep : Byte) : List Byte → Option (List Byte × List Byte)
  | [] => none
  | b :: rest => if b = sep then some ([], rest) else (splitFirst sep rest).map fun r => (b :: r.1, r.2)

/-- The records of a text: the pieces that a semicolon ends (rule R252); none if bytes are left over after the last
semicolon (DESIGN CHOICE, log entry 6). -/
def splitRecords : List Byte → Option (List (List Byte))
  | [] => some []
  | b :: rest =>
    if b = semicolon then (splitRecords rest).map fun rs => [] :: rs
    else
      match splitRecords rest with
      | some (r :: rs) => some ((b :: r) :: rs)
      | _ => none

/-- The literal field read back: `END` as the policy writes it, or one byte (rules R252, R254); a byte that the policy writes
for `END` reads as `END`, another field is no literal (DESIGN CHOICE, log entry 6). -/
def parseLiteral (p : SentinelPolicy) (bs : List Byte) : Option Literal :=
  if bs = p.endBytes then some .sentinel
  else
    match bs with
    | [b] => some (.byte b)
    | _ => none

/-- One record read back: split on the first two commas (rule R252); none for fewer than two commas or a field that is no
number or literal (DESIGN CHOICE, log entry 6). -/
def parseRecord (p : SentinelPolicy) (r : List Byte) : Option Token := do
  let (off, rest) ← splitFirst comma r
  let (len, lit) ← splitFirst comma rest
  return { offset := ← parseDecimal off, length := ← parseDecimal len, lit := ← parseLiteral p lit }

/-- The tokens read back from a token text (rule R252); none where a record cannot be parsed (DESIGN CHOICE, log entry
6). -/
def parseTokens (p : SentinelPolicy) (text : List Byte) : Option (List Token) := do
  (← splitRecords text).mapM (parseRecord p)

/-- `TOKEN_FORMAT`: how tokens become the text the Huffman stage compresses, and back.  The source leaves it open
(rules R11, R253). -/
structure TokenCodec where
  write : List Token → List Byte
  read  : List Byte → Option (List Token)

/-- The format `legacy_text` (rules R251, R252). -/
def TokenCodec.legacyText (p : SentinelPolicy) : TokenCodec where
  write := tokensText p
  read  := parseTokens p

/-! ### LZ77 replay (rules R262 to R264) -/

/-- `count` bytes copied, one at a time, from index `start` on to the end of the output (rules R262, R263). -/
def copyFrom (start : Nat) : (count : Nat) → List Byte → List Byte
  | 0, out => out
  | count + 1, out => copyFrom (start + 1) count (out ++ [out.getD start 0#8])

/-- The literal appended to the output; nothing for `END` (rule R262). -/
def appendLiteral (out : List Byte) : Literal → List Byte
  | .byte b => out ++ [b]
  | .sentinel => out

/-- One token replayed (rule R262); none for a token that cannot be replayed (rule R264). -/
def replayToken (out : List Byte) (t : Token) : Option (List Byte) :=
  if t.offset ≤ out.length ∧ (t.length = 0 ∨ 0 < t.offset) then
    some (appendLiteral (copyFrom (out.length - t.offset) t.length out) t.lit)
  else none

/-- `replay(tokens)` (rule R262). -/
def replay (ts : List Token) : Option (List Byte) := ts.foldlM replayToken []

/-! ### Huffman encoding and decoding (rules R256 to R260) -/

/-- The bit string of a byte sequence under a code table (rule R256); none if a byte has no code. -/
def encodeBytes (code : Byte → Option BitString) (text : List Byte) : Option BitString :=
  (text.mapM code).map List.flatten

/-- The encoded length in bits from the counts and the codes (rule R257). -/
def encodedLength (freq : Vector Nat 256) (code : Vector (Option BitString) 256) : Nat :=
  (symbols.map fun s => entry freq s * ((entry code s).getD []).length).sum

/-- The tree that decompression rebuilds (rule R258): it carries no frequencies, and a child may be missing. -/
inductive CodeTree where
  | missing
  | leaf (symbol : Byte)
  | fork (left right : CodeTree)
  deriving DecidableEq, Repr

/-- A root without children (rule R258). -/
def CodeTree.root : CodeTree := .fork .missing .missing

/-- One (symbol, code) pair inserted as a path, missing nodes created on demand (rule R258); none when the path runs
through or ends on another entry's leaf, or ends on a node that has children (rule R260). -/
def insertCode (symbol : Byte) : BitString → CodeTree → Option CodeTree
  | [], .missing => some (.leaf symbol)
  | [], _ => none
  | _ :: _, .leaf _ => none
  | false :: bs, .missing => (insertCode symbol bs .missing).map fun l => .fork l .missing
  | true :: bs, .missing => (insertCode symbol bs .missing).map fun r => .fork .missing r
  | false :: bs, .fork l r => (insertCode symbol bs l).map fun l' => .fork l' r
  | true :: bs, .fork l r => (insertCode symbol bs r).map fun r' => .fork l r'

/-- The tree rebuilt from a code table (rule R258).  An empty table, and a symbol listed more than once under codes that are
prefix-free, are accepted (DESIGN CHOICE, log entry 6). -/
def rebuildTree (table : List (Byte × BitString)) : Option CodeTree :=
  table.foldlM (fun t e => insertCode e.1 e.2 t) CodeTree.root

/-- The child a bit leads to (rule R259). -/
def CodeTree.child : CodeTree → Bool → CodeTree
  | .fork l _, false => l
  | .fork _ r, true => r
  | .leaf _, _ => .missing
  | .missing, _ => .missing

/-- The walk from the node `cur`, `fresh` when that is the root just reached (rule R259); none for the failures of rule
R260. -/
def decodeFrom (root : CodeTree) : (fresh : Bool) → (cur : CodeTree) → BitString → Option (List Byte)
  | fresh, _, [] => if fresh then some [] else none
  | _, cur, b :: bs =>
    match cur.child b with
    | .leaf s => (decodeFrom root true root bs).map fun out => s :: out
    | .fork l r => decodeFrom root false (.fork l r) bs
    | .missing => none

/-- The byte sequence of a bit string by tree walk (rules R259, R260). -/
def decodeBits (root : CodeTree) (bs : BitString) : Option (List Byte) := decodeFrom root true root bs

/-! ### The container (rules R270 to R272) -/

/-- The fields of a container (rule R270). -/
structure Container where
  validBitCount : Nat
  codeTable     : List (Byte × BitString)
  payload       : List Byte
  deriving DecidableEq, Repr

/-- An `int32`: 4 bytes, least significant byte first (rule R270). -/
def int32Bytes (n : Nat) : List Byte :=
  [BitVec.ofNat 8 n, BitVec.ofNat 8 (n / 256), BitVec.ofNat 8 (n / 65536), BitVec.ofNat 8 (n / 16777216)]

/-- A code as ASCII characters, first bit first (rule R270). -/
def codeChars (c : BitString) : List Byte := c.map fun b => digitByte b.toNat

/-- One entry of the code table (rule R270). -/
def entryBytes (e : Byte × BitString) : List Byte := e.1 :: (int32Bytes e.2.length ++ codeChars e.2)

/-- The bytes of a container (rule R270). -/
def containerBytes (c : Container) : List Byte :=
  int32Bytes c.validBitCount ++ int32Bytes c.codeTable.length ++ c.codeTable.flatMap entryBytes ++
    int32Bytes c.payload.length ++ c.payload

/-- The size of a container (rule R271). -/
def containerSize (c : Container) : Nat :=
  4 + 4 + (c.codeTable.map fun e => 1 + 4 + e.2.length).sum + 4 + c.payload.length

/-- `n` bytes off the front; none when the bytes end before (rule R272). -/
def takeBytes (n : Nat) (bs : List Byte) : Option (List Byte × List Byte) :=
  if n ≤ bs.length then some (bs.take n, bs.drop n) else none

/-- An `int32` off the front; none when the bytes end before or the number is negative (rule R272). -/
def takeInt32 : List Byte → Option (Nat × List Byte)
  | b0 :: b1 :: b2 :: b3 :: rest =>
    if b3.toNat < 128 then
      some (b0.toNat + 256 * b1.toNat + 65536 * b2.toNat + 16777216 * b3.toNat, rest)
    else none
  | _ => none

/-- A code bit from its ASCII character (rule R270); another character is no code bit (DESIGN CHOICE, log entry 6). -/
def bitOfChar (b : Byte) : Option Bool :=
  if b = 0x30#8 then some false else if b = 0x31#8 then some true else none

/-- One entry off the front (rules R270, R272). -/
def takeEntry : List Byte → Option ((Byte × BitString) × List Byte)
  | [] => none
  | s :: bs => do
    let (len, bs) ← takeInt32 bs
    let (chars, bs) ← takeBytes len bs
    return ((s, ← chars.mapM bitOfChar), bs)

/-- `n` entries off the front (rules R270, R272). -/
def takeEntries : Nat → List Byte → Option (List (Byte × BitString) × List Byte)
  | 0, bs => some ([], bs)
  | n + 1, bs => do
    let (e, bs) ← takeEntry bs
    let (es, bs) ← takeEntries n bs
    return (e :: es, bs)

/-- The container read back; none for a malformed one (rule R272).  Bytes after the payload are ignored (DESIGN CHOICE, log entry 6). -/
def parseContainer (bs : List Byte) : Option Container := do
  let (vbc, bs) ← takeInt32 bs
  let (n, bs) ← takeInt32 bs
  let (table, bs) ← takeEntries n bs
  let (len, bs) ← takeInt32 bs
  let (payload, _) ← takeBytes len bs
  return { validBitCount := vbc, codeTable := table, payload := payload }

/-! ### The two compositions on the hardware (rules R265 to R268, R274) -/

/-- How the software fails.  The first four are the source's error kinds (rule R274); the file system raises
`inputNotFound` and `outputNotWritable` (rule R292), which no function of this file does. -/
inductive SoftError where
  | inputNotFound
  | emptyInput
  | outputNotWritable
  | malformedContainer
  /-- `STATUS.HERR` is set before a command: a push was dropped (rules R266, R326).  The source has no such case. -/
  | bufferFull
  /-- The bus refused an access; the procedures of this file make none it refuses. -/
  | busError
  deriving DecidableEq, Repr

/-- The host performs accesses and takes the values its reads return. -/
def hostAsk (as : List Access) (s : State) : Except SoftError (List Word × State) :=
  match hostRun as s with
  | .next t => .ok (t.replies.drop s.replies.length, t)
  | .fault _ => .error .busError
  | .refused _ => .error .busError

/-- The host performs accesses whose returned values it does not use. -/
def hostDo (as : List Access) (s : State) : Except SoftError State := (hostAsk as s).map (·.2)

/-- The host reads one register. -/
def hostGet (r : Reg) (s : State) : Except SoftError (Word × State) := do
  let (vs, s) ← hostAsk [rd r] s
  return (vs.getD 0 0#32, s)

/-- Before a command: `STATUS.HERR` must be 0 (rules R236, R326). -/
def checkPushes (s : State) : Except SoftError State := do
  let (v, s) ← hostGet .status s
  if v.getLsbD 8 then .error .bufferFull else return s

/-- A command, after the check of the pushes, and then `ERR`: its failures as the software names them (rule R274).  An error
that rule R274 does not name is answered with `malformedContainer` (DESIGN CHOICE, log entry 6). -/
def hostCommand (i : Instr) (s : State) : Except SoftError State := do
  let s ← checkPushes s
  let s ← hostDo [cmdAccess i] s
  let (e, s) ← hostGet .err s
  if e = ErrCode.ok.code then return s
  else if e = ErrCode.emptyInput.code then .error .emptyInput
  else .error .malformedContainer

/-- The tokens read from the core (rules R105, R255). -/
def hostTokens (s : State) : Except SoftError (List Token × State) := do
  let (n, s) ← hostGet .tokCnt s
  let (ws, s) ← hostAsk ((List.range n.toNat).flatMap rdTok) s
  return (ws.map Token.ofWord, s)

/-- The bits of a 32-bit word of a code, first bit in bit 31 (rule R107). -/
def wordBits (v : Word) : BitString := (List.range 32).map fun r => v.getLsbD (31 - r)

/-- The words of a code for the symbol `s`, as `CODE_LEN` and `CODE_BITS` show them. -/
def codeAccesses (s : Byte) : List Access :=
  [wr .codeIdx (codeIdxOf s 0), rd .codeLen] ++
    (List.range 8).flatMap fun w => [wr .codeIdx (codeIdxOf s w), rd .codeBits]

/-- The code of a symbol from the values read: `CODE_LEN` and the eight words (rule R107). -/
def codeOfWords (vs : List Word) : Option BitString :=
  match vs with
  | [] => none
  | len :: ws =>
    if len.getLsbD 31 then some ((ws.flatMap wordBits).take (len.extractLsb' 0 9).toNat) else none

/-- The code of one symbol read from the core (rules R107, R115). -/
def hostCode (sym : Byte) (s : State) : Except SoftError (Option BitString × State) := do
  let (vs, s) ← hostAsk (codeAccesses sym) s
  return (codeOfWords vs, s)

/-- The code table read from the core, ascending by symbol (rules R256, R270). -/
def hostTable : List Byte → State → Except SoftError (List (Byte × BitString) × State)
  | [], s => .ok ([], s)
  | sym :: rest, s => do
    let (c, s) ← hostCode sym s
    let (table, s) ← hostTable rest s
    match c with
    | some c => return ((sym, c) :: table, s)
    | none => return (table, s)

/-- The code of a symbol in a table. -/
def tableCode (table : List (Byte × BitString)) (s : Byte) : Option BitString := table.lookup s

/-- The packed bytes read from the core. -/
def hostBytes (s : State) : Except SoftError (List Byte × State) := do
  let (n, s) ← hostGet .byteLen s
  let (ws, s) ← hostAsk ((List.range n.toNat).flatMap rdByte) s
  return (ws.map pushedByte, s)

/-- The bits read from the core. -/
def hostBits (s : State) : Except SoftError (BitString × State) := do
  let (n, s) ← hostGet .bitLen s
  let (ws, s) ← hostAsk ((List.range n.toNat).flatMap rdBit) s
  return (ws.map pushedBit, s)

/-- `compress` on the hardware (rules R265, R266).  A byte without a code would be answered with `malformedContainer` (DESIGN
CHOICE, log entry 6).  `order` is `TABLE_ORDER`, which the source leaves open (rule R270). -/
def compress (codec : TokenCodec) (order : List (Byte × BitString) → List (Byte × BitString)) (input : List Byte)
    (s : State) : Except SoftError (List Byte × State) := do
  let s ← hostDo (cmdAccess .clear :: pushBytes .inPush input) s
  let s ← hostCommand .lzmatch s
  let (tokens, s) ← hostTokens s
  let text := codec.write tokens
  let s ← hostDo (pushBytes .symPush text) s
  let s ← hostCommand .htree s
  let s ← hostCommand .hcode s
  let (table, s) ← hostTable symbols s
  match encodeBytes (tableCode table) text with
  | none => .error .malformedContainer
  | some bs => do
    let s ← hostDo (pushBits bs) s
    let s ← hostCommand .bpack s
    let (vbc, s) ← hostGet .vbc s
    let (payload, s) ← hostBytes s
    return (containerBytes { validBitCount := vbc.toNat, codeTable := order table, payload := payload }, s)

/-- `decompress` on the hardware (rules R267, R268, R329).  A decoded text that the token codec cannot read is answered with
`malformedContainer` (DESIGN CHOICE, log entry 6). -/
def decompress (codec : TokenCodec) (container : List Byte) (s : State) : Except SoftError (List Byte × State) :=
  match parseContainer container with
  | none => .error .malformedContainer
  | some c =>
    match rebuildTree c.codeTable with
    | none => .error .malformedContainer
    | some tree => do
      let s ← hostDo (wr .bufClr 0xC#32 :: pushBytes .bytePush c.payload) s
      let s ← hostDo [wr .vbc (asWord c.validBitCount)] s
      let s ← hostCommand .bunpack s
      let (bs, s) ← hostBits s
      match (do replay (← codec.read (← decodeBits tree bs))) with
      | none => .error .malformedContainer
      | some out => return (out, s)

end Sys2Proof.Machine
end

