-- ==== Sys2Proof/Safety.lean ====
section
/-! DEFINITION. What holds in every reachable state (rule R44 with the bounds of rules R31, R35, R38 and R90), which
states are reachable, and what a run without a recorded error is (rule R302). -/

namespace Sys2Proof.Machine

/-- The node at an index has the child `x`. -/
def Node.hasChild : Node → Nat → Prop
  | .leaf _ _, _ => False
  | .internal _ l r, x => x = l ∨ x = r

/-- The sum of all counts of a frequency table. -/
def freqTotal (freq : Vector Nat 256) : Nat := (symbols.map (entry freq)).sum

/-- The node reached from node `n` along the edge labels `bs`: 0 left, 1 right (rule R191); none when the path leaves
the tree. -/
def follow (nodes : List Node) : Nat → BitString → Option Nat
  | n, [] => some n
  | n, b :: bs =>
    match nodes[n]? with
    | some (.internal _ l r) => follow nodes (if b then r else l) bs
    | _ => none

/-- `c` is the code of the symbol `b` in the tree (rules R192, R193): the path from the root to the leaf of `b`, and for a
root that is itself a leaf the one-bit string `"0"`. -/
def IsCodeOf (nodes : List Node) (root : Nat) (b : Byte) (c : BitString) : Prop :=
  match nodes[root]? with
  | some (.leaf b' _) => b = b' ∧ c = [false]
  | _ => ∃ k f, follow nodes root c = some k ∧ nodes[k]? = some (.leaf b f)

/-- Rule R44 (a), with the bound of rule R31 on the cursor and of rule R35 on the counts. -/
structure WithinCapacity (s : State) : Prop where
  inLen    : s.inBuf.length ≤ s.cfg.inCap
  symLen   : s.sym.length ≤ s.cfg.symCap
  bitLen   : s.bits.length ≤ s.cfg.bitCap
  byteLen  : s.bytes.length ≤ s.cfg.byteCap
  tokCnt   : s.tok.length ≤ s.cfg.inCap
  cursor   : s.lzPos ≤ s.cfg.inCap + 1
  counted  : freqTotal s.freq ≤ s.cfg.symCap

/-- Rule R44 (b): what `FREQ`, `NODE`, `NSYM`, `NODE_CNT` and `ROOT` hold after a successful `HTREE`. -/
structure IsTree (freq : Vector Nat 256) (nodes : List Node) (nsym root : Nat) : Prop where
  someSymbol : 1 ≤ nsym ∧ nsym ≤ 256
  nodeCount  : nodes.length = 2 * nsym - 1
  rootLast   : root = nodes.length - 1
  leaves     : ∀ k < nsym, ∃ b, nodes[k]? = some (.leaf b (entry freq b)) ∧ 0 < entry freq b
  ascending  : ∀ j k b c f g, j < k → k < nsym → nodes[j]? = some (.leaf b f) → nodes[k]? = some (.leaf c g) → b < c
  internals  : ∀ k, nsym ≤ k → k < nodes.length →
    ∃ l r, nodes[k]? = some (.internal (freqAt nodes l + freqAt nodes r) l r) ∧ l < k ∧ r < k ∧ l ≠ r
  oneParent  : ∀ x < nodes.length, x ≠ root → ∃! p : Nat, ∃ n : Node, nodes[p]? = some n ∧ n.hasChild x
  everySymbol : ∀ b, 0 < entry freq b → ∃ k < nsym, nodes[k]? = some (.leaf b (entry freq b))
  rootFreq   : freqAt nodes root = freqTotal freq

/-- Rule R44, with `PQ` empty between commands (rule R38), the bounds of rule R105 on the tokens and `STATUS` in step with
`ERR` (rules R26, R27, R43). -/
structure CoreInv (s : State) : Prop where
  cfg       : s.cfg.Valid
  capacity  : WithinCapacity s
  tree      : s.status.treeV = true → IsTree s.freq s.node s.nsym s.root
  noTree    : s.status.treeV = false →
    s.nsym = 0 ∧ s.node = [] ∧ s.root = 0 ∧ (∀ b, entry s.freq b = 0) ∧ s.status.codeV = false
  codes     : s.status.codeV = true →
    s.status.treeV = true ∧ (∀ b, (entry s.code b).isSome ↔ 0 < entry s.freq b) ∧
    ∀ b c, entry s.code b = some c ↔ IsCodeOf s.node s.root b c
  noCodes   : s.status.codeV = false → ∀ b, entry s.code b = none
  noTokens  : s.status.tokV = false → s.tok = [] ∧ s.lzPos = 0
  tokens    : ∀ t ∈ s.tok, t.offset ≤ s.cfg.w ∧ t.length ≤ s.cfg.l
  queue     : s.pq = []
  result    : s.err = .ok ↔ s.status.state ≠ .error
  sticky    : s.status.state = .error → s.status.ever = true

/-- The states the machine with the parameters `c` can be in: reset, and from there the host issues accesses and the core
performs them (rules R80, R322). -/
inductive Reachable (c : Config) : State → Prop where
  | reset : Reachable c (State.resetWith c)
  | issue (a : Access) (s : State) : Reachable c s → Reachable c { s with pending := s.pending ++ [a] }
  | step (s t : State) : Reachable c s → Sys2Proof.Machine.step s = .next t → Reachable c t

/-- No error recorded: `STATUS[9:8] = 0` (rule R302). -/
def NoErrorRecorded (s : State) : Prop := s.status.ever = false ∧ s.status.herr = false

/-- A safe state in the terms claims use: the invariants hold, no command failed and no push was dropped since the last
`CLEAR` or reset (rules R44, R302, R326). -/
def Safe (s : State) : Prop := CoreInv s ∧ NoErrorRecorded s

end Sys2Proof.Machine
end

