-- ==== Sys2Proof/Safety/Terms.lean ====
section
/-! DEFINITION. The terms claims are stated in: what the rules say a result is, apart from how the machine computes it. -/

namespace Sys2Proof.Machine

/-! ### Host accesses -/

/-- An access the block supports: an aligned 32-bit access at an offset 0x00 to 0xFC (rule R71); a reset is always
possible between two accesses (rule R322). -/
def Access.Supported : Access → Prop
  | .read w off => w = .word ∧ off < 256 ∧ off % 4 = 0
  | .write w off _ => w = .word ∧ off < 256 ∧ off % 4 = 0
  | .reset => True

/-- The access the next step performs. -/
def NextIs (s : State) (a : Access) : Prop := s.pending.head? = some a

/-- The next step writes `v` to the register `r`. -/
def NextWrites (s : State) (r : Reg) (v : Word) : Prop := NextIs s (.write .word r.offset v)

/-- The next step runs the command `i`. -/
def NextRuns (s : State) (i : Instr) : Prop := NextWrites s .cmd (encode i)

/-- The next step wipes the core: a reset or the command `CLEAR` (rules R320, R321). -/
def NextWipes (s : State) : Prop := NextIs s .reset ∨ NextRuns s .clear

/-! ### The matcher (rules R133 to R137) -/

/-- A candidate `j` at position `i` can be extended to length `k`: the four conditions of rule R133 hold for every
`t < k`. -/
def Agrees (inp : List Byte) (l i j k : Nat) : Prop :=
  ∀ t < k, t < l ∧ j + t < i ∧ i + t < inp.length ∧ inp[j + t]? = inp[i + t]?

/-- `j` is a candidate at position `i` (rule R134). -/
def IsCandidate (w i j : Nat) : Prop := i - w ≤ j ∧ j < i

/-- `(off, len)` is the best match at position `i` (rule R135): the longest, among equals the one with the smallest `j`;
`(0, 0)` when no candidate agrees in a single byte. -/
def IsBestMatch (inp : List Byte) (w l i off len : Nat) : Prop :=
  (∀ j k, IsCandidate w i j → Agrees inp l i j k → k ≤ len) ∧
  (len = 0 → off = 0) ∧
  (0 < len → ∃ j, IsCandidate w i j ∧ off = i - j ∧ Agrees inp l i j len ∧
    ∀ j', IsCandidate w i j' → Agrees inp l i j' len → j ≤ j')

/-- The literal of rule R137 for a match that ends before index `p`. -/
def IsLiteralAt (inp : List Byte) (p : Nat) (lit : Literal) : Prop :=
  (∀ b, inp[p]? = some b → lit = .byte b) ∧ (inp.length ≤ p → lit = .sentinel)

/-- The tokens of the steps taken from position `i` on and the cursor they end at (rules R132, R136). -/
inductive ParsedFrom (inp : List Byte) (w l : Nat) : Nat → List Token → Nat → Prop where
  | done (i : Nat) : inp.length ≤ i → ParsedFrom inp w l i [] i
  | token (i : Nat) (t : Token) (rest : List Token) (last : Nat) :
      i < inp.length → IsBestMatch inp w l i t.offset t.length → IsLiteralAt inp (i + t.length) t.lit →
      ParsedFrom inp w l (i + t.length + 1) rest last → ParsedFrom inp w l i (t :: rest) last

/-- The position at which a token was emitted: the sum of `length + 1` over all earlier tokens (rule R139). -/
def consumed (ts : List Token) : Nat := (ts.map fun t => t.length + 1).sum

/-! ### The tree builder (rules R165, R168, R175) -/

/-- Node `x` comes before node `y` in the priority order (rule R165). -/
def Before (nodes : List Node) (x y : Nat) : Prop :=
  freqAt nodes x < freqAt nodes y ∨ (freqAt nodes x = freqAt nodes y ∧ x < y)

/-- `x` is in `PQ` when node `k` is about to be created: created before it, and child of no node created before it
(rule R168). -/
def InQueueAt (nodes : List Node) (k x : Nat) : Prop :=
  x < k ∧ ∀ p < k, ∀ n, nodes[p]? = some n → ¬ n.hasChild x

/-- The leaf of the symbol `b` lies at or below node `x` (rule R175). -/
def LeafBelow (nodes : List Node) (x : Nat) (b : Byte) : Prop :=
  ∃ path k f, follow nodes x path = some k ∧ nodes[k]? = some (.leaf b f)

/-- The code table as the host reads it: the symbols that have a code, ascending (rules R256, R270). -/
def codeEntries (code : Vector (Option BitString) 256) : List (Byte × BitString) :=
  symbols.filterMap fun b => (entry code b).map fun c => (b, c)

/-- The weight `2^(255 - length)` of a code, 0 for a symbol without one: `2^255` times the term of rule R197's sum. -/
def codeWeight (c : Option BitString) : Nat :=
  match c with
  | some c => 2 ^ (255 - c.length)
  | none => 0

/-- A codec is unambiguous when it reads back every token sequence it writes (rules R253, R277). -/
def TokenCodec.Unambiguous (codec : TokenCodec) : Prop := ∀ ts, codec.read (codec.write ts) = some ts

end Sys2Proof.Machine
end

