-- ==== Sys2Proof/WellFormed.lean ====
section
/-! DEFINITION. Well-formed terms.  A command has no operand (rule R100), so every command is well formed; what can be
ill formed is the machine's configuration. -/

namespace Sys2Proof

/-- A command carries no field that could be out of range (rules R100, R112): each of the six is well formed. -/
def Instr.wellFormed : Instr → Bool
  | .lzmatch => true
  | .htree => true
  | .hcode => true
  | .bpack => true
  | .bunpack => true
  | .clear => true

/-- A configuration is well formed when it meets rules R7, R10 and R70. -/
def Config.wellFormed (c : Config) : Bool := decide c.Valid

end Sys2Proof
end

