-- ==== Sys2Proof/Certificates/Slice0/Obligations.lean ====
section
/-! DEFINITION. The statements for the provers.  Each docstring names the rule it formalises. -/

section

open Sys2Proof Sys2Proof.Machine

/-! ## Encoding -/

/-- Rule R101: the opcode map, every command word written out. -/
def Obligations.SixCommandWordsDecode : Prop :=
  decode 0x00000001#32 = .ok .lzmatch ∧ decode 0x00000002#32 = .ok .htree ∧ decode 0x00000003#32 = .ok .hcode ∧
  decode 0x00000004#32 = .ok .bpack ∧ decode 0x00000005#32 = .ok .bunpack ∧ decode 0x0000000F#32 = .ok .clear

/-- Every well-formed command decodes from its own word (rules R100 to R102). -/
def Obligations.DecodeOfEncodeIsTheCommand : Prop :=
  ∀ i : Instr, i.wellFormed = true → decode (encode i) = .ok i

/-- Rules R102, R103: the legal words are those with `ZERO = 0` and one of the six opcodes, and each is the word of the
command it decodes to, so no bit of a word is ignored. -/
def Obligations.LegalWordsAreExactlyTheSix : Prop :=
  (∀ c : Word, (∃ i, decode c = .ok i) ↔ (c.toNat / 256 = 0 ∧ c.toNat % 256 ∈ [0x01, 0x02, 0x03, 0x04, 0x05, 0x0F])) ∧
  ∀ (c : Word) (i : Instr), decode c = .ok i → c = encode i

/-- The host's queue and a step (rules R25, R80, R102; the queue is log entry 3): when the next access writes a word to
`CMD` that decodes to a command, the step is that command's meaning; every other write of a word in the block is that
write; with no access the core waits. -/
def Obligations.StepRunsTheDecodedCommand : Prop :=
  (∀ (s : State) (rest : List Access) (c : Word) (i : Instr),
    decode c = .ok i → s.pending = .write .word 0x18 c :: rest → step s = exec i { s with pending := rest }) ∧
  (∀ (s : State) (rest : List Access) (off : Nat) (v : Word),
    off < 256 → off % 4 = 0 → s.pending = .write .word off v :: rest →
    step s = writeOffset off v { s with pending := rest }) ∧
  ∀ s : State, s.pending = [] → step s = .next s

/-- Rule R103: every other command word ends as `IllegalCommand` with the word in `ERR_INFO` and touches nothing but
`STATE`, `EVER`, `ERR`, `ERR_INFO`. -/
def Obligations.IllegalWordOnlyReportsItself : Prop :=
  ∀ (s : State) (rest : List Access) (c : Word),
    c.toNat ∉ [0x01, 0x02, 0x03, 0x04, 0x05, 0x0F] → s.pending = .write .word 0x18 c :: rest →
    step s = .next { s with
      pending := rest, status := { s.status with state := .error, ever := true },
      err := .illegalCommand, errInfo := c }

/-! ## LZMATCH -/

/-- Rules R134 to R138: on a non-empty `IN`, `LZMATCH` completes; its tokens are the greedy parse of `IN` by best matches,
the cursor is where the parse ends, and nothing else changes but `TOK_V`, `STATE` and `ERR`. -/
def Obligations.LzmatchParsesTheInput : Prop :=
  ∀ s : State, s.inBuf ≠ [] →
    ∃ toks last, ParsedFrom s.inBuf s.cfg.w s.cfg.l 0 toks last ∧
      exec .lzmatch s = .next { s with
        tok := toks, lzPos := last, status := { s.status with state := .done, tokV := true }, err := .ok }

/-- Rules R131, R147: on an empty `IN`, `LZMATCH` ends as `EmptyInput` with its outputs emptied. -/
def Obligations.LzmatchOnEmptyInputFails : Prop :=
  ∀ s : State, s.inBuf = [] →
    exec .lzmatch s = .next { s with
      tok := [], lzPos := 0, status := { s.status with state := .error, tokV := false, ever := true },
      err := .emptyInput, errInfo := 0#32 }

/-- Rule R144: replaying the tokens reconstructs the input. -/
def Obligations.ReplayOfTokensIsTheInput : Prop :=
  ∀ s : State, s.inBuf ≠ [] → ∃ t, exec .lzmatch s = .next t ∧ replay t.tok = some s.inBuf

/-- Rules R139 to R141: the bounds of every token, `p` the position at which it was emitted. -/
def Obligations.TokenOffsetsAndLengthsBounded : Prop :=
  ∀ s : State, s.inBuf ≠ [] → ∃ t, exec .lzmatch s = .next t ∧
    ∀ before x after, t.tok = before ++ x :: after →
      x.length ≤ s.cfg.l ∧ x.length ≤ x.offset ∧ x.offset ≤ min s.cfg.w (consumed before) ∧
      (x.length = 0 ↔ x.offset = 0) ∧ (x.length = 0 → ∃ b, x.lit = .byte b)

/-- Rules R142, R143: the sentinel stands only in the last token, exactly when the last match ends at index `n - 1`; the
cursor ends at the sum of `length + 1`, which is `n + 1` after a sentinel and `n` otherwise. -/
def Obligations.SentinelOnlyLastAndCursorAtEnd : Prop :=
  ∀ s : State, s.inBuf ≠ [] → ∃ t, exec .lzmatch s = .next t ∧
    (∀ before x after, t.tok = before ++ x :: after →
      (x.lit = .sentinel → after = [] ∧ 1 ≤ x.length) ∧
      (x.lit = .sentinel ↔ consumed before + x.length = s.inBuf.length)) ∧
    t.lzPos = consumed t.tok ∧
    ∃ before x, t.tok = before ++ [x] ∧
      t.lzPos = (if x.lit = .sentinel then s.inBuf.length + 1 else s.inBuf.length)

/-- Rule R145: the number of tokens, at most `n` and at least `ceil(n / (L + 1))`; `n` when no byte repeats. -/
def Obligations.TokenCountBounds : Prop :=
  ∀ s : State, s.inBuf ≠ [] → ∃ t, exec .lzmatch s = .next t ∧
    1 ≤ t.tok.length ∧ t.tok.length ≤ s.inBuf.length ∧ s.inBuf.length ≤ t.tok.length * (s.cfg.l + 1) ∧
    (s.inBuf.Nodup → t.tok.length = s.inBuf.length)

/-! ## HTREE -/

/-- Rules R163, R169, R170, R173: on a non-empty `SYM`, `HTREE` completes; `FREQ` counts the symbols, the arena is a tree
with the invariants of rule R44 (b), the codes are removed, and nothing else changes but the flags and `ERR`. -/
def Obligations.HtreeBuildsATree : Prop :=
  ∀ s : State, s.sym ≠ [] →
    ∃ freq nodes nsym root, (∀ b, entry freq b = s.sym.count b) ∧ freqTotal freq = s.sym.length ∧
      IsTree freq nodes nsym root ∧
      exec .htree s = .next { s with
        freq := freq, node := nodes, nsym := nsym, root := root, pq := [], code := symbolTable fun _ => none,
        status := { s.status with state := .done, treeV := true, codeV := false }, err := .ok }

/-- Rule R164: the leaves, one for each symbol that occurs, in ascending order of the symbol, come first in the arena;
`NSYM` is the number of distinct bytes. -/
def Obligations.HtreeLeavesAscend : Prop :=
  ∀ s : State, s.sym ≠ [] → ∃ t, exec .htree s = .next t ∧
    t.node.take t.nsym = (symbols.filter fun b => decide (b ∈ s.sym)).map (fun b => .leaf b (s.sym.count b)) ∧
    t.nsym = s.sym.dedup.length

/-- Rules R165, R168, R171: there are `NSYM - 1` merges; each internal node is the merge of the two nodes that come first,
in the order (frequency, index), among those waiting in `PQ` when it is created, the first of them the left child. -/
def Obligations.HtreeMergesTheTwoLeast : Prop :=
  ∀ s : State, s.sym ≠ [] → ∃ t, exec .htree s = .next t ∧ t.node.length = 2 * t.nsym - 1 ∧
    ∀ k, t.nsym ≤ k → k < t.node.length → ∃ a b,
      t.node[k]? = some (.internal (freqAt t.node a + freqAt t.node b) a b) ∧ a ≠ b ∧
      InQueueAt t.node k a ∧ InQueueAt t.node k b ∧
      (∀ x, InQueueAt t.node k x → x ≠ a → Before t.node a x) ∧
      (∀ x, InQueueAt t.node k x → x ≠ a → x ≠ b → Before t.node b x)

/-- Rule R175: the frequency of a node is the number of positions of `SYM` that hold a symbol of a leaf at or below it. -/
def Obligations.NodeFrequencyCountsItsLeaves : Prop :=
  ∀ s : State, s.sym ≠ [] → ∃ t, exec .htree s = .next t ∧ freqAt t.node t.root = s.sym.length ∧
    ∀ x < t.node.length, ∃ below : Byte → Bool,
      (∀ b, below b = true ↔ LeafBelow t.node x b) ∧ freqAt t.node x = s.sym.countP below

/-- Rule R163 with rule R164: the tree depends on how often each byte occurs in `SYM`, not on the order of the bytes. -/
def Obligations.HtreeIgnoresTheOrderOfSymbols : Prop :=
  ∀ (s : State) (l : List Byte), s.sym ≠ [] → l.Perm s.sym →
    ∃ t, exec .htree s = .next t ∧ exec .htree { s with sym := l } = .next { t with sym := l }

/-- Rules R161, R162: on an empty `SYM`, `HTREE` ends as `EmptyInput` and the old tree and codes are gone. -/
def Obligations.HtreeOnEmptyInputFails : Prop :=
  ∀ s : State, s.sym = [] →
    exec .htree s = .next { s with
      freq := symbolTable fun _ => 0, node := [], nsym := 0, root := 0, pq := [], code := symbolTable fun _ => none,
      status := { s.status with state := .error, treeV := false, codeV := false, ever := true },
      err := .emptyInput, errInfo := 0#32 }

/-! ## HCODE -/

/-- Rules R191 to R195: with a valid tree, `HCODE` completes; the code of a symbol is the path from the root to its leaf,
`"0"` when the root is a leaf, no code for other symbols, and nothing else changes but `CODE_V`, `STATE` and `ERR`. -/
def Obligations.HcodeReadsOffThePaths : Prop :=
  ∀ s : State, CoreInv s → s.status.treeV = true →
    ∃ code, (∀ b c, entry code b = some c ↔ IsCodeOf s.node s.root b c) ∧
      (∀ b, (entry code b).isSome ↔ 0 < entry s.freq b) ∧
      exec .hcode s = .next { s with
        code := code, status := { s.status with state := .done, codeV := true }, err := .ok }

/-- Rules R194, R199: without a tree, `HCODE` ends as `SequenceError` with the command word in `ERR_INFO` and an empty
code table. -/
def Obligations.HcodeWithoutTreeFails : Prop :=
  ∀ s : State, s.status.treeV = false →
    exec .hcode s = .next { s with
      code := symbolTable fun _ => none,
      status := { s.status with state := .error, codeV := false, ever := true },
      err := .sequenceError, errInfo := 0x00000003#32 }

/-- Rules R196 to R198: no code is empty or longer than `max(1, NSYM - 1)`, and no code is a prefix of another symbol's
code (so no two are equal). -/
def Obligations.CodesArePrefixFree : Prop :=
  ∀ s : State, CoreInv s → s.status.codeV = true →
    (∀ b c, entry s.code b = some c → 1 ≤ c.length ∧ c.length ≤ max 1 (s.nsym - 1) ∧ c.length ≤ 255) ∧
    ∀ b b' c c', b ≠ b' → entry s.code b = some c → entry s.code b' = some c' → ¬ c <+: c'

/-- Rule R197: for `NSYM >= 2` the sum over all codes of `2^(-length)` is exactly 1 (here times `2^255`). -/
def Obligations.CodesFillTheTree : Prop :=
  ∀ s : State, CoreInv s → s.status.codeV = true → 2 ≤ s.nsym →
    (symbols.map fun b => codeWeight (entry s.code b)).sum = 2 ^ 255

/-! ## BPACK and BUNPACK -/

/-- Rules R211 to R214: `BPACK` always completes; `BYTES` has `(n + 7) div 8` bytes that hold the bits most significant
first with zero padding, `VBC` is the number of bits, and nothing else changes but `STATE` and `ERR`. -/
def Obligations.BpackPacksTheBits : Prop :=
  ∀ s : State, s.bits.length < 2 ^ 32 → ∃ bytes vbc,
    bytes.length = (s.bits.length + 7) / 8 ∧ vbc.toNat = s.bits.length ∧
    (∀ q r, q < bytes.length → r < 8 → (bytes.getD q 0#8).getLsbD (7 - r) = s.bits.getD (8 * q + r) false) ∧
    exec .bpack s = .next { s with
      bytes := bytes, vbc := vbc, status := { s.status with state := .done }, err := .ok }

/-- Rules R216, R217, R219: with `VBC <= 8 * BYTE_LEN`, `BUNPACK` completes; bit `p` of `BITS` is bit `7 - (p mod 8)` of
byte `p div 8`, `BIT_LEN` is `VBC`, and nothing else changes but `STATE` and `ERR`. -/
def Obligations.BunpackExpandsTheBytes : Prop :=
  ∀ s : State, s.vbc.toNat ≤ 8 * s.bytes.length → ∃ bits,
    bits.length = s.vbc.toNat ∧
    (∀ p < s.vbc.toNat, ∃ b, s.bytes[p / 8]? = some b ∧ bits[p]? = some (b.getLsbD (7 - p % 8))) ∧
    exec .bunpack s = .next { s with bits := bits, status := { s.status with state := .done }, err := .ok }

/-- Rules R217, R218: with `VBC > 8 * BYTE_LEN`, compared as natural numbers, `BUNPACK` ends as `Malformed` with `VBC` in
`ERR_INFO` and `BITS` empty. -/
def Obligations.BunpackOfTooFewBytesFails : Prop :=
  ∀ s : State, 8 * s.bytes.length < s.vbc.toNat →
    exec .bunpack s = .next { s with
      bits := [], status := { s.status with state := .error, ever := true }, err := .malformed, errInfo := s.vbc }

/-- Rule R221: `BPACK` and then `BUNPACK` gives the bit string back. -/
def Obligations.PackThenUnpackIsIdentity : Prop :=
  ∀ s : State, s.cfg.Valid → s.bits.length ≤ s.cfg.bitCap →
    ∃ t u, exec .bpack s = .next t ∧ exec .bunpack t = .next u ∧ u.bits = s.bits ∧ u.status.state = .done

/-- Rule R222: `BUNPACK` and then `BPACK` gives the first `ceil(VBC / 8)` bytes back with the padding bits forced to 0;
it is the identity on `BYTES` exactly when there were no other bytes and the padding was 0. -/
def Obligations.UnpackThenPackZeroesThePadding : Prop :=
  ∀ s : State, s.vbc.toNat ≤ 8 * s.bytes.length →
    ∃ t u, exec .bunpack s = .next t ∧ exec .bpack t = .next u ∧ u.vbc = s.vbc ∧
      u.bytes.length = (s.vbc.toNat + 7) / 8 ∧
      (∀ q r, q < u.bytes.length → r < 8 → (u.bytes.getD q 0#8).getLsbD (7 - r) =
        (decide (8 * q + r < s.vbc.toNat) && (s.bytes.getD q 0#8).getLsbD (7 - r))) ∧
      (u.bytes = s.bytes ↔ s.bytes.length = (s.vbc.toNat + 7) / 8 ∧
        ∀ q r, q < s.bytes.length → r < 8 → s.vbc.toNat ≤ 8 * q + r → (s.bytes.getD q 0#8).getLsbD (7 - r) = false)

/-! ## CLEAR and reset -/

/-- Rules R230, R321: `CLEAR` completes with the reset state and equals a hardware reset; the parameters and the host's
side of the bus (log entry 3) are no state it clears. -/
def Obligations.ClearGivesTheResetState : Prop :=
  ∀ s : State,
    exec .clear s = .next { State.resetWith s.cfg with pending := s.pending, replies := s.replies } ∧
    serve .reset s = exec .clear s

/-- Rules R21, R48: what every register reads after reset: the constants, and 0 everywhere else; the stores are empty. -/
def Obligations.ResetRegisterValues : Prop :=
  ∀ c : Config,
    readOffset (State.resetWith c) 0x00 = 0x44535131#32 ∧
    readOffset (State.resetWith c) 0x04 = BitVec.ofNat 32 c.w ∧
    readOffset (State.resetWith c) 0x08 = BitVec.ofNat 32 c.l ∧
    readOffset (State.resetWith c) 0x0C = BitVec.ofNat 32 c.inCap ∧
    readOffset (State.resetWith c) 0x10 = BitVec.ofNat 32 c.symCap ∧
    readOffset (State.resetWith c) 0x14 = BitVec.ofNat 32 c.byteCap ∧
    (∀ off, 0x18 ≤ off → readOffset (State.resetWith c) off = 0#32) ∧
    (State.resetWith c).inBuf = [] ∧ (State.resetWith c).sym = [] ∧ (State.resetWith c).pq = [] ∧
    (∀ b, entry (State.resetWith c).freq b = 0) ∧ (∀ b, entry (State.resetWith c).code b = none)

/-- Rules R7, R10, R70: the hardware's `W` and `L`, and the constraints its open parameters meet. -/
def Obligations.HardwareParametersAreLegal : Prop :=
  State.reset = State.resetWith Config.hardware ∧ Config.hardware.w = 4096 ∧ Config.hardware.l = 18 ∧
  Config.hardware.Valid

/-! ## Host accesses -/

/-- Rules R71, R72: the bus refuses every access of another width, at a misaligned offset or outside the block, and no
other. -/
def Obligations.BusRefusesExactlyTheUnsupported : Prop :=
  ∀ (s : State) (a : Access) (rest : List Access), s.pending = a :: rest →
    ((∃ r, step s = .refused r) ↔ ¬ a.Supported)

/-- Rules R294, R308: every supported access and every command has a defined next state, and the core waits when there
is no access. -/
def Obligations.EverySupportedStepCompletes : Prop :=
  ∀ s : State, (∀ a ∈ s.pending.head?, a.Supported) → ∃ t, step s = .next t

/-- Rules R74, R231: a read returns a value and changes no state of the core (the reply is on the host's side, log
entry 3). -/
def Obligations.ReadsChangeNoState : Prop :=
  ∀ (s : State) (off : Nat) (rest : List Access), off < 256 → off % 4 = 0 → s.pending = .read .word off :: rest →
    step s = .next { s with pending := rest, replies := s.replies ++ [readOffset s off] }

/-- Rules R73, R75: a read-only register and a reserved offset ignore a write; a write-only register and a reserved offset
read 0. -/
def Obligations.IgnoredWritesAndZeroReads : Prop :=
  (∀ (s : State) (r : Reg) (v : Word), r.rights = .readOnly → writeOffset r.offset v s = .next s) ∧
  (∀ (s : State) (r : Reg), r.rights = .writeOnly → readOffset s r.offset = 0#32) ∧
  (∀ (s : State) (off : Nat) (v : Word), off ∈ [0x2C, 0x48, 0x4C, 0x7C, 0x8C] ∨ (0xB4 ≤ off ∧ off ≤ 0xFC) →
    readOffset s off = 0#32 ∧ writeOffset off v s = .next s)

/-- Rule R233: a read-write register stores all 32 bits of a write, with no check and no other effect, and reads them
back. -/
def Obligations.StoredRegistersKeepTheWord : Prop :=
  ∀ (s : State) (v : Word),
    writeOffset 0x40 v s = .next { s with tokIdx := v } ∧ writeOffset 0x64 v s = .next { s with freqIdx := v } ∧
    writeOffset 0x6C v s = .next { s with nodeIdx := v } ∧ writeOffset 0x80 v s = .next { s with codeIdx := v } ∧
    writeOffset 0x98 v s = .next { s with bitIdx := v } ∧ writeOffset 0xA8 v s = .next { s with byteIdx := v } ∧
    writeOffset 0xB0 v s = .next { s with vbc := v } ∧
    ∀ off ∈ [0x40, 0x64, 0x6C, 0x80, 0x98, 0xA8, 0xB0], ∃ t, writeOffset off v s = .next t ∧ readOffset t off = v

/-- Rules R109, R110, R235: a push to a buffer that is not full appends the low byte or the low bit of the word. -/
def Obligations.PushAppendsOneElement : Prop :=
  ∀ (s : State) (v : Word),
    (s.inBuf.length < s.cfg.inCap →
      writeOffset 0x30 v s = .next { s with inBuf := s.inBuf ++ [BitVec.ofNat 8 (v.toNat % 256)] }) ∧
    (s.sym.length < s.cfg.symCap →
      writeOffset 0x50 v s = .next { s with sym := s.sym ++ [BitVec.ofNat 8 (v.toNat % 256)] }) ∧
    (s.bits.length < 8 * s.cfg.byteCap →
      writeOffset 0x90 v s = .next { s with bits := s.bits ++ [decide (v.toNat % 2 = 1)] }) ∧
    (s.bytes.length < s.cfg.byteCap →
      writeOffset 0xA0 v s = .next { s with bytes := s.bytes ++ [BitVec.ofNat 8 (v.toNat % 256)] })

/-- Rule R236: a push to a full buffer is dropped and sets `HERR`; nothing else changes. -/
def Obligations.PushToAFullBufferIsDropped : Prop :=
  ∀ (s : State) (v : Word),
    (s.cfg.inCap ≤ s.inBuf.length →
      writeOffset 0x30 v s = .next { s with status := { s.status with herr := true } }) ∧
    (s.cfg.symCap ≤ s.sym.length →
      writeOffset 0x50 v s = .next { s with status := { s.status with herr := true } }) ∧
    (8 * s.cfg.byteCap ≤ s.bits.length →
      writeOffset 0x90 v s = .next { s with status := { s.status with herr := true } }) ∧
    (s.cfg.byteCap ≤ s.bytes.length →
      writeOffset 0xA0 v s = .next { s with status := { s.status with herr := true } })

/-- Rule R237: `BUF_CLR` empties the buffers that bits 3:0 select and changes nothing else. -/
def Obligations.BufClrEmptiesTheSelectedBuffers : Prop :=
  ∀ (s : State) (v : Word), ∃ t, writeOffset 0x28 v s = .next t ∧
    t = { s with inBuf := t.inBuf, sym := t.sym, bits := t.bits, bytes := t.bytes } ∧
    t.inBuf = (if v.toNat.testBit 0 then [] else s.inBuf) ∧ t.sym = (if v.toNat.testBit 1 then [] else s.sym) ∧
    t.bits = (if v.toNat.testBit 2 then [] else s.bits) ∧ t.bytes = (if v.toNat.testBit 3 then [] else s.bytes)

/-- Rule R232: a data port whose index is out of range reads 0. -/
def Obligations.OutOfRangeIndexReadsZero : Prop :=
  ∀ s : State,
    (s.tok.length ≤ s.tokIdx.toNat → readOffset s 0x44 = 0#32) ∧
    (256 ≤ s.freqIdx.toNat → readOffset s 0x68 = 0#32) ∧
    (s.node.length ≤ s.nodeIdx.toNat →
      readOffset s 0x70 = 0#32 ∧ readOffset s 0x74 = 0#32 ∧ readOffset s 0x78 = 0#32) ∧
    (s.codeIdx.toNat / 2048 ≠ 0 ∨ entry s.code (BitVec.ofNat 8 s.codeIdx.toNat) = none →
      readOffset s 0x84 = 0#32 ∧ readOffset s 0x88 = 0#32) ∧
    (s.bits.length ≤ s.bitIdx.toNat → readOffset s 0x9C = 0#32) ∧
    (s.bytes.length ≤ s.byteIdx.toNat → readOffset s 0xAC = 0#32)

/-- Rule R104: the fields of a token word, and that a host decodes the token from it (rule R105). -/
def Obligations.TokenWordHoldsTheToken : Prop :=
  ∀ (s : State) (t : Token), s.tok[s.tokIdx.toNat]? = some t → t.offset ≤ 8191 → t.length ≤ 31 →
    (readOffset s 0x44).toNat = 0x80000000 +
      (match t.lit with
        | .sentinel => 2 ^ 26
        | .byte b => b.toNat * 2 ^ 18) + t.length * 2 ^ 13 + t.offset ∧
    Token.ofWord (readOffset s 0x44) = t

/-- Rule R106: the three words of a node record. -/
def Obligations.NodeWordsHoldTheNode : Prop :=
  ∀ s : State,
    (∀ b f, s.node[s.nodeIdx.toNat]? = some (.leaf b f) → f < 2 ^ 32 →
      (readOffset s 0x70).toNat = 0x80000000 + b.toNat ∧ (readOffset s 0x74).toNat = f ∧
      readOffset s 0x78 = 0#32) ∧
    ∀ f l r, s.node[s.nodeIdx.toNat]? = some (.internal f l r) → f < 2 ^ 32 → l < 512 → r < 512 →
      (readOffset s 0x70).toNat = 0x80000100 ∧ (readOffset s 0x74).toNat = f ∧
      (readOffset s 0x78).toNat = r * 2 ^ 16 + l

/-- Rules R39, R107: `CODE_LEN` and the eight words of `CODE_BITS` for a symbol that has a code. -/
def Obligations.CodeWordsHoldTheCode : Prop :=
  ∀ (s : State) (b : Byte) (w : Nat) (c : BitString),
    w < 8 → s.codeIdx.toNat = 256 * w + b.toNat → entry s.code b = some c → c.length < 512 →
    (readOffset s 0x84).toNat = 0x80000000 + c.length ∧
    ∀ r < 32, (readOffset s 0x88).getLsbD (31 - r) = c.getD (32 * w + r) false

/-- Rules R35, R40, R41: the counts, bits and bytes on their data ports. -/
def Obligations.FreqBitAndByteReadTheirElement : Prop :=
  ∀ s : State,
    (∀ b : Byte, s.freqIdx.toNat = b.toNat → entry s.freq b < 2 ^ 32 →
      (readOffset s 0x68).toNat = entry s.freq b) ∧
    (∀ b, s.bits[s.bitIdx.toNat]? = some b → (readOffset s 0x9C).toNat = b.toNat) ∧
    (∀ b, s.bytes[s.byteIdx.toNat]? = some b → (readOffset s 0xAC).toNat = b.toNat)

/-- Rules R26, R291: how `STATUS` and `ERR` read; `STATE` never reads 3, the reserved bits read 0. -/
def Obligations.StatusAndErrWords : Prop :=
  ∀ s : State,
    (readOffset s 0x1C).toNat =
      (match s.status.state with
        | .idle => 0
        | .done => 1
        | .error => 2) +
      4 * s.status.tokV.toNat + 8 * s.status.treeV.toNat + 16 * s.status.codeV.toNat +
      256 * s.status.herr.toNat + 512 * s.status.ever.toNat ∧
    (readOffset s 0x20).toNat =
      (match s.err with
        | .ok => 0
        | .emptyInput => 1
        | .malformed => 2
        | .illegalCommand => 3
        | .sequenceError => 4)

/-- Rules R23, R24, R231: at any time `ID` reads its constant, the parameter registers read the parameters, `ERR_INFO`, the
index registers and `VBC` read the word they hold; in every state that meets the invariants the length and count
registers, `LZ_POS`, `NSYM` and `ROOT` read the numbers they hold. -/
def Obligations.RegistersReadWhatTheyHold : Prop :=
  (∀ s : State,
    readOffset s 0x00 = 0x44535131#32 ∧
    readOffset s 0x04 = BitVec.ofNat 32 s.cfg.w ∧ readOffset s 0x08 = BitVec.ofNat 32 s.cfg.l ∧
    readOffset s 0x0C = BitVec.ofNat 32 s.cfg.inCap ∧ readOffset s 0x10 = BitVec.ofNat 32 s.cfg.symCap ∧
    readOffset s 0x14 = BitVec.ofNat 32 s.cfg.byteCap ∧ readOffset s 0x24 = s.errInfo ∧
    readOffset s 0x40 = s.tokIdx ∧ readOffset s 0x64 = s.freqIdx ∧ readOffset s 0x6C = s.nodeIdx ∧
    readOffset s 0x80 = s.codeIdx ∧ readOffset s 0x98 = s.bitIdx ∧ readOffset s 0xA8 = s.byteIdx ∧
    readOffset s 0xB0 = s.vbc) ∧
  ∀ s : State, CoreInv s →
    (readOffset s 0x04).toNat = s.cfg.w ∧ (readOffset s 0x08).toNat = s.cfg.l ∧
    (readOffset s 0x0C).toNat = s.cfg.inCap ∧ (readOffset s 0x10).toNat = s.cfg.symCap ∧
    (readOffset s 0x14).toNat = s.cfg.byteCap ∧
    (readOffset s 0x34).toNat = s.inBuf.length ∧ (readOffset s 0x38).toNat = s.lzPos ∧
    (readOffset s 0x3C).toNat = s.tok.length ∧ (readOffset s 0x54).toNat = s.sym.length ∧
    (readOffset s 0x58).toNat = s.nsym ∧ (readOffset s 0x5C).toNat = s.node.length ∧
    (readOffset s 0x60).toNat = s.root ∧ (readOffset s 0x94).toNat = s.bits.length ∧
    (readOffset s 0xA4).toNat = s.bytes.length

/-- Rule R70: the byte addresses of the block are `BASE` to `BASE + 255`, each at its offset. -/
def Obligations.BlockLiesAtBase : Prop :=
  ∀ (c : Config) (addr off : Nat), blockOffset c addr = some off ↔ off < 256 ∧ addr = c.base + off

/-! ## Rules over every step -/

/-- Rule R44 holds at reset. -/
def Obligations.InvariantsHoldAtReset : Prop := CoreInv State.reset

/-- Rule R44: every step keeps the invariants. -/
def Obligations.EveryStepKeepsTheInvariants : Prop :=
  ∀ s t : State, CoreInv s → step s = .next t → CoreInv t

/-- Rule R44: the invariants hold in every reachable state, whatever the open parameters are. -/
def Obligations.ReachableStatesMeetTheInvariants : Prop :=
  ∀ (c : Config) (s : State), c.Valid → Reachable c s → CoreInv s

/-- Rules R90, R104 to R107: in every state that meets the invariants every number the core holds is below `2^32`, and the
numbers shown in a field of a port word (a token's offset and length, a child's index, a code's length) fit the field. -/
def Obligations.EveryNumberFitsItsRegister : Prop :=
  ∀ s : State, CoreInv s →
    s.inBuf.length < 2 ^ 32 ∧ s.tok.length < 2 ^ 32 ∧ s.lzPos < 2 ^ 32 ∧ s.sym.length < 2 ^ 32 ∧ s.nsym ≤ 256 ∧
    s.node.length ≤ 511 ∧ s.root ≤ 510 ∧ s.bits.length < 2 ^ 31 ∧ s.bytes.length < 2 ^ 28 ∧
    (∀ b, entry s.freq b < 2 ^ 31) ∧ (∀ n ∈ s.node, n.freq < 2 ^ 31) ∧
    (∀ t ∈ s.tok, t.offset ≤ 8191 ∧ t.length ≤ 31) ∧ (∀ b c, entry s.code b = some c → c.length ≤ 255) ∧
    ∀ (k f l r : Nat), s.node[k]? = some (Node.internal f l r) → l < 512 ∧ r < 512

/-- Rule R24: the parameters are hardwired: no step changes them. -/
def Obligations.ParametersNeverChange : Prop :=
  ∀ s t : State, step s = .next t → t.cfg = s.cfg

/-- Rule R234: an index register changes only by a host write to it, `CLEAR` or reset. -/
def Obligations.IndexRegistersMoveOnlyByWrites : Prop :=
  ∀ s t : State, step s = .next t → ¬ NextWipes s →
    (t.tokIdx = s.tokIdx ∨ NextWrites s .tokIdx t.tokIdx) ∧ (t.freqIdx = s.freqIdx ∨ NextWrites s .freqIdx t.freqIdx) ∧
    (t.nodeIdx = s.nodeIdx ∨ NextWrites s .nodeIdx t.nodeIdx) ∧
    (t.codeIdx = s.codeIdx ∨ NextWrites s .codeIdx t.codeIdx) ∧
    (t.bitIdx = s.bitIdx ∨ NextWrites s .bitIdx t.bitIdx) ∧ (t.byteIdx = s.byteIdx ∨ NextWrites s .byteIdx t.byteIdx)

/-- Rules R45, R76: each of the eight stores, and `VBC`, changes only by its own writers. -/
def Obligations.StoresChangeOnlyByTheirWriters : Prop :=
  ∀ s t : State, step s = .next t → ¬ NextWipes s →
    (t.inBuf = s.inBuf ∨ ∃ v, NextWrites s .inPush v ∨ NextWrites s .bufClr v) ∧
    (t.tok = s.tok ∧ t.lzPos = s.lzPos ∨ NextRuns s .lzmatch) ∧
    (t.sym = s.sym ∨ ∃ v, NextWrites s .symPush v ∨ NextWrites s .bufClr v) ∧
    (t.freq = s.freq ∧ t.node = s.node ∧ t.nsym = s.nsym ∧ t.root = s.root ∨ NextRuns s .htree) ∧
    (t.code = s.code ∨ NextRuns s .hcode ∨ NextRuns s .htree) ∧
    (t.bits = s.bits ∨ NextRuns s .bunpack ∨ ∃ v, NextWrites s .bitPush v ∨ NextWrites s .bufClr v) ∧
    (t.bytes = s.bytes ∨ NextRuns s .bpack ∨ ∃ v, NextWrites s .bytePush v ∨ NextWrites s .bufClr v) ∧
    (t.vbc = s.vbc ∨ NextRuns s .bpack ∨ NextWrites s .vbc t.vbc)

/-- Rules R43, R302: who sets and clears each flag. -/
def Obligations.FlagsChangeAsTheTableSays : Prop :=
  ∀ s t : State, step s = .next t → ¬ NextWipes s →
    (t.status.tokV = s.status.tokV ∨ NextRuns s .lzmatch) ∧
    (t.status.treeV = s.status.treeV ∨ NextRuns s .htree) ∧
    (t.status.codeV = s.status.codeV ∨ NextRuns s .hcode ∨ NextRuns s .htree) ∧
    (s.status.herr = true → t.status.herr = true) ∧ (s.status.ever = true → t.status.ever = true) ∧
    (t.status.herr = s.status.herr ∨ ∃ v, NextWrites s .inPush v ∨ NextWrites s .symPush v ∨ NextWrites s .bitPush v ∨
      NextWrites s .bytePush v) ∧
    (t.status.ever = s.status.ever ∨ t.status.state = .error) ∧
    (t.status.state = s.status.state ∨ ∃ c, NextWrites s .cmd c)

/-- Rule R293: which command can end how. -/
def Obligations.CommandsEndAsListed : Prop :=
  ∀ (i : Instr) (s t : State), exec i s = .next t →
    (t.err = .ok ∧ (t.status.state = .done ∨ i = .clear ∧ t.status.state = .idle) ∨
      t.status.state = .error ∧ t.status.ever = true ∧
        (t.err = .emptyInput ∧ (i = .lzmatch ∨ i = .htree) ∨ t.err = .sequenceError ∧ i = .hcode ∨
          t.err = .malformed ∧ i = .bunpack))

/-- Rule R297: a command that ends in an error leaves its outputs empty and its valid flag 0, and changes nothing else but
`STATE`, `EVER`, `ERR` and `ERR_INFO`. -/
def Obligations.ErrorsLeaveNoPartialOutput : Prop :=
  ∀ (i : Instr) (s t : State), exec i s = .next t → t.err ≠ .ok →
    t.inBuf = s.inBuf ∧ t.sym = s.sym ∧ t.bytes = s.bytes ∧ t.vbc = s.vbc ∧
    t.tokIdx = s.tokIdx ∧ t.freqIdx = s.freqIdx ∧ t.nodeIdx = s.nodeIdx ∧ t.codeIdx = s.codeIdx ∧
    t.bitIdx = s.bitIdx ∧ t.byteIdx = s.byteIdx ∧ t.status.herr = s.status.herr ∧
    t.cfg = s.cfg ∧ t.pending = s.pending ∧ t.replies = s.replies ∧
    (if i = .lzmatch then t.tok = [] ∧ t.lzPos = 0 ∧ t.status.tokV = false
      else t.tok = s.tok ∧ t.lzPos = s.lzPos ∧ t.status.tokV = s.status.tokV) ∧
    (if i = .htree then (∀ b, entry t.freq b = 0) ∧ t.node = [] ∧ t.nsym = 0 ∧ t.root = 0 ∧ t.pq = [] ∧
        t.status.treeV = false
      else t.freq = s.freq ∧ t.node = s.node ∧ t.nsym = s.nsym ∧ t.root = s.root ∧ t.pq = s.pq ∧
        t.status.treeV = s.status.treeV) ∧
    (if i = .htree ∨ i = .hcode then (∀ b, entry t.code b = none) ∧ t.status.codeV = false
      else t.code = s.code ∧ t.status.codeV = s.status.codeV) ∧
    (if i = .bunpack then t.bits = [] else t.bits = s.bits)

/-! ## The software around the core -/

/-- Rule R257: the encoded length in bits is the sum over the symbols of `FREQ[s] * |CODE[s]|`, and the number of symbols
when one distinct byte has the code `"0"`. -/
def Obligations.EncodedLengthIsTheWeightedSum : Prop :=
  ∀ (freq : Vector Nat 256) (code : Vector (Option BitString) 256) (text : List Byte) (bs : BitString),
    (∀ b, entry freq b = text.count b) → encodeBytes (entry code) text = some bs →
    bs.length = encodedLength freq code ∧
    ((∃ b, (∀ x ∈ text, x = b) ∧ entry code b = some [false]) → bs.length = text.length)

/-- Rules R256 to R259 with R197: the tree rebuilt from the code table decodes what the table encodes. -/
def Obligations.RebuiltTreeDecodesTheEncoding : Prop :=
  ∀ s : State, CoreInv s → s.status.codeV = true →
    ∃ tree, rebuildTree (codeEntries s.code) = some tree ∧
      ∀ text bs, encodeBytes (entry s.code) text = some bs → decodeBits tree bs = some text

/-- Rules R251, R252, R254: the legacy token text under the policy `nul` reads back, but for the literals the format
cannot carry: `;` breaks the records and 0x00 is taken for the sentinel (rules R253, R254). -/
def Obligations.LegacyTokenTextReadsBack : Prop :=
  ∀ ts : List Token, (∀ t ∈ ts, t.lit ≠ .byte semicolon ∧ t.lit ≠ .byte 0#8) →
    parseTokens .nul (tokensText .nul ts) = some ts

/-- Rules R270 to R272: a container reads back, and its size. -/
def Obligations.ContainerReadsBack : Prop :=
  ∀ c : Container, c.validBitCount < 2 ^ 31 → c.codeTable.length < 2 ^ 31 → c.payload.length < 2 ^ 31 →
    (∀ e ∈ c.codeTable, e.2.length < 2 ^ 31) →
    parseContainer (containerBytes c) = some c ∧ (containerBytes c).length = containerSize c

/-- Rule R277: `decompress(compress(T)) = T`, on the hardware, for every token codec that is unambiguous and every order of
the code table, whenever `compress` succeeds (it fails only on an empty input or a buffer that is too small). -/
def Obligations.DecompressOfCompressIsTheInput : Prop :=
  ∀ (codec : TokenCodec) (order : List (Byte × BitString) → List (Byte × BitString)) (input container : List Byte)
    (s t : State),
    s.cfg.Valid → codec.Unambiguous → (∀ l, (order l).Perm l) →
    compress codec order input s = .ok (container, t) →
    ∃ u, decompress codec container t = .ok (input, u)

end
end

