-- ==== Sys2Proof/Laws/Config.lean ====
section
/-! SUPPORT. What the parameters of the hardware satisfy whatever the open ones are. -/

namespace Sys2Proof

/-- The hardware's configuration meets rules R7, R10 and R70 for every choice of the open parameters. -/
theorem Config.hardware_valid : Config.hardware.Valid := by
  have h1 := Config.inCapBelow.isLt
  have h2 := Config.symCapBelow.isLt
  have h3 := Config.byteCapBelow.isLt
  refine ⟨⟨by decide, by decide⟩, by decide, ⟨?_, ?_⟩, ⟨?_, ?_⟩, ⟨?_, ?_⟩, ?_⟩ <;>
    simp only [Config.hardware] <;> omega

/-- `BIT_CAP` is below `2^31` (rule R10). -/
theorem Config.Valid.bitCap_lt {c : Config} (h : c.Valid) : c.bitCap < 2147483648 := by
  have := h.2.2.2.2.1.2
  simp only [Config.bitCap]
  omega

theorem Config.wellFormed_iff (c : Config) : c.wellFormed = true ↔ c.Valid := by
  simp [Config.wellFormed]

end Sys2Proof
end

