-- ==== Sys2Proof/Laws/State.lean ====
section
/-! SUPPORT. One lemma per field per shared update of `State`, true by `rfl`, so that no later proof unfolds a record
update. -/

namespace Sys2Proof.Machine

variable (s : State)

/-! `endDone` -/

@[simp] theorem endDone_cfg : (endDone s).cfg = s.cfg := rfl
@[simp] theorem endDone_status : (endDone s).status = s.status.ended := rfl
@[simp] theorem endDone_err : (endDone s).err = .ok := rfl
@[simp] theorem endDone_errInfo : (endDone s).errInfo = s.errInfo := rfl
@[simp] theorem endDone_inBuf : (endDone s).inBuf = s.inBuf := rfl
@[simp] theorem endDone_lzPos : (endDone s).lzPos = s.lzPos := rfl
@[simp] theorem endDone_tok : (endDone s).tok = s.tok := rfl
@[simp] theorem endDone_tokIdx : (endDone s).tokIdx = s.tokIdx := rfl
@[simp] theorem endDone_sym : (endDone s).sym = s.sym := rfl
@[simp] theorem endDone_freq : (endDone s).freq = s.freq := rfl
@[simp] theorem endDone_freqIdx : (endDone s).freqIdx = s.freqIdx := rfl
@[simp] theorem endDone_node : (endDone s).node = s.node := rfl
@[simp] theorem endDone_nsym : (endDone s).nsym = s.nsym := rfl
@[simp] theorem endDone_root : (endDone s).root = s.root := rfl
@[simp] theorem endDone_nodeIdx : (endDone s).nodeIdx = s.nodeIdx := rfl
@[simp] theorem endDone_pq : (endDone s).pq = s.pq := rfl
@[simp] theorem endDone_code : (endDone s).code = s.code := rfl
@[simp] theorem endDone_codeIdx : (endDone s).codeIdx = s.codeIdx := rfl
@[simp] theorem endDone_bits : (endDone s).bits = s.bits := rfl
@[simp] theorem endDone_bitIdx : (endDone s).bitIdx = s.bitIdx := rfl
@[simp] theorem endDone_bytes : (endDone s).bytes = s.bytes := rfl
@[simp] theorem endDone_byteIdx : (endDone s).byteIdx = s.byteIdx := rfl
@[simp] theorem endDone_vbc : (endDone s).vbc = s.vbc := rfl
@[simp] theorem endDone_pending : (endDone s).pending = s.pending := rfl
@[simp] theorem endDone_replies : (endDone s).replies = s.replies := rfl

/-! `raise` -/

@[simp] theorem raise_cfg (e : ErrCode) (info : Word) : (raise e info s).cfg = s.cfg := rfl
@[simp] theorem raise_status (e : ErrCode) (info : Word) : (raise e info s).status = s.status.failed := rfl
@[simp] theorem raise_err (e : ErrCode) (info : Word) : (raise e info s).err = e := rfl
@[simp] theorem raise_errInfo (e : ErrCode) (info : Word) : (raise e info s).errInfo = info := rfl
@[simp] theorem raise_inBuf (e : ErrCode) (info : Word) : (raise e info s).inBuf = s.inBuf := rfl
@[simp] theorem raise_lzPos (e : ErrCode) (info : Word) : (raise e info s).lzPos = s.lzPos := rfl
@[simp] theorem raise_tok (e : ErrCode) (info : Word) : (raise e info s).tok = s.tok := rfl
@[simp] theorem raise_tokIdx (e : ErrCode) (info : Word) : (raise e info s).tokIdx = s.tokIdx := rfl
@[simp] theorem raise_sym (e : ErrCode) (info : Word) : (raise e info s).sym = s.sym := rfl
@[simp] theorem raise_freq (e : ErrCode) (info : Word) : (raise e info s).freq = s.freq := rfl
@[simp] theorem raise_freqIdx (e : ErrCode) (info : Word) : (raise e info s).freqIdx = s.freqIdx := rfl
@[simp] theorem raise_node (e : ErrCode) (info : Word) : (raise e info s).node = s.node := rfl
@[simp] theorem raise_nsym (e : ErrCode) (info : Word) : (raise e info s).nsym = s.nsym := rfl
@[simp] theorem raise_root (e : ErrCode) (info : Word) : (raise e info s).root = s.root := rfl
@[simp] theorem raise_nodeIdx (e : ErrCode) (info : Word) : (raise e info s).nodeIdx = s.nodeIdx := rfl
@[simp] theorem raise_pq (e : ErrCode) (info : Word) : (raise e info s).pq = s.pq := rfl
@[simp] theorem raise_code (e : ErrCode) (info : Word) : (raise e info s).code = s.code := rfl
@[simp] theorem raise_codeIdx (e : ErrCode) (info : Word) : (raise e info s).codeIdx = s.codeIdx := rfl
@[simp] theorem raise_bits (e : ErrCode) (info : Word) : (raise e info s).bits = s.bits := rfl
@[simp] theorem raise_bitIdx (e : ErrCode) (info : Word) : (raise e info s).bitIdx = s.bitIdx := rfl
@[simp] theorem raise_bytes (e : ErrCode) (info : Word) : (raise e info s).bytes = s.bytes := rfl
@[simp] theorem raise_byteIdx (e : ErrCode) (info : Word) : (raise e info s).byteIdx = s.byteIdx := rfl
@[simp] theorem raise_vbc (e : ErrCode) (info : Word) : (raise e info s).vbc = s.vbc := rfl
@[simp] theorem raise_pending (e : ErrCode) (info : Word) : (raise e info s).pending = s.pending := rfl
@[simp] theorem raise_replies (e : ErrCode) (info : Word) : (raise e info s).replies = s.replies := rfl

/-! `emptyTokens` -/

@[simp] theorem emptyTokens_cfg : (emptyTokens s).cfg = s.cfg := rfl
@[simp] theorem emptyTokens_status : (emptyTokens s).status = { s.status with tokV := false } := rfl
@[simp] theorem emptyTokens_err : (emptyTokens s).err = s.err := rfl
@[simp] theorem emptyTokens_errInfo : (emptyTokens s).errInfo = s.errInfo := rfl
@[simp] theorem emptyTokens_inBuf : (emptyTokens s).inBuf = s.inBuf := rfl
@[simp] theorem emptyTokens_lzPos : (emptyTokens s).lzPos = 0 := rfl
@[simp] theorem emptyTokens_tok : (emptyTokens s).tok = [] := rfl
@[simp] theorem emptyTokens_tokIdx : (emptyTokens s).tokIdx = s.tokIdx := rfl
@[simp] theorem emptyTokens_sym : (emptyTokens s).sym = s.sym := rfl
@[simp] theorem emptyTokens_freq : (emptyTokens s).freq = s.freq := rfl
@[simp] theorem emptyTokens_freqIdx : (emptyTokens s).freqIdx = s.freqIdx := rfl
@[simp] theorem emptyTokens_node : (emptyTokens s).node = s.node := rfl
@[simp] theorem emptyTokens_nsym : (emptyTokens s).nsym = s.nsym := rfl
@[simp] theorem emptyTokens_root : (emptyTokens s).root = s.root := rfl
@[simp] theorem emptyTokens_nodeIdx : (emptyTokens s).nodeIdx = s.nodeIdx := rfl
@[simp] theorem emptyTokens_pq : (emptyTokens s).pq = s.pq := rfl
@[simp] theorem emptyTokens_code : (emptyTokens s).code = s.code := rfl
@[simp] theorem emptyTokens_codeIdx : (emptyTokens s).codeIdx = s.codeIdx := rfl
@[simp] theorem emptyTokens_bits : (emptyTokens s).bits = s.bits := rfl
@[simp] theorem emptyTokens_bitIdx : (emptyTokens s).bitIdx = s.bitIdx := rfl
@[simp] theorem emptyTokens_bytes : (emptyTokens s).bytes = s.bytes := rfl
@[simp] theorem emptyTokens_byteIdx : (emptyTokens s).byteIdx = s.byteIdx := rfl
@[simp] theorem emptyTokens_vbc : (emptyTokens s).vbc = s.vbc := rfl
@[simp] theorem emptyTokens_pending : (emptyTokens s).pending = s.pending := rfl
@[simp] theorem emptyTokens_replies : (emptyTokens s).replies = s.replies := rfl

/-! `emptyCodes` -/

@[simp] theorem emptyCodes_cfg : (emptyCodes s).cfg = s.cfg := rfl
@[simp] theorem emptyCodes_status : (emptyCodes s).status = { s.status with codeV := false } := rfl
@[simp] theorem emptyCodes_err : (emptyCodes s).err = s.err := rfl
@[simp] theorem emptyCodes_errInfo : (emptyCodes s).errInfo = s.errInfo := rfl
@[simp] theorem emptyCodes_inBuf : (emptyCodes s).inBuf = s.inBuf := rfl
@[simp] theorem emptyCodes_lzPos : (emptyCodes s).lzPos = s.lzPos := rfl
@[simp] theorem emptyCodes_tok : (emptyCodes s).tok = s.tok := rfl
@[simp] theorem emptyCodes_tokIdx : (emptyCodes s).tokIdx = s.tokIdx := rfl
@[simp] theorem emptyCodes_sym : (emptyCodes s).sym = s.sym := rfl
@[simp] theorem emptyCodes_freq : (emptyCodes s).freq = s.freq := rfl
@[simp] theorem emptyCodes_freqIdx : (emptyCodes s).freqIdx = s.freqIdx := rfl
@[simp] theorem emptyCodes_node : (emptyCodes s).node = s.node := rfl
@[simp] theorem emptyCodes_nsym : (emptyCodes s).nsym = s.nsym := rfl
@[simp] theorem emptyCodes_root : (emptyCodes s).root = s.root := rfl
@[simp] theorem emptyCodes_nodeIdx : (emptyCodes s).nodeIdx = s.nodeIdx := rfl
@[simp] theorem emptyCodes_pq : (emptyCodes s).pq = s.pq := rfl
@[simp] theorem emptyCodes_code : (emptyCodes s).code = symbolTable fun _ => none := rfl
@[simp] theorem emptyCodes_codeIdx : (emptyCodes s).codeIdx = s.codeIdx := rfl
@[simp] theorem emptyCodes_bits : (emptyCodes s).bits = s.bits := rfl
@[simp] theorem emptyCodes_bitIdx : (emptyCodes s).bitIdx = s.bitIdx := rfl
@[simp] theorem emptyCodes_bytes : (emptyCodes s).bytes = s.bytes := rfl
@[simp] theorem emptyCodes_byteIdx : (emptyCodes s).byteIdx = s.byteIdx := rfl
@[simp] theorem emptyCodes_vbc : (emptyCodes s).vbc = s.vbc := rfl
@[simp] theorem emptyCodes_pending : (emptyCodes s).pending = s.pending := rfl
@[simp] theorem emptyCodes_replies : (emptyCodes s).replies = s.replies := rfl

/-! `emptyTree` -/

@[simp] theorem emptyTree_cfg : (emptyTree s).cfg = s.cfg := rfl
@[simp] theorem emptyTree_status : (emptyTree s).status = { s.status with treeV := false, codeV := false } := rfl
@[simp] theorem emptyTree_err : (emptyTree s).err = s.err := rfl
@[simp] theorem emptyTree_errInfo : (emptyTree s).errInfo = s.errInfo := rfl
@[simp] theorem emptyTree_inBuf : (emptyTree s).inBuf = s.inBuf := rfl
@[simp] theorem emptyTree_lzPos : (emptyTree s).lzPos = s.lzPos := rfl
@[simp] theorem emptyTree_tok : (emptyTree s).tok = s.tok := rfl
@[simp] theorem emptyTree_tokIdx : (emptyTree s).tokIdx = s.tokIdx := rfl
@[simp] theorem emptyTree_sym : (emptyTree s).sym = s.sym := rfl
@[simp] theorem emptyTree_freq : (emptyTree s).freq = symbolTable fun _ => 0 := rfl
@[simp] theorem emptyTree_freqIdx : (emptyTree s).freqIdx = s.freqIdx := rfl
@[simp] theorem emptyTree_node : (emptyTree s).node = [] := rfl
@[simp] theorem emptyTree_nsym : (emptyTree s).nsym = 0 := rfl
@[simp] theorem emptyTree_root : (emptyTree s).root = 0 := rfl
@[simp] theorem emptyTree_nodeIdx : (emptyTree s).nodeIdx = s.nodeIdx := rfl
@[simp] theorem emptyTree_pq : (emptyTree s).pq = [] := rfl
@[simp] theorem emptyTree_code : (emptyTree s).code = symbolTable fun _ => none := rfl
@[simp] theorem emptyTree_codeIdx : (emptyTree s).codeIdx = s.codeIdx := rfl
@[simp] theorem emptyTree_bits : (emptyTree s).bits = s.bits := rfl
@[simp] theorem emptyTree_bitIdx : (emptyTree s).bitIdx = s.bitIdx := rfl
@[simp] theorem emptyTree_bytes : (emptyTree s).bytes = s.bytes := rfl
@[simp] theorem emptyTree_byteIdx : (emptyTree s).byteIdx = s.byteIdx := rfl
@[simp] theorem emptyTree_vbc : (emptyTree s).vbc = s.vbc := rfl
@[simp] theorem emptyTree_pending : (emptyTree s).pending = s.pending := rfl
@[simp] theorem emptyTree_replies : (emptyTree s).replies = s.replies := rfl

/-! `emptyBits` -/

@[simp] theorem emptyBits_cfg : (emptyBits s).cfg = s.cfg := rfl
@[simp] theorem emptyBits_status : (emptyBits s).status = s.status := rfl
@[simp] theorem emptyBits_err : (emptyBits s).err = s.err := rfl
@[simp] theorem emptyBits_errInfo : (emptyBits s).errInfo = s.errInfo := rfl
@[simp] theorem emptyBits_inBuf : (emptyBits s).inBuf = s.inBuf := rfl
@[simp] theorem emptyBits_lzPos : (emptyBits s).lzPos = s.lzPos := rfl
@[simp] theorem emptyBits_tok : (emptyBits s).tok = s.tok := rfl
@[simp] theorem emptyBits_tokIdx : (emptyBits s).tokIdx = s.tokIdx := rfl
@[simp] theorem emptyBits_sym : (emptyBits s).sym = s.sym := rfl
@[simp] theorem emptyBits_freq : (emptyBits s).freq = s.freq := rfl
@[simp] theorem emptyBits_freqIdx : (emptyBits s).freqIdx = s.freqIdx := rfl
@[simp] theorem emptyBits_node : (emptyBits s).node = s.node := rfl
@[simp] theorem emptyBits_nsym : (emptyBits s).nsym = s.nsym := rfl
@[simp] theorem emptyBits_root : (emptyBits s).root = s.root := rfl
@[simp] theorem emptyBits_nodeIdx : (emptyBits s).nodeIdx = s.nodeIdx := rfl
@[simp] theorem emptyBits_pq : (emptyBits s).pq = s.pq := rfl
@[simp] theorem emptyBits_code : (emptyBits s).code = s.code := rfl
@[simp] theorem emptyBits_codeIdx : (emptyBits s).codeIdx = s.codeIdx := rfl
@[simp] theorem emptyBits_bits : (emptyBits s).bits = [] := rfl
@[simp] theorem emptyBits_bitIdx : (emptyBits s).bitIdx = s.bitIdx := rfl
@[simp] theorem emptyBits_bytes : (emptyBits s).bytes = s.bytes := rfl
@[simp] theorem emptyBits_byteIdx : (emptyBits s).byteIdx = s.byteIdx := rfl
@[simp] theorem emptyBits_vbc : (emptyBits s).vbc = s.vbc := rfl
@[simp] theorem emptyBits_pending : (emptyBits s).pending = s.pending := rfl
@[simp] theorem emptyBits_replies : (emptyBits s).replies = s.replies := rfl

/-! `dropPush` -/

@[simp] theorem dropPush_cfg : (dropPush s).cfg = s.cfg := rfl
@[simp] theorem dropPush_status : (dropPush s).status = s.status.dropped := rfl
@[simp] theorem dropPush_err : (dropPush s).err = s.err := rfl
@[simp] theorem dropPush_errInfo : (dropPush s).errInfo = s.errInfo := rfl
@[simp] theorem dropPush_inBuf : (dropPush s).inBuf = s.inBuf := rfl
@[simp] theorem dropPush_lzPos : (dropPush s).lzPos = s.lzPos := rfl
@[simp] theorem dropPush_tok : (dropPush s).tok = s.tok := rfl
@[simp] theorem dropPush_tokIdx : (dropPush s).tokIdx = s.tokIdx := rfl
@[simp] theorem dropPush_sym : (dropPush s).sym = s.sym := rfl
@[simp] theorem dropPush_freq : (dropPush s).freq = s.freq := rfl
@[simp] theorem dropPush_freqIdx : (dropPush s).freqIdx = s.freqIdx := rfl
@[simp] theorem dropPush_node : (dropPush s).node = s.node := rfl
@[simp] theorem dropPush_nsym : (dropPush s).nsym = s.nsym := rfl
@[simp] theorem dropPush_root : (dropPush s).root = s.root := rfl
@[simp] theorem dropPush_nodeIdx : (dropPush s).nodeIdx = s.nodeIdx := rfl
@[simp] theorem dropPush_pq : (dropPush s).pq = s.pq := rfl
@[simp] theorem dropPush_code : (dropPush s).code = s.code := rfl
@[simp] theorem dropPush_codeIdx : (dropPush s).codeIdx = s.codeIdx := rfl
@[simp] theorem dropPush_bits : (dropPush s).bits = s.bits := rfl
@[simp] theorem dropPush_bitIdx : (dropPush s).bitIdx = s.bitIdx := rfl
@[simp] theorem dropPush_bytes : (dropPush s).bytes = s.bytes := rfl
@[simp] theorem dropPush_byteIdx : (dropPush s).byteIdx = s.byteIdx := rfl
@[simp] theorem dropPush_vbc : (dropPush s).vbc = s.vbc := rfl
@[simp] theorem dropPush_pending : (dropPush s).pending = s.pending := rfl
@[simp] theorem dropPush_replies : (dropPush s).replies = s.replies := rfl

/-! `takeAccess` -/

@[simp] theorem takeAccess_cfg (rest : List Access) : (takeAccess rest s).cfg = s.cfg := rfl
@[simp] theorem takeAccess_status (rest : List Access) : (takeAccess rest s).status = s.status := rfl
@[simp] theorem takeAccess_err (rest : List Access) : (takeAccess rest s).err = s.err := rfl
@[simp] theorem takeAccess_errInfo (rest : List Access) : (takeAccess rest s).errInfo = s.errInfo := rfl
@[simp] theorem takeAccess_inBuf (rest : List Access) : (takeAccess rest s).inBuf = s.inBuf := rfl
@[simp] theorem takeAccess_lzPos (rest : List Access) : (takeAccess rest s).lzPos = s.lzPos := rfl
@[simp] theorem takeAccess_tok (rest : List Access) : (takeAccess rest s).tok = s.tok := rfl
@[simp] theorem takeAccess_tokIdx (rest : List Access) : (takeAccess rest s).tokIdx = s.tokIdx := rfl
@[simp] theorem takeAccess_sym (rest : List Access) : (takeAccess rest s).sym = s.sym := rfl
@[simp] theorem takeAccess_freq (rest : List Access) : (takeAccess rest s).freq = s.freq := rfl
@[simp] theorem takeAccess_freqIdx (rest : List Access) : (takeAccess rest s).freqIdx = s.freqIdx := rfl
@[simp] theorem takeAccess_node (rest : List Access) : (takeAccess rest s).node = s.node := rfl
@[simp] theorem takeAccess_nsym (rest : List Access) : (takeAccess rest s).nsym = s.nsym := rfl
@[simp] theorem takeAccess_root (rest : List Access) : (takeAccess rest s).root = s.root := rfl
@[simp] theorem takeAccess_nodeIdx (rest : List Access) : (takeAccess rest s).nodeIdx = s.nodeIdx := rfl
@[simp] theorem takeAccess_pq (rest : List Access) : (takeAccess rest s).pq = s.pq := rfl
@[simp] theorem takeAccess_code (rest : List Access) : (takeAccess rest s).code = s.code := rfl
@[simp] theorem takeAccess_codeIdx (rest : List Access) : (takeAccess rest s).codeIdx = s.codeIdx := rfl
@[simp] theorem takeAccess_bits (rest : List Access) : (takeAccess rest s).bits = s.bits := rfl
@[simp] theorem takeAccess_bitIdx (rest : List Access) : (takeAccess rest s).bitIdx = s.bitIdx := rfl
@[simp] theorem takeAccess_bytes (rest : List Access) : (takeAccess rest s).bytes = s.bytes := rfl
@[simp] theorem takeAccess_byteIdx (rest : List Access) : (takeAccess rest s).byteIdx = s.byteIdx := rfl
@[simp] theorem takeAccess_vbc (rest : List Access) : (takeAccess rest s).vbc = s.vbc := rfl
@[simp] theorem takeAccess_pending (rest : List Access) : (takeAccess rest s).pending = rest := rfl
@[simp] theorem takeAccess_replies (rest : List Access) : (takeAccess rest s).replies = s.replies := rfl

/-! `reply` -/

@[simp] theorem reply_cfg (v : Word) : (reply v s).cfg = s.cfg := rfl
@[simp] theorem reply_status (v : Word) : (reply v s).status = s.status := rfl
@[simp] theorem reply_err (v : Word) : (reply v s).err = s.err := rfl
@[simp] theorem reply_errInfo (v : Word) : (reply v s).errInfo = s.errInfo := rfl
@[simp] theorem reply_inBuf (v : Word) : (reply v s).inBuf = s.inBuf := rfl
@[simp] theorem reply_lzPos (v : Word) : (reply v s).lzPos = s.lzPos := rfl
@[simp] theorem reply_tok (v : Word) : (reply v s).tok = s.tok := rfl
@[simp] theorem reply_tokIdx (v : Word) : (reply v s).tokIdx = s.tokIdx := rfl
@[simp] theorem reply_sym (v : Word) : (reply v s).sym = s.sym := rfl
@[simp] theorem reply_freq (v : Word) : (reply v s).freq = s.freq := rfl
@[simp] theorem reply_freqIdx (v : Word) : (reply v s).freqIdx = s.freqIdx := rfl
@[simp] theorem reply_node (v : Word) : (reply v s).node = s.node := rfl
@[simp] theorem reply_nsym (v : Word) : (reply v s).nsym = s.nsym := rfl
@[simp] theorem reply_root (v : Word) : (reply v s).root = s.root := rfl
@[simp] theorem reply_nodeIdx (v : Word) : (reply v s).nodeIdx = s.nodeIdx := rfl
@[simp] theorem reply_pq (v : Word) : (reply v s).pq = s.pq := rfl
@[simp] theorem reply_code (v : Word) : (reply v s).code = s.code := rfl
@[simp] theorem reply_codeIdx (v : Word) : (reply v s).codeIdx = s.codeIdx := rfl
@[simp] theorem reply_bits (v : Word) : (reply v s).bits = s.bits := rfl
@[simp] theorem reply_bitIdx (v : Word) : (reply v s).bitIdx = s.bitIdx := rfl
@[simp] theorem reply_bytes (v : Word) : (reply v s).bytes = s.bytes := rfl
@[simp] theorem reply_byteIdx (v : Word) : (reply v s).byteIdx = s.byteIdx := rfl
@[simp] theorem reply_vbc (v : Word) : (reply v s).vbc = s.vbc := rfl
@[simp] theorem reply_pending (v : Word) : (reply v s).pending = s.pending := rfl
@[simp] theorem reply_replies (v : Word) : (reply v s).replies = s.replies ++ [v] := rfl

/-! `storeTokens` -/

@[simp] theorem storeTokens_cfg (r : List Token × Nat) : (storeTokens r s).cfg = s.cfg := rfl
@[simp] theorem storeTokens_status (r : List Token × Nat) : (storeTokens r s).status = { s.status with tokV := true } := rfl
@[simp] theorem storeTokens_err (r : List Token × Nat) : (storeTokens r s).err = s.err := rfl
@[simp] theorem storeTokens_errInfo (r : List Token × Nat) : (storeTokens r s).errInfo = s.errInfo := rfl
@[simp] theorem storeTokens_inBuf (r : List Token × Nat) : (storeTokens r s).inBuf = s.inBuf := rfl
@[simp] theorem storeTokens_lzPos (r : List Token × Nat) : (storeTokens r s).lzPos = r.2 := rfl
@[simp] theorem storeTokens_tok (r : List Token × Nat) : (storeTokens r s).tok = r.1 := rfl
@[simp] theorem storeTokens_tokIdx (r : List Token × Nat) : (storeTokens r s).tokIdx = s.tokIdx := rfl
@[simp] theorem storeTokens_sym (r : List Token × Nat) : (storeTokens r s).sym = s.sym := rfl
@[simp] theorem storeTokens_freq (r : List Token × Nat) : (storeTokens r s).freq = s.freq := rfl
@[simp] theorem storeTokens_freqIdx (r : List Token × Nat) : (storeTokens r s).freqIdx = s.freqIdx := rfl
@[simp] theorem storeTokens_node (r : List Token × Nat) : (storeTokens r s).node = s.node := rfl
@[simp] theorem storeTokens_nsym (r : List Token × Nat) : (storeTokens r s).nsym = s.nsym := rfl
@[simp] theorem storeTokens_root (r : List Token × Nat) : (storeTokens r s).root = s.root := rfl
@[simp] theorem storeTokens_nodeIdx (r : List Token × Nat) : (storeTokens r s).nodeIdx = s.nodeIdx := rfl
@[simp] theorem storeTokens_pq (r : List Token × Nat) : (storeTokens r s).pq = s.pq := rfl
@[simp] theorem storeTokens_code (r : List Token × Nat) : (storeTokens r s).code = s.code := rfl
@[simp] theorem storeTokens_codeIdx (r : List Token × Nat) : (storeTokens r s).codeIdx = s.codeIdx := rfl
@[simp] theorem storeTokens_bits (r : List Token × Nat) : (storeTokens r s).bits = s.bits := rfl
@[simp] theorem storeTokens_bitIdx (r : List Token × Nat) : (storeTokens r s).bitIdx = s.bitIdx := rfl
@[simp] theorem storeTokens_bytes (r : List Token × Nat) : (storeTokens r s).bytes = s.bytes := rfl
@[simp] theorem storeTokens_byteIdx (r : List Token × Nat) : (storeTokens r s).byteIdx = s.byteIdx := rfl
@[simp] theorem storeTokens_vbc (r : List Token × Nat) : (storeTokens r s).vbc = s.vbc := rfl
@[simp] theorem storeTokens_pending (r : List Token × Nat) : (storeTokens r s).pending = s.pending := rfl
@[simp] theorem storeTokens_replies (r : List Token × Nat) : (storeTokens r s).replies = s.replies := rfl

/-! `storeTree` -/

@[simp] theorem storeTree_cfg (f : Vector Nat 256) : (storeTree f s).cfg = s.cfg := rfl
@[simp] theorem storeTree_status (f : Vector Nat 256) : (storeTree f s).status = { s.status with treeV := true } := rfl
@[simp] theorem storeTree_err (f : Vector Nat 256) : (storeTree f s).err = s.err := rfl
@[simp] theorem storeTree_errInfo (f : Vector Nat 256) : (storeTree f s).errInfo = s.errInfo := rfl
@[simp] theorem storeTree_inBuf (f : Vector Nat 256) : (storeTree f s).inBuf = s.inBuf := rfl
@[simp] theorem storeTree_lzPos (f : Vector Nat 256) : (storeTree f s).lzPos = s.lzPos := rfl
@[simp] theorem storeTree_tok (f : Vector Nat 256) : (storeTree f s).tok = s.tok := rfl
@[simp] theorem storeTree_tokIdx (f : Vector Nat 256) : (storeTree f s).tokIdx = s.tokIdx := rfl
@[simp] theorem storeTree_sym (f : Vector Nat 256) : (storeTree f s).sym = s.sym := rfl
@[simp] theorem storeTree_freq (f : Vector Nat 256) : (storeTree f s).freq = f := rfl
@[simp] theorem storeTree_freqIdx (f : Vector Nat 256) : (storeTree f s).freqIdx = s.freqIdx := rfl
@[simp] theorem storeTree_node (f : Vector Nat 256) : (storeTree f s).node = (buildArena f).1 := rfl
@[simp] theorem storeTree_nsym (f : Vector Nat 256) : (storeTree f s).nsym = (leavesOf f).length := rfl
@[simp] theorem storeTree_root (f : Vector Nat 256) : (storeTree f s).root = rootOf (buildArena f) := rfl
@[simp] theorem storeTree_nodeIdx (f : Vector Nat 256) : (storeTree f s).nodeIdx = s.nodeIdx := rfl
@[simp] theorem storeTree_pq (f : Vector Nat 256) : (storeTree f s).pq = [] := rfl
@[simp] theorem storeTree_code (f : Vector Nat 256) : (storeTree f s).code = s.code := rfl
@[simp] theorem storeTree_codeIdx (f : Vector Nat 256) : (storeTree f s).codeIdx = s.codeIdx := rfl
@[simp] theorem storeTree_bits (f : Vector Nat 256) : (storeTree f s).bits = s.bits := rfl
@[simp] theorem storeTree_bitIdx (f : Vector Nat 256) : (storeTree f s).bitIdx = s.bitIdx := rfl
@[simp] theorem storeTree_bytes (f : Vector Nat 256) : (storeTree f s).bytes = s.bytes := rfl
@[simp] theorem storeTree_byteIdx (f : Vector Nat 256) : (storeTree f s).byteIdx = s.byteIdx := rfl
@[simp] theorem storeTree_vbc (f : Vector Nat 256) : (storeTree f s).vbc = s.vbc := rfl
@[simp] theorem storeTree_pending (f : Vector Nat 256) : (storeTree f s).pending = s.pending := rfl
@[simp] theorem storeTree_replies (f : Vector Nat 256) : (storeTree f s).replies = s.replies := rfl

/-! `storeCodes` -/

@[simp] theorem storeCodes_cfg (t : Vector (Option BitString) 256) : (storeCodes t s).cfg = s.cfg := rfl
@[simp] theorem storeCodes_status (t : Vector (Option BitString) 256) : (storeCodes t s).status = { s.status with codeV := true } := rfl
@[simp] theorem storeCodes_err (t : Vector (Option BitString) 256) : (storeCodes t s).err = s.err := rfl
@[simp] theorem storeCodes_errInfo (t : Vector (Option BitString) 256) : (storeCodes t s).errInfo = s.errInfo := rfl
@[simp] theorem storeCodes_inBuf (t : Vector (Option BitString) 256) : (storeCodes t s).inBuf = s.inBuf := rfl
@[simp] theorem storeCodes_lzPos (t : Vector (Option BitString) 256) : (storeCodes t s).lzPos = s.lzPos := rfl
@[simp] theorem storeCodes_tok (t : Vector (Option BitString) 256) : (storeCodes t s).tok = s.tok := rfl
@[simp] theorem storeCodes_tokIdx (t : Vector (Option BitString) 256) : (storeCodes t s).tokIdx = s.tokIdx := rfl
@[simp] theorem storeCodes_sym (t : Vector (Option BitString) 256) : (storeCodes t s).sym = s.sym := rfl
@[simp] theorem storeCodes_freq (t : Vector (Option BitString) 256) : (storeCodes t s).freq = s.freq := rfl
@[simp] theorem storeCodes_freqIdx (t : Vector (Option BitString) 256) : (storeCodes t s).freqIdx = s.freqIdx := rfl
@[simp] theorem storeCodes_node (t : Vector (Option BitString) 256) : (storeCodes t s).node = s.node := rfl
@[simp] theorem storeCodes_nsym (t : Vector (Option BitString) 256) : (storeCodes t s).nsym = s.nsym := rfl
@[simp] theorem storeCodes_root (t : Vector (Option BitString) 256) : (storeCodes t s).root = s.root := rfl
@[simp] theorem storeCodes_nodeIdx (t : Vector (Option BitString) 256) : (storeCodes t s).nodeIdx = s.nodeIdx := rfl
@[simp] theorem storeCodes_pq (t : Vector (Option BitString) 256) : (storeCodes t s).pq = s.pq := rfl
@[simp] theorem storeCodes_code (t : Vector (Option BitString) 256) : (storeCodes t s).code = t := rfl
@[simp] theorem storeCodes_codeIdx (t : Vector (Option BitString) 256) : (storeCodes t s).codeIdx = s.codeIdx := rfl
@[simp] theorem storeCodes_bits (t : Vector (Option BitString) 256) : (storeCodes t s).bits = s.bits := rfl
@[simp] theorem storeCodes_bitIdx (t : Vector (Option BitString) 256) : (storeCodes t s).bitIdx = s.bitIdx := rfl
@[simp] theorem storeCodes_bytes (t : Vector (Option BitString) 256) : (storeCodes t s).bytes = s.bytes := rfl
@[simp] theorem storeCodes_byteIdx (t : Vector (Option BitString) 256) : (storeCodes t s).byteIdx = s.byteIdx := rfl
@[simp] theorem storeCodes_vbc (t : Vector (Option BitString) 256) : (storeCodes t s).vbc = s.vbc := rfl
@[simp] theorem storeCodes_pending (t : Vector (Option BitString) 256) : (storeCodes t s).pending = s.pending := rfl
@[simp] theorem storeCodes_replies (t : Vector (Option BitString) 256) : (storeCodes t s).replies = s.replies := rfl

/-! `storePacked` -/

@[simp] theorem storePacked_cfg : (storePacked s).cfg = s.cfg := rfl
@[simp] theorem storePacked_status : (storePacked s).status = s.status := rfl
@[simp] theorem storePacked_err : (storePacked s).err = s.err := rfl
@[simp] theorem storePacked_errInfo : (storePacked s).errInfo = s.errInfo := rfl
@[simp] theorem storePacked_inBuf : (storePacked s).inBuf = s.inBuf := rfl
@[simp] theorem storePacked_lzPos : (storePacked s).lzPos = s.lzPos := rfl
@[simp] theorem storePacked_tok : (storePacked s).tok = s.tok := rfl
@[simp] theorem storePacked_tokIdx : (storePacked s).tokIdx = s.tokIdx := rfl
@[simp] theorem storePacked_sym : (storePacked s).sym = s.sym := rfl
@[simp] theorem storePacked_freq : (storePacked s).freq = s.freq := rfl
@[simp] theorem storePacked_freqIdx : (storePacked s).freqIdx = s.freqIdx := rfl
@[simp] theorem storePacked_node : (storePacked s).node = s.node := rfl
@[simp] theorem storePacked_nsym : (storePacked s).nsym = s.nsym := rfl
@[simp] theorem storePacked_root : (storePacked s).root = s.root := rfl
@[simp] theorem storePacked_nodeIdx : (storePacked s).nodeIdx = s.nodeIdx := rfl
@[simp] theorem storePacked_pq : (storePacked s).pq = s.pq := rfl
@[simp] theorem storePacked_code : (storePacked s).code = s.code := rfl
@[simp] theorem storePacked_codeIdx : (storePacked s).codeIdx = s.codeIdx := rfl
@[simp] theorem storePacked_bits : (storePacked s).bits = s.bits := rfl
@[simp] theorem storePacked_bitIdx : (storePacked s).bitIdx = s.bitIdx := rfl
@[simp] theorem storePacked_bytes : (storePacked s).bytes = packBits s.bits := rfl
@[simp] theorem storePacked_byteIdx : (storePacked s).byteIdx = s.byteIdx := rfl
@[simp] theorem storePacked_vbc : (storePacked s).vbc = asWord s.bits.length := rfl
@[simp] theorem storePacked_pending : (storePacked s).pending = s.pending := rfl
@[simp] theorem storePacked_replies : (storePacked s).replies = s.replies := rfl

/-! `storeUnpacked` -/

@[simp] theorem storeUnpacked_cfg : (storeUnpacked s).cfg = s.cfg := rfl
@[simp] theorem storeUnpacked_status : (storeUnpacked s).status = s.status := rfl
@[simp] theorem storeUnpacked_err : (storeUnpacked s).err = s.err := rfl
@[simp] theorem storeUnpacked_errInfo : (storeUnpacked s).errInfo = s.errInfo := rfl
@[simp] theorem storeUnpacked_inBuf : (storeUnpacked s).inBuf = s.inBuf := rfl
@[simp] theorem storeUnpacked_lzPos : (storeUnpacked s).lzPos = s.lzPos := rfl
@[simp] theorem storeUnpacked_tok : (storeUnpacked s).tok = s.tok := rfl
@[simp] theorem storeUnpacked_tokIdx : (storeUnpacked s).tokIdx = s.tokIdx := rfl
@[simp] theorem storeUnpacked_sym : (storeUnpacked s).sym = s.sym := rfl
@[simp] theorem storeUnpacked_freq : (storeUnpacked s).freq = s.freq := rfl
@[simp] theorem storeUnpacked_freqIdx : (storeUnpacked s).freqIdx = s.freqIdx := rfl
@[simp] theorem storeUnpacked_node : (storeUnpacked s).node = s.node := rfl
@[simp] theorem storeUnpacked_nsym : (storeUnpacked s).nsym = s.nsym := rfl
@[simp] theorem storeUnpacked_root : (storeUnpacked s).root = s.root := rfl
@[simp] theorem storeUnpacked_nodeIdx : (storeUnpacked s).nodeIdx = s.nodeIdx := rfl
@[simp] theorem storeUnpacked_pq : (storeUnpacked s).pq = s.pq := rfl
@[simp] theorem storeUnpacked_code : (storeUnpacked s).code = s.code := rfl
@[simp] theorem storeUnpacked_codeIdx : (storeUnpacked s).codeIdx = s.codeIdx := rfl
@[simp] theorem storeUnpacked_bits : (storeUnpacked s).bits = unpackBits s.bytes s.vbc.toNat := rfl
@[simp] theorem storeUnpacked_bitIdx : (storeUnpacked s).bitIdx = s.bitIdx := rfl
@[simp] theorem storeUnpacked_bytes : (storeUnpacked s).bytes = s.bytes := rfl
@[simp] theorem storeUnpacked_byteIdx : (storeUnpacked s).byteIdx = s.byteIdx := rfl
@[simp] theorem storeUnpacked_vbc : (storeUnpacked s).vbc = s.vbc := rfl
@[simp] theorem storeUnpacked_pending : (storeUnpacked s).pending = s.pending := rfl
@[simp] theorem storeUnpacked_replies : (storeUnpacked s).replies = s.replies := rfl

/-! `clearBuffers` -/

@[simp] theorem clearBuffers_cfg (v : Word) : (clearBuffers v s).cfg = s.cfg := rfl
@[simp] theorem clearBuffers_status (v : Word) : (clearBuffers v s).status = s.status := rfl
@[simp] theorem clearBuffers_err (v : Word) : (clearBuffers v s).err = s.err := rfl
@[simp] theorem clearBuffers_errInfo (v : Word) : (clearBuffers v s).errInfo = s.errInfo := rfl
@[simp] theorem clearBuffers_inBuf (v : Word) : (clearBuffers v s).inBuf = if v.getLsbD 0 then [] else s.inBuf := rfl
@[simp] theorem clearBuffers_lzPos (v : Word) : (clearBuffers v s).lzPos = s.lzPos := rfl
@[simp] theorem clearBuffers_tok (v : Word) : (clearBuffers v s).tok = s.tok := rfl
@[simp] theorem clearBuffers_tokIdx (v : Word) : (clearBuffers v s).tokIdx = s.tokIdx := rfl
@[simp] theorem clearBuffers_sym (v : Word) : (clearBuffers v s).sym = if v.getLsbD 1 then [] else s.sym := rfl
@[simp] theorem clearBuffers_freq (v : Word) : (clearBuffers v s).freq = s.freq := rfl
@[simp] theorem clearBuffers_freqIdx (v : Word) : (clearBuffers v s).freqIdx = s.freqIdx := rfl
@[simp] theorem clearBuffers_node (v : Word) : (clearBuffers v s).node = s.node := rfl
@[simp] theorem clearBuffers_nsym (v : Word) : (clearBuffers v s).nsym = s.nsym := rfl
@[simp] theorem clearBuffers_root (v : Word) : (clearBuffers v s).root = s.root := rfl
@[simp] theorem clearBuffers_nodeIdx (v : Word) : (clearBuffers v s).nodeIdx = s.nodeIdx := rfl
@[simp] theorem clearBuffers_pq (v : Word) : (clearBuffers v s).pq = s.pq := rfl
@[simp] theorem clearBuffers_code (v : Word) : (clearBuffers v s).code = s.code := rfl
@[simp] theorem clearBuffers_codeIdx (v : Word) : (clearBuffers v s).codeIdx = s.codeIdx := rfl
@[simp] theorem clearBuffers_bits (v : Word) : (clearBuffers v s).bits = if v.getLsbD 2 then [] else s.bits := rfl
@[simp] theorem clearBuffers_bitIdx (v : Word) : (clearBuffers v s).bitIdx = s.bitIdx := rfl
@[simp] theorem clearBuffers_bytes (v : Word) : (clearBuffers v s).bytes = if v.getLsbD 3 then [] else s.bytes := rfl
@[simp] theorem clearBuffers_byteIdx (v : Word) : (clearBuffers v s).byteIdx = s.byteIdx := rfl
@[simp] theorem clearBuffers_vbc (v : Word) : (clearBuffers v s).vbc = s.vbc := rfl
@[simp] theorem clearBuffers_pending (v : Word) : (clearBuffers v s).pending = s.pending := rfl
@[simp] theorem clearBuffers_replies (v : Word) : (clearBuffers v s).replies = s.replies := rfl

/-! `resetCore` -/

@[simp] theorem resetCore_cfg : (resetCore s).cfg = s.cfg := rfl
@[simp] theorem resetCore_pending : (resetCore s).pending = s.pending := rfl
@[simp] theorem resetCore_replies : (resetCore s).replies = s.replies := rfl
@[simp] theorem resetCore_status : (resetCore s).status = Status.reset := rfl
@[simp] theorem resetCore_err : (resetCore s).err = .ok := rfl
@[simp] theorem resetCore_errInfo : (resetCore s).errInfo = 0#32 := rfl
@[simp] theorem resetCore_inBuf : (resetCore s).inBuf = [] := rfl
@[simp] theorem resetCore_lzPos : (resetCore s).lzPos = 0 := rfl
@[simp] theorem resetCore_tok : (resetCore s).tok = [] := rfl
@[simp] theorem resetCore_tokIdx : (resetCore s).tokIdx = 0#32 := rfl
@[simp] theorem resetCore_sym : (resetCore s).sym = [] := rfl
@[simp] theorem resetCore_freq : (resetCore s).freq = symbolTable fun _ => 0 := rfl
@[simp] theorem resetCore_freqIdx : (resetCore s).freqIdx = 0#32 := rfl
@[simp] theorem resetCore_node : (resetCore s).node = [] := rfl
@[simp] theorem resetCore_nsym : (resetCore s).nsym = 0 := rfl
@[simp] theorem resetCore_root : (resetCore s).root = 0 := rfl
@[simp] theorem resetCore_nodeIdx : (resetCore s).nodeIdx = 0#32 := rfl
@[simp] theorem resetCore_pq : (resetCore s).pq = [] := rfl
@[simp] theorem resetCore_code : (resetCore s).code = symbolTable fun _ => none := rfl
@[simp] theorem resetCore_codeIdx : (resetCore s).codeIdx = 0#32 := rfl
@[simp] theorem resetCore_bits : (resetCore s).bits = [] := rfl
@[simp] theorem resetCore_bitIdx : (resetCore s).bitIdx = 0#32 := rfl
@[simp] theorem resetCore_bytes : (resetCore s).bytes = [] := rfl
@[simp] theorem resetCore_byteIdx : (resetCore s).byteIdx = 0#32 := rfl
@[simp] theorem resetCore_vbc : (resetCore s).vbc = 0#32 := rfl

/-! `State.resetWith` -/

variable (c : Config)

@[simp] theorem resetWith_cfg : (State.resetWith c).cfg = c := rfl
@[simp] theorem resetWith_pending : (State.resetWith c).pending = [] := rfl
@[simp] theorem resetWith_replies : (State.resetWith c).replies = [] := rfl
@[simp] theorem resetWith_status : (State.resetWith c).status = Status.reset := rfl
@[simp] theorem resetWith_err : (State.resetWith c).err = .ok := rfl
@[simp] theorem resetWith_errInfo : (State.resetWith c).errInfo = 0#32 := rfl
@[simp] theorem resetWith_inBuf : (State.resetWith c).inBuf = [] := rfl
@[simp] theorem resetWith_lzPos : (State.resetWith c).lzPos = 0 := rfl
@[simp] theorem resetWith_tok : (State.resetWith c).tok = [] := rfl
@[simp] theorem resetWith_tokIdx : (State.resetWith c).tokIdx = 0#32 := rfl
@[simp] theorem resetWith_sym : (State.resetWith c).sym = [] := rfl
@[simp] theorem resetWith_freq : (State.resetWith c).freq = symbolTable fun _ => 0 := rfl
@[simp] theorem resetWith_freqIdx : (State.resetWith c).freqIdx = 0#32 := rfl
@[simp] theorem resetWith_node : (State.resetWith c).node = [] := rfl
@[simp] theorem resetWith_nsym : (State.resetWith c).nsym = 0 := rfl
@[simp] theorem resetWith_root : (State.resetWith c).root = 0 := rfl
@[simp] theorem resetWith_nodeIdx : (State.resetWith c).nodeIdx = 0#32 := rfl
@[simp] theorem resetWith_pq : (State.resetWith c).pq = [] := rfl
@[simp] theorem resetWith_code : (State.resetWith c).code = symbolTable fun _ => none := rfl
@[simp] theorem resetWith_codeIdx : (State.resetWith c).codeIdx = 0#32 := rfl
@[simp] theorem resetWith_bits : (State.resetWith c).bits = [] := rfl
@[simp] theorem resetWith_bitIdx : (State.resetWith c).bitIdx = 0#32 := rfl
@[simp] theorem resetWith_bytes : (State.resetWith c).bytes = [] := rfl
@[simp] theorem resetWith_byteIdx : (State.resetWith c).byteIdx = 0#32 := rfl
@[simp] theorem resetWith_vbc : (State.resetWith c).vbc = 0#32 := rfl

/-! The status word's updates -/

variable (t : Status)

@[simp] theorem Status.ended_state : t.ended.state = .done := rfl
@[simp] theorem Status.ended_tokV : t.ended.tokV = t.tokV := rfl
@[simp] theorem Status.ended_treeV : t.ended.treeV = t.treeV := rfl
@[simp] theorem Status.ended_codeV : t.ended.codeV = t.codeV := rfl
@[simp] theorem Status.ended_herr : t.ended.herr = t.herr := rfl
@[simp] theorem Status.ended_ever : t.ended.ever = t.ever := rfl
@[simp] theorem Status.failed_state : t.failed.state = .error := rfl
@[simp] theorem Status.failed_tokV : t.failed.tokV = t.tokV := rfl
@[simp] theorem Status.failed_treeV : t.failed.treeV = t.treeV := rfl
@[simp] theorem Status.failed_codeV : t.failed.codeV = t.codeV := rfl
@[simp] theorem Status.failed_herr : t.failed.herr = t.herr := rfl
@[simp] theorem Status.failed_ever : t.failed.ever = true := rfl
@[simp] theorem Status.dropped_state : t.dropped.state = t.state := rfl
@[simp] theorem Status.dropped_tokV : t.dropped.tokV = t.tokV := rfl
@[simp] theorem Status.dropped_treeV : t.dropped.treeV = t.treeV := rfl
@[simp] theorem Status.dropped_codeV : t.dropped.codeV = t.codeV := rfl
@[simp] theorem Status.dropped_herr : t.dropped.herr = true := rfl
@[simp] theorem Status.dropped_ever : t.dropped.ever = t.ever := rfl

end Sys2Proof.Machine
end

