-- ==== Sys2Proof/Laws/Ops.lean ====
section
/-! SUPPORT. One spec lemma per shared operation: the tables by symbol, the push ports, `BUF_CLR`, the bus. -/

namespace Sys2Proof.Machine

/-! ### Tables by symbol -/

@[simp] theorem entry_symbolTable {α : Type} (f : Byte → α) (s : Byte) : entry (symbolTable f) s = f s := by
  simp [entry, symbolTable]

/-- Two tables with the same entries are the same table. -/
theorem table_ext {α : Type} {t u : Vector α 256} (h : ∀ b, entry t b = entry u b) : t = u := by
  apply Vector.ext
  intro i hi
  have := h (BitVec.ofNat 8 i)
  simpa [entry, Nat.mod_eq_of_lt hi] using this

theorem symbolTable_entry {α : Type} (t : Vector α 256) : (symbolTable fun b => entry t b) = t :=
  table_ext fun b => by simp

@[simp] theorem length_symbols : symbols.length = 256 := by simp [symbols]

theorem symbols_getElem (k : Nat) (hk : k < symbols.length) : symbols[k] = BitVec.ofNat 8 k := by simp [symbols]

@[simp] theorem mem_symbols (b : Byte) : b ∈ symbols := by
  simp only [symbols, List.mem_map, List.mem_range]
  exact ⟨b.toNat, b.isLt, by simp⟩

/-- The symbols are listed in strictly ascending order (rule R164). -/
theorem symbols_ascending : symbols.Pairwise (· < ·) := by
  simp only [symbols, List.pairwise_map]
  refine List.Pairwise.imp_of_mem ?_ (List.pairwise_lt_range (n := 256))
  intro a b ha hb hab
  simp only [List.mem_range] at ha hb
  rw [BitVec.lt_def]
  simp only [BitVec.toNat_ofNat]
  omega

theorem symbols_nodup : symbols.Nodup :=
  symbols_ascending.imp fun h => (by intro e; rw [e, BitVec.lt_def] at h; exact Nat.lt_irrefl _ h)

/-! ### Push ports: what a push can do (rules R235, R236) -/

theorem pushIn_cases (v : Word) (s : State) :
    (s.inBuf.length < s.cfg.inCap ∧ pushIn v s = { s with inBuf := s.inBuf ++ [pushedByte v] }) ∨
    (s.cfg.inCap ≤ s.inBuf.length ∧ pushIn v s = dropPush s) := by
  unfold pushIn
  split
  · exact .inl ⟨‹_›, rfl⟩
  · exact .inr ⟨by omega, rfl⟩

theorem pushSym_cases (v : Word) (s : State) :
    (s.sym.length < s.cfg.symCap ∧ pushSym v s = { s with sym := s.sym ++ [pushedByte v] }) ∨
    (s.cfg.symCap ≤ s.sym.length ∧ pushSym v s = dropPush s) := by
  unfold pushSym
  split
  · exact .inl ⟨‹_›, rfl⟩
  · exact .inr ⟨by omega, rfl⟩

theorem pushBit_cases (v : Word) (s : State) :
    (s.bits.length < s.cfg.bitCap ∧ pushBit v s = { s with bits := s.bits ++ [pushedBit v] }) ∨
    (s.cfg.bitCap ≤ s.bits.length ∧ pushBit v s = dropPush s) := by
  unfold pushBit
  split
  · exact .inl ⟨‹_›, rfl⟩
  · exact .inr ⟨by omega, rfl⟩

theorem pushByte_cases (v : Word) (s : State) :
    (s.bytes.length < s.cfg.byteCap ∧ pushByte v s = { s with bytes := s.bytes ++ [pushedByte v] }) ∨
    (s.cfg.byteCap ≤ s.bytes.length ∧ pushByte v s = dropPush s) := by
  unfold pushByte
  split
  · exact .inl ⟨‹_›, rfl⟩
  · exact .inr ⟨by omega, rfl⟩

/-- A buffer `BUF_CLR` may empty never grows by it. -/
theorem length_cleared_le {α : Type} (b : Bool) (l : List α) : (if b then [] else l).length ≤ l.length := by
  cases b <;> simp

/-! ### The bus (rules R71, R72) -/

/-- The bus accepts exactly the aligned 32-bit accesses inside the block. -/
theorem busRefusal_eq_none_iff (w : Width) (off : Nat) :
    busRefusal w off = none ↔ w = .word ∧ off < 256 ∧ off % 4 = 0 := by
  cases w <;> simp only [busRefusal, reduceCtorEq, false_and, true_and]
  by_cases h1 : 256 ≤ off
  · simp [h1]
  · by_cases h2 : off % 4 = 0 <;> simp [h1, h2]; omega

/-- Every offset of the register map is a supported offset (rules R21, R71). -/
theorem busRefusal_offset (r : Reg) : busRefusal .word r.offset = none := by cases r <;> rfl

/-- The register map gives every register its own offset (rule R21). -/
@[simp] theorem atOffset_offset (r : Reg) : Reg.atOffset r.offset = some r := by cases r <;> rfl

theorem offset_of_atOffset {off : Nat} {r : Reg} (h : Reg.atOffset off = some r) : r.offset = off := by
  simpa using List.find?_some h

theorem mem_regAll (r : Reg) : r ∈ Reg.all := by cases r <;> decide

end Sys2Proof.Machine
end

