-- ==== Sys2Proof/Laws/Operands.lean ====
section
/-! SUPPORT. The formats of the words on the ports: what each bit of a most-significant-first word is. -/

namespace Sys2Proof.Machine

theorem length_bitWindow (bs : BitString) (first count : Nat) : (bitWindow bs first count).length = count := by
  simp [bitWindow]

theorem bitWindow_getD (bs : BitString) (first count r : Nat) (h : r < count) :
    (bitWindow bs first count).getD r false = bs.getD (first + r) false := by
  simp [bitWindow, List.getD, List.getElem?_map, List.getElem?_range h]

/-- Appending a bit doubles the value and adds the bit. -/
theorem msbValue_append (bs : BitString) (b : Bool) : msbValue (bs ++ [b]) = 2 * msbValue bs + b.toNat := by
  simp [msbValue]

theorem msbValue_lt (bs : BitString) : msbValue bs < 2 ^ bs.length := by
  induction bs using List.reverseRecOn with
  | nil => simp [msbValue]
  | append_singleton bs b ih =>
    rw [msbValue_append, List.length_append, List.length_singleton, Nat.pow_succ]
    have : b.toNat ≤ 1 := Bool.toNat_le b
    omega

/-- Bit `n - 1 - r` of the value of `n` bits is bit `r` of the string (rules R107, R108). -/
theorem testBit_msbValue (bs : BitString) (r : Nat) (h : r < bs.length) :
    (msbValue bs).testBit (bs.length - 1 - r) = bs.getD r false := by
  induction bs using List.reverseRecOn generalizing r with
  | nil => simp at h
  | append_singleton bs b ih =>
    rw [msbValue_append]
    simp only [List.length_append, List.length_singleton, Nat.add_sub_cancel] at h ⊢
    by_cases hr : r = bs.length
    · subst hr
      simp only [Nat.sub_self, Nat.testBit_zero]
      cases b <;> simp [List.getD]
    · have hr' : r < bs.length := by omega
      have e : bs.length - r = (bs.length - 1 - r) + 1 := by omega
      rw [e, Nat.testBit_succ]
      have : (2 * msbValue bs + b.toNat) / 2 = msbValue bs := by
        have : b.toNat ≤ 1 := Bool.toNat_le b
        omega
      rw [this, ih r hr']
      simp [List.getD, List.getElem?_append, hr']

/-- Bit `7 - r` of byte `q` of the packing is bit `8 * q + r` of the string, 0 past its end (rules R108, R210). -/
theorem packedByte_getLsbD (bs : BitString) (q r : Nat) (h : r < 8) :
    (packedByte bs q).getLsbD (7 - r) = bs.getD (8 * q + r) false := by
  have hb := testBit_msbValue (bitWindow bs (8 * q) 8) r (by rw [length_bitWindow]; exact h)
  rw [length_bitWindow, bitWindow_getD _ _ _ _ h] at hb
  have h' : 7 - r < 8 := by omega
  rw [packedByte, BitVec.getLsbD_ofNat, decide_eq_true h', Bool.true_and]
  exact hb

/-- Bit `31 - r` of word `w` of a code is code bit `32 * w + r` (rule R107). -/
theorem codeBitsWord_getLsbD (c : BitString) (w r : Nat) (h : r < 32) :
    (codeBitsWord c w).getLsbD (31 - r) = c.getD (32 * w + r) false := by
  have hb := testBit_msbValue (bitWindow c (32 * w) 32) r (by rw [length_bitWindow]; exact h)
  rw [length_bitWindow, bitWindow_getD _ _ _ _ h] at hb
  have h' : 31 - r < 32 := by omega
  rw [codeBitsWord, BitVec.getLsbD_ofNat, decide_eq_true h', Bool.true_and]
  exact hb

/-! ### Pushed elements (rules R109, R110, R115) -/

theorem pushedByte_eq (v : Word) : pushedByte v = BitVec.ofNat 8 (v.toNat % 256) := by
  apply BitVec.eq_of_toNat_eq
  simp [pushedByte]

theorem pushedBit_eq (v : Word) : pushedBit v = decide (v.toNat % 2 = 1) := by
  simp [pushedBit, BitVec.getLsbD, Nat.testBit_zero]

theorem pushedByte_byteAsWord (b : Byte) : pushedByte (byteAsWord b) = b := by
  apply BitVec.eq_of_toNat_eq
  simp [pushedByte, byteAsWord]
  exact b.isLt

theorem pushedBit_asWord (b : Bool) : pushedBit (asWord b.toNat) = b := by cases b <;> rfl

/-! ### Token words (rules R104, R105) -/

/-- The token word as a number: `V`, `END`, `LITERAL`, `LENGTH`, `OFFSET` at their weights (rule R104). -/
theorem Token.asWord_toNat (t : Token) (h1 : t.offset ≤ 8191) (h2 : t.length ≤ 31) :
    t.asWord.toNat = 0x80000000 +
      (match t.lit with
        | .sentinel => 2 ^ 26
        | .byte b => b.toNat * 2 ^ 18) + t.length * 2 ^ 13 + t.offset := by
  rcases t with ⟨o, l, lit⟩
  simp only at h1 h2
  cases lit with
  | sentinel =>
    simp only [Token.asWord, Literal.fields, BitVec.toNat_append, BitVec.toNat_ofNat]
    rw [← Nat.shiftLeft_add_eq_or_of_lt (by omega), Nat.shiftLeft_eq, ← Nat.shiftLeft_add_eq_or_of_lt (by omega),
      Nat.shiftLeft_eq]
    simp
    omega
  | byte b =>
    have := b.isLt
    simp only [Token.asWord, Literal.fields, BitVec.toNat_append, BitVec.toNat_ofNat]
    rw [← Nat.shiftLeft_add_eq_or_of_lt (by omega), Nat.shiftLeft_eq, ← Nat.shiftLeft_add_eq_or_of_lt (by omega),
      Nat.shiftLeft_eq, ← Nat.shiftLeft_add_eq_or_of_lt (by omega), Nat.shiftLeft_eq]
    simp
    omega

/-- A host decodes the token from its word (rule R105). -/
theorem Token.ofWord_asWord (t : Token) (h1 : t.offset ≤ 8191) (h2 : t.length ≤ 31) : Token.ofWord t.asWord = t := by
  have h := t.asWord_toNat h1 h2
  rcases t with ⟨o, l, lit⟩
  simp only at h1 h2 h
  simp only [Token.ofWord, BitVec.extractLsb'_toNat, BitVec.getLsbD, Nat.shiftRight_eq_div_pow,
    Nat.testBit_eq_decide_div_mod_eq]
  cases lit with
  | sentinel =>
    simp only at h
    rw [h]
    simp
    omega
  | byte b =>
    have := b.isLt
    simp only at h
    rw [h]
    have e : BitVec.extractLsb' 18 8 ({ offset := o, length := l, lit := Literal.byte b } : Token).asWord = b := by
      apply BitVec.eq_of_toNat_eq
      rw [BitVec.extractLsb'_toNat, h, Nat.shiftRight_eq_div_pow]
      omega
    rw [e]
    simp
    omega

/-! ### The code registers (rule R107) -/

/-- The fields of a `CODE_IDX` value as numbers (rule R107). -/
theorem codeIdx_fields {v : Word} {b : Byte} {w : Nat} (hw : w < 8) (hv : v.toNat = 256 * w + b.toNat) :
    codeIdxSymbol v = b ∧ codeIdxWord v = w ∧ codeIdxZero v = 0#21 := by
  have hb := b.isLt
  refine ⟨?_, ?_, ?_⟩
  · apply BitVec.eq_of_toNat_eq
    simp only [codeIdxSymbol, BitVec.extractLsb'_toNat, hv]
    omega
  · simp only [codeIdxWord, BitVec.extractLsb'_toNat, hv, Nat.shiftRight_eq_div_pow]
    omega
  · apply BitVec.eq_of_toNat_eq
    simp only [codeIdxZero, BitVec.extractLsb'_toNat, hv, Nat.shiftRight_eq_div_pow, BitVec.toNat_ofNat]
    omega

theorem codeLenWord_toNat (c : BitString) (h : c.length < 512) : (codeLenWord c).toNat = 0x80000000 + c.length := by
  simp only [codeLenWord, BitVec.toNat_append, BitVec.toNat_ofNat]
  rw [← Nat.shiftLeft_add_eq_or_of_lt (by omega), Nat.shiftLeft_eq]
  simp
  omega

end Sys2Proof.Machine
end

