-- ==== Sys2Proof/Laws/BitPacker.lean ====
section
/-! SUPPORT. The bit packer and unpacker: lengths and bits of their results (rules R211, R212, R216). -/

namespace Sys2Proof.Machine

@[simp] theorem length_packBits (bs : BitString) : (packBits bs).length = (bs.length + 7) / 8 := by simp [packBits]

@[simp] theorem length_unpackBits (bytes : List Byte) (n : Nat) : (unpackBits bytes n).length = n := by
  simp [unpackBits]

/-- Bit `p` of the expansion of the packing of a bit string is its bit `p`, 0 in the padding (rules R210, R212, R216). -/
theorem expandedBit_packBits (bs : BitString) (p : Nat) (h : p < 8 * (packBits bs).length) :
    expandedBit (packBits bs) p = bs.getD p false := by
  have hq : p / 8 < (bs.length + 7) / 8 := by simp only [length_packBits] at h; omega
  have hb : (packBits bs).getD (p / 8) 0#8 = packedByte bs (p / 8) := by
    simp [packBits, List.getD, List.getElem?_range hq]
  rw [expandedBit, hb, packedByte_getLsbD _ _ _ (by omega)]
  congr 1
  omega

theorem unpackBits_getElem? (bytes : List Byte) (n p : Nat) (h : p < n) :
    (unpackBits bytes n)[p]? = some (expandedBit bytes p) := by
  simp [unpackBits, List.getElem?_range h]

/-- Unpacking as many bits as were packed gives the bit string back (rule R221). -/
theorem unpackBits_packBits (bs : BitString) : unpackBits (packBits bs) bs.length = bs := by
  apply List.ext_getElem?
  intro p
  by_cases h : p < bs.length
  · rw [unpackBits_getElem? _ _ _ h, expandedBit_packBits _ _ (by simp only [length_packBits]; omega)]
    simp [List.getD, h]
  · simp [unpackBits, Nat.le_of_not_lt h]

/-- A byte is the packing of its own eight bits (rule R108). -/
theorem byte_eq_of_bits {a b : Byte} (h : ∀ r < 8, a.getLsbD (7 - r) = b.getLsbD (7 - r)) : a = b := by
  apply BitVec.eq_of_getLsbD_eq
  intro i hi
  have := h (7 - i) (by omega)
  rwa [show 7 - (7 - i) = i by omega] at this

end Sys2Proof.Machine
end

