-- ==== Sys2Proof/Laws/Bus.lean ====
section
/-! SUPPORT. What a command, a register write, an access and a step can do: one inversion lemma each. -/

namespace Sys2Proof.Machine

/-! ### Commands -/

theorem execLzmatch_cases {s t : State} (h : exec .lzmatch s = .next t) :
    (s.inBuf = [] ∧ t = raise .emptyInput 0#32 (emptyTokens s)) ∨
    (s.inBuf ≠ [] ∧ t = endDone (storeTokens (lzTokens s.inBuf s.cfg.w s.cfg.l) (emptyTokens s))) := by
  simp only [exec, execLzmatch, List.length_eq_zero_iff] at h
  split at h
  · exact .inl ⟨‹_›, by simpa using h.symm⟩
  · exact .inr ⟨‹_›, by simpa using h.symm⟩

theorem execHtree_cases {s t : State} (h : exec .htree s = .next t) :
    (s.sym = [] ∧ t = raise .emptyInput 0#32 (emptyTree s)) ∨
    (s.sym ≠ [] ∧ t = endDone (storeTree (countSymbols s.sym) (emptyTree s))) := by
  simp only [exec, execHtree, List.length_eq_zero_iff] at h
  split at h
  · exact .inl ⟨‹_›, by simpa using h.symm⟩
  · exact .inr ⟨‹_›, by simpa using h.symm⟩

theorem execHcode_cases {s t : State} (h : exec .hcode s = .next t) :
    (s.status.treeV = false ∧ t = raise .sequenceError 3#32 (emptyCodes s)) ∨
    (s.status.treeV = true ∧ t = endDone (storeCodes (codeTable (emittedCodes s.node s.root)) (emptyCodes s))) := by
  simp only [exec, execHcode] at h
  split at h
  · exact .inr ⟨‹_›, by simpa using h.symm⟩
  · rename_i hv
    exact .inl ⟨by simpa using hv, by simpa using h.symm⟩

theorem execBpack_next {s t : State} (h : exec .bpack s = .next t) : t = endDone (storePacked s) := by
  simpa [exec, execBpack] using h.symm

theorem execBunpack_cases {s t : State} (h : exec .bunpack s = .next t) :
    (8 * s.bytes.length < s.vbc.toNat ∧ t = raise .malformed s.vbc (emptyBits s)) ∨
    (s.vbc.toNat ≤ 8 * s.bytes.length ∧ t = endDone (storeUnpacked (emptyBits s))) := by
  simp only [exec, execBunpack] at h
  split at h
  · exact .inl ⟨‹_›, by simpa using h.symm⟩
  · exact .inr ⟨by omega, by simpa using h.symm⟩

theorem execClear_next {s t : State} (h : exec .clear s = .next t) : t = resetCore s := by
  simpa [exec, execClear] using h.symm

/-! ### Register writes (rule R233) -/

/-- What a write of `v` to a register can do to the state `s`. -/
inductive WriteEffect (v : Word) (s : State) : Reg → State → Prop where
  | command (i : Instr) (t : State) : decode v = .ok i → exec i s = .next t → WriteEffect v s .cmd t
  | illegal (e : IllegalWord) : decode v = .error e → WriteEffect v s .cmd (raise .illegalCommand v s)
  | bufClr : WriteEffect v s .bufClr (clearBuffers v s)
  | inPush : WriteEffect v s .inPush (pushIn v s)
  | symPush : WriteEffect v s .symPush (pushSym v s)
  | bitPush : WriteEffect v s .bitPush (pushBit v s)
  | bytePush : WriteEffect v s .bytePush (pushByte v s)
  | tokIdx : WriteEffect v s .tokIdx { s with tokIdx := v }
  | freqIdx : WriteEffect v s .freqIdx { s with freqIdx := v }
  | nodeIdx : WriteEffect v s .nodeIdx { s with nodeIdx := v }
  | codeIdx : WriteEffect v s .codeIdx { s with codeIdx := v }
  | bitIdx : WriteEffect v s .bitIdx { s with bitIdx := v }
  | byteIdx : WriteEffect v s .byteIdx { s with byteIdx := v }
  | vbc : WriteEffect v s .vbc { s with vbc := v }
  | ignored (r : Reg) : r.rights = .readOnly → WriteEffect v s r s

theorem writeReg_effect {r : Reg} {v : Word} {s t : State} (h : writeReg r v s = .next t) : WriteEffect v s r t := by
  cases r
  case cmd =>
    simp only [writeReg, runCommand] at h
    split at h
    · exact .command _ _ ‹_› h
    · rename_i e he
      simp only [Host.Outcome.next.injEq] at h
      subst h
      exact .illegal e he
  all_goals
    simp only [writeReg, Host.Outcome.next.injEq] at h
    subst h
    first
      | exact .ignored _ rfl
      | constructor

/-- A write at a supported offset writes the register there, or nothing at a reserved offset (rules R75, R233). -/
theorem writeOffset_effect {off : Nat} {v : Word} {s t : State} (h : writeOffset off v s = .next t) :
    (∃ r, r.offset = off ∧ WriteEffect v s r t) ∨ (Reg.atOffset off = none ∧ t = s) := by
  simp only [writeOffset] at h
  split at h
  · exact .inl ⟨_, offset_of_atOffset ‹_›, writeReg_effect h⟩
  · exact .inr ⟨‹_›, by simpa using h.symm⟩

/-! ### Accesses and steps (rule R80) -/

theorem step_def (s : State) : step s = serveNext s := rfl

/-- What a step that answers a next state can do. -/
theorem step_cases {s t : State} (h : step s = .next t) :
    (s.pending = [] ∧ t = s) ∨
    (∃ rest, s.pending = .reset :: rest ∧ t = resetCore (takeAccess rest s)) ∨
    (∃ off rest, s.pending = .read .word off :: rest ∧ off < 256 ∧ off % 4 = 0 ∧
      t = reply (readOffset (takeAccess rest s) off) (takeAccess rest s)) ∨
    (∃ off v rest, s.pending = .write .word off v :: rest ∧ off < 256 ∧ off % 4 = 0 ∧
      writeOffset off v (takeAccess rest s) = .next t) := by
  simp only [step, serveNext] at h
  split at h
  · exact .inl ⟨‹_›, by simpa using h.symm⟩
  · rename_i a rest hp
    cases a with
    | reset => exact .inr (.inl ⟨rest, hp, by simpa [serve] using h.symm⟩)
    | read w off =>
      simp only [serve] at h
      split at h
      · simp at h
      · obtain ⟨rfl, h1, h2⟩ := (busRefusal_eq_none_iff w off).1 ‹_›
        exact .inr (.inr (.inl ⟨off, rest, hp, h1, h2, by simpa using h.symm⟩))
    | write w off v =>
      simp only [serve] at h
      split at h
      · simp at h
      · obtain ⟨rfl, h1, h2⟩ := (busRefusal_eq_none_iff w off).1 ‹_›
        exact .inr (.inr (.inr ⟨off, v, rest, hp, h1, h2, h⟩))

/-! ### Every command, write and supported access completes (rules R294, R308) -/

theorem exec_next (i : Instr) (s : State) : ∃ t, exec i s = .next t := by
  cases i <;> simp only [exec, execLzmatch, execHtree, execHcode, execBpack, execBunpack, execClear] <;>
    first | exact ⟨_, rfl⟩ | (split <;> exact ⟨_, rfl⟩)

theorem writeReg_next (r : Reg) (v : Word) (s : State) : ∃ t, writeReg r v s = .next t := by
  cases r
  case cmd =>
    simp only [writeReg, runCommand]
    split
    · exact exec_next _ _
    · exact ⟨_, rfl⟩
  all_goals exact ⟨_, rfl⟩

theorem writeOffset_next (off : Nat) (v : Word) (s : State) : ∃ t, writeOffset off v s = .next t := by
  unfold writeOffset
  split
  · exact writeReg_next _ _ _
  · exact ⟨_, rfl⟩

/-- A write to a register of the map (rule R233). -/
theorem writeOffset_offset (r : Reg) (v : Word) (s : State) : writeOffset r.offset v s = writeReg r v s := by
  simp only [writeOffset, atOffset_offset]

/-- A read of a register of the map (rule R231). -/
theorem readOffset_offset (r : Reg) (s : State) : readOffset s r.offset = readReg s r := by
  simp only [readOffset, atOffset_offset]

/-! ### A step that wipes nothing -/

/-- A step that is no reset and no `CLEAR` moves only the host's side, or writes one register. -/
theorem step_write_cases {s t : State} (h : step s = .next t) (hw : ¬ NextWipes s) :
    t = { s with pending := t.pending, replies := t.replies } ∨
    ∃ rest r v, NextWrites s r v ∧ WriteEffect v (takeAccess rest s) r t ∧ (r = .cmd → v ≠ encode .clear) := by
  obtain ⟨-, rfl⟩ | ⟨rest, hp, rfl⟩ | ⟨off, rest, -, -, -, rfl⟩ | ⟨off, v, rest, hp, -, -, hw'⟩ := step_cases h
  · exact .inl rfl
  · exact (hw (.inl (by simp [NextIs, hp]))).elim
  · exact .inl rfl
  · obtain ⟨r, rfl, he⟩ | ⟨-, rfl⟩ := writeOffset_effect hw'
    · refine .inr ⟨rest, r, v, by simp [NextWrites, NextIs, hp], he, ?_⟩
      rintro rfl rfl
      exact hw (.inr (by simp [NextRuns, NextWrites, NextIs, hp]))
    · exact .inl rfl

end Sys2Proof.Machine
end

