-- ==== Sys2Proof/Laws/TreeBuilder.lean ====
section
/-! SUPPORT. The tree builder: the priority queue, one merge, the whole merging, the leaves (rules R163 to R169). -/

namespace Sys2Proof.Machine

variable {nodes : List Node}

/-! ### The priority queue (rules R165 to R167) -/

theorem comesBefore_iff {x y : Nat} : comesBefore nodes x y = true ↔ Before nodes x y := by
  simp [comesBefore, Before]

theorem Before.trans {x y z : Nat} (h1 : Before nodes x y) (h2 : Before nodes y z) : Before nodes x z := by
  unfold Before at *
  omega

theorem before_of_not {x y : Nat} (h : ¬ Before nodes y x) : y = x ∨ Before nodes x y := by
  unfold Before at *
  omega

theorem Before.irrefl {x : Nat} : ¬ Before nodes x x := by
  unfold Before
  omega

theorem pqMin_spec (m : Nat) (pq : List Nat) :
    pqMin nodes m pq ∈ m :: pq ∧ ∀ y ∈ m :: pq, y = pqMin nodes m pq ∨ Before nodes (pqMin nodes m pq) y := by
  induction pq generalizing m with
  | nil => simp [pqMin]
  | cons a pq ih =>
    have e : pqMin nodes m (a :: pq) = pqMin nodes (if comesBefore nodes a m then a else m) pq := rfl
    rw [e]
    by_cases hc : Before nodes a m
    · rw [if_pos (comesBefore_iff.2 hc)]
      obtain ⟨h1, h2⟩ := ih a
      refine ⟨List.mem_cons_of_mem _ h1, fun y hy => ?_⟩
      rcases List.mem_cons.1 hy with rfl | hy
      · rcases h2 a (by simp) with h | h
        · exact .inr (h ▸ hc)
        · exact .inr (h.trans hc)
      · exact h2 y hy
    · rw [if_neg (fun h => hc (comesBefore_iff.1 h))]
      obtain ⟨h1, h2⟩ := ih m
      refine ⟨?_, fun y hy => ?_⟩
      · rcases List.mem_cons.1 h1 with h | h
        · rw [h]; simp
        · exact List.mem_cons_of_mem _ (List.mem_cons_of_mem _ h)
      · rcases List.mem_cons.1 hy with rfl | hy
        · exact h2 y (by simp)
        · rcases List.mem_cons.1 hy with rfl | hy
          · rcases before_of_not hc with rfl | hb
            · exact h2 y (by simp)
            · rcases h2 m (by simp) with h | h
              · exact .inr (h ▸ hb)
              · exact .inr (h.trans hb)
          · exact h2 y (List.mem_cons_of_mem _ hy)

/-- What extracting from the queue can do (rule R167). -/
theorem pqExtractMin_spec {pq rest : List Nat} {m : Nat} (h : pqExtractMin nodes pq = some (m, rest)) :
    m ∈ pq ∧ rest = pq.erase m ∧ ∀ y ∈ pq, y = m ∨ Before nodes m y := by
  cases pq with
  | nil => simp [pqExtractMin] at h
  | cons x xs =>
    simp only [pqExtractMin, Option.some.injEq, Prod.mk.injEq] at h
    obtain ⟨rfl, rfl⟩ := h
    exact ⟨(pqMin_spec x xs).1, rfl, (pqMin_spec x xs).2⟩

theorem pqExtractMin_eq_none {pq : List Nat} : pqExtractMin nodes pq = none ↔ pq = [] := by
  cases pq <;> simp [pqExtractMin]

/-! ### Appending a node changes no older node -/

theorem getElem?_snoc_lt {n : Node} {x : Nat} (h : x < nodes.length) : (nodes ++ [n])[x]? = nodes[x]? :=
  List.getElem?_append_left h

theorem freqAt_snoc {n : Node} {x : Nat} (h : x < nodes.length) : freqAt (nodes ++ [n]) x = freqAt nodes x := by
  simp only [freqAt, getElem?_snoc_lt h]

theorem inQueueAt_snoc {n : Node} {k x : Nat} (h : k ≤ nodes.length) :
    InQueueAt (nodes ++ [n]) k x ↔ InQueueAt nodes k x := by
  unfold InQueueAt
  refine and_congr_right fun _ => ?_
  constructor
  · intro H p hp m hm
    exact H p hp m (by rw [getElem?_snoc_lt (by omega)]; exact hm)
  · intro H p hp m hm
    rw [getElem?_snoc_lt (by omega)] at hm
    exact H p hp m hm

theorem before_snoc {n : Node} {x y : Nat} (hx : x < nodes.length) (hy : y < nodes.length) :
    Before (nodes ++ [n]) x y ↔ Before nodes x y := by
  simp only [Before, freqAt_snoc hx, freqAt_snoc hy]

/-! ### One merge and the whole merging (rule R168) -/

/-- What the arena and the queue are at every moment of the merging that began with the leaves `ls`. -/
structure Merging (ls nodes : List Node) (pq : List Nat) : Prop where
  allLeaves : ∀ n ∈ ls, ∃ b f, n = Node.leaf b f
  count : pq.length + nodes.length = 2 * ls.length
  leafs : ls.length ≤ nodes.length ∧ ∀ k < ls.length, nodes[k]? = ls[k]?
  inner : ∀ k, ls.length ≤ k → k < nodes.length →
    ∃ l r, nodes[k]? = some (.internal (freqAt nodes l + freqAt nodes r) l r) ∧ l ≠ r ∧
      InQueueAt nodes k l ∧ InQueueAt nodes k r ∧
      (∀ x, InQueueAt nodes k x → x ≠ l → Before nodes l x) ∧
      (∀ x, InQueueAt nodes k x → x ≠ l → x ≠ r → Before nodes r x)
  queue : pq.Nodup ∧ ∀ x, x ∈ pq ↔ InQueueAt nodes nodes.length x
  total : (pq.map (freqAt nodes)).sum = (ls.map Node.freq).sum

/-- The merging begins with every leaf in the queue (rule R164). -/
theorem Merging.start {ls : List Node} (h : ∀ n ∈ ls, ∃ b f, n = .leaf b f) :
    Merging ls ls (List.range ls.length) where
  allLeaves := h
  count := by simp; omega
  leafs := ⟨Nat.le_refl _, fun _ _ => rfl⟩
  inner := fun k h1 h2 => by omega
  queue := by
    refine ⟨List.nodup_range, fun x => ?_⟩
    rw [List.mem_range]
    refine ⟨fun hx => ⟨hx, fun p hp n hn => ?_⟩, fun hx => hx.1⟩
    obtain ⟨b, f, rfl⟩ := h n (List.mem_of_getElem? hn)
    exact id
  total := by
    congr 1
    apply List.ext_getElem?
    intro k
    by_cases hk : k < ls.length
    · simp [freqAt, hk]
    · simp [hk]

/-- What one merge can do: the two first of the queue become the children of a new node (rules R168, R171). -/
theorem mergeOnce_spec {pq : List Nat} {nodes' : List Node} {pq' : List Nat} (hn : pq.Nodup)
    (h : mergeOnce nodes pq = some (nodes', pq')) :
    ∃ a b, a ∈ pq ∧ b ∈ pq ∧ a ≠ b ∧ (∀ y ∈ pq, y ≠ a → Before nodes a y) ∧
      (∀ y ∈ pq, y ≠ a → y ≠ b → Before nodes b y) ∧
      nodes' = nodes ++ [.internal (freqAt nodes a + freqAt nodes b) a b] ∧
      pq' = (pq.erase a).erase b ++ [nodes.length] := by
  unfold mergeOnce at h
  split at h
  · simp at h
  · rename_i a pq1 ha
    split at h
    · simp at h
    · rename_i b pq2 hb
      simp only [Option.some.injEq, Prod.mk.injEq] at h
      obtain ⟨ha1, rfl, ha2⟩ := pqExtractMin_spec ha
      obtain ⟨hb1, rfl, hb2⟩ := pqExtractMin_spec hb
      rw [hn.mem_erase_iff] at hb1
      refine ⟨a, b, ha1, hb1.2, Ne.symm hb1.1, ?_, ?_, h.1.symm, h.2.symm⟩
      · intro y hy hya
        exact (ha2 y hy).resolve_left hya
      · intro y hy hya hyb
        exact (hb2 y (hn.mem_erase_iff.2 ⟨hya, hy⟩)).resolve_left hyb

/-- A merge happens whenever the queue holds two nodes. -/
theorem mergeOnce_eq_none {pq : List Nat} : mergeOnce nodes pq = none ↔ pq.length ≤ 1 := by
  unfold mergeOnce
  split
  · rename_i h
    simp [pqExtractMin_eq_none.1 h]
  · rename_i a pq1 ha
    obtain ⟨ha1, rfl, -⟩ := pqExtractMin_spec ha
    have hl := List.length_erase_of_mem ha1
    have hp := List.length_pos_of_mem ha1
    split
    · rename_i hb
      rw [pqExtractMin_eq_none.1 hb] at hl
      simp at hl ⊢; omega
    · rename_i b pq2 hb
      have := List.length_pos_of_mem (pqExtractMin_spec hb).1
      simp; omega

theorem sum_map_erase {α : Type} [DecidableEq α] (f : α → Nat) {l : List α} {a : α} (h : a ∈ l) :
    ((l.erase a).map f).sum + f a = (l.map f).sum := by
  have := ((List.perm_cons_erase h).map f).sum_eq
  simp only [List.map_cons, List.sum_cons] at this
  omega

/-- A merge keeps what holds of the merging. -/
theorem Merging.merge {ls : List Node} {pq : List Nat} {nodes' : List Node} {pq' : List Nat}
    (h : Merging ls nodes pq) (hm : mergeOnce nodes pq = some (nodes', pq')) : Merging ls nodes' pq' := by
  obtain ⟨a, b, ha, hb, hab, hfa, hfb, rfl, rfl⟩ := mergeOnce_spec h.queue.1 hm
  have hqa := (h.queue.2 a).1 ha
  have hqb := (h.queue.2 b).1 hb
  have hb' : b ∈ pq.erase a := h.queue.1.mem_erase_iff.2 ⟨hab.symm, hb⟩
  have hmem : ∀ x, x ∈ (pq.erase a).erase b ↔ x ≠ b ∧ x ≠ a ∧ x ∈ pq := fun x => by
    rw [(h.queue.1.erase a).mem_erase_iff, h.queue.1.mem_erase_iff]
  have hlt : ∀ x ∈ pq, x < nodes.length := fun x hx => ((h.queue.2 x).1 hx).1
  constructor
  · exact h.allLeaves
  · have h1 := List.length_erase_of_mem ha
    have h2 := List.length_erase_of_mem hb'
    have h3 := List.length_pos_of_mem ha
    have h4 := List.length_pos_of_mem hb'
    have := h.count
    simp only [List.length_append, List.length_singleton]
    omega
  · refine ⟨by simp only [List.length_append]; have := h.leafs.1; omega, fun k hk => ?_⟩
    rw [getElem?_snoc_lt (Nat.lt_of_lt_of_le hk h.leafs.1)]
    exact h.leafs.2 k hk
  · intro k hk1 hk2
    rw [List.length_append, List.length_singleton] at hk2
    by_cases hk : k = nodes.length
    · subst hk
      refine ⟨a, b, ?_, hab, (inQueueAt_snoc (Nat.le_refl _)).2 hqa, (inQueueAt_snoc (Nat.le_refl _)).2 hqb, ?_, ?_⟩
      · rw [freqAt_snoc hqa.1, freqAt_snoc hqb.1]
        simp
      · intro x hx hxa
        have hx' := (inQueueAt_snoc (Nat.le_refl _)).1 hx
        exact (before_snoc hqa.1 hx'.1).2 (hfa x ((h.queue.2 x).2 hx') hxa)
      · intro x hx hxa hxb
        have hx' := (inQueueAt_snoc (Nat.le_refl _)).1 hx
        exact (before_snoc hqb.1 hx'.1).2 (hfb x ((h.queue.2 x).2 hx') hxa hxb)
    · have hkl : k < nodes.length := by omega
      obtain ⟨l, r, hn, hlr, hl, hr, hml, hmr⟩ := h.inner k hk1 hkl
      have hl1 : l < nodes.length := by have := hl.1; omega
      have hr1 : r < nodes.length := by have := hr.1; omega
      refine ⟨l, r, ?_, hlr, (inQueueAt_snoc (by omega)).2 hl, (inQueueAt_snoc (by omega)).2 hr, ?_, ?_⟩
      · rw [getElem?_snoc_lt hkl, freqAt_snoc hl1, freqAt_snoc hr1]
        exact hn
      · intro x hx hxl
        have hx' := (inQueueAt_snoc (by omega)).1 hx
        exact (before_snoc hl1 (by have := hx'.1; omega)).2 (hml x hx' hxl)
      · intro x hx hxl hxr
        have hx' := (inQueueAt_snoc (by omega)).1 hx
        exact (before_snoc hr1 (by have := hx'.1; omega)).2 (hmr x hx' hxl hxr)
  · refine ⟨?_, fun x => ?_⟩
    · rw [List.nodup_append]
      refine ⟨(h.queue.1.erase a).erase b, by simp, ?_⟩
      intro x hx y hy
      rw [List.mem_singleton] at hy
      subst hy
      exact Nat.ne_of_lt (hlt x ((hmem x).1 hx).2.2)
    · rw [List.mem_append, List.mem_singleton, hmem, List.length_append, List.length_singleton]
      constructor
      · rintro (⟨hxb, hxa, hx⟩ | rfl)
        · have hq := (h.queue.2 x).1 hx
          refine ⟨by have := hq.1; omega, fun p hp n hn => ?_⟩
          by_cases hpl : p = nodes.length
          · subst hpl
            simp only [List.getElem?_append_right (Nat.le_refl _), Nat.sub_self, List.getElem?_cons_zero,
              Option.some.injEq] at hn
            subst hn
            simp only [Node.hasChild]
            tauto
          · rw [getElem?_snoc_lt (by omega)] at hn
            exact hq.2 p (by omega) n hn
        · refine ⟨by omega, fun p hp n hn hc => ?_⟩
          by_cases hpl : p = nodes.length
          · subst hpl
            simp only [List.getElem?_append_right (Nat.le_refl _), Nat.sub_self, List.getElem?_cons_zero,
              Option.some.injEq] at hn
            subst hn
            have h1 := hqa.1
            have h2 := hqb.1
            simp only [Node.hasChild] at hc
            omega
          · have hp' : p < nodes.length := by omega
            rw [getElem?_snoc_lt hp'] at hn
            by_cases hleaf : p < ls.length
            · rw [h.leafs.2 p hleaf] at hn
              obtain ⟨b, f, rfl⟩ := h.allLeaves n (List.mem_of_getElem? hn)
              exact hc
            · obtain ⟨l, r, hn', -, hl, hr, -, -⟩ := h.inner p (by omega) hp'
              rw [hn'] at hn
              simp only [Option.some.injEq] at hn
              subst hn
              have h1 := hl.1
              have h2 := hr.1
              simp only [Node.hasChild] at hc
              omega
      · rintro ⟨hx, hq⟩
        by_cases hxn : x = nodes.length
        · exact .inr hxn
        · left
          have hin : InQueueAt nodes nodes.length x :=
            ⟨by omega, fun p hp n hn => hq p (by omega) n (by rw [getElem?_snoc_lt hp]; exact hn)⟩
          have hlast := hq nodes.length (by omega) (.internal (freqAt nodes a + freqAt nodes b) a b) (by simp)
          simp only [Node.hasChild, not_or] at hlast
          exact ⟨hlast.2, hlast.1, (h.queue.2 x).2 hin⟩
  · have e : ∀ l : List Nat, (∀ x ∈ l, x < nodes.length) →
        l.map (freqAt (nodes ++ [.internal (freqAt nodes a + freqAt nodes b) a b])) = l.map (freqAt nodes) :=
      fun l hl => List.map_congr_left fun x hx => freqAt_snoc (hl x hx)
    rw [List.map_append, e _ (fun x hx => hlt x ((hmem x).1 hx).2.2), List.sum_append, ← h.total,
      ← sum_map_erase (freqAt nodes) ha, ← sum_map_erase (freqAt nodes) hb']
    simp [freqAt, Node.freq]
    omega

/-- Merging until one node is left (rules R168, R169). -/
theorem Merging.all {ls : List Node} (fuel : Nat) {nodes : List Node} {pq : List Nat} (h : Merging ls nodes pq)
    (hp : 1 ≤ pq.length) (hf : pq.length ≤ fuel + 1) :
    Merging ls (mergeAll fuel nodes pq).1 (mergeAll fuel nodes pq).2 ∧ (mergeAll fuel nodes pq).2.length = 1 := by
  induction fuel generalizing nodes pq with
  | zero => exact ⟨h, by simp only [mergeAll]; omega⟩
  | succ fuel ih =>
    simp only [mergeAll]
    split
    · rename_i hm
      have := mergeOnce_eq_none.1 hm
      exact ⟨h, by simp only; omega⟩
    · rename_i nodes' pq' hm
      obtain ⟨a, b, ha, hb, hab, -, -, rfl, rfl⟩ := mergeOnce_spec h.queue.1 hm
      have h1 := List.length_erase_of_mem ha
      have h2 := List.length_erase_of_mem (h.queue.1.mem_erase_iff.2 ⟨hab.symm, hb⟩)
      have h3 := List.length_pos_of_mem (h.queue.1.mem_erase_iff.2 ⟨hab.symm, hb⟩)
      refine ih (h.merge hm) ?_ ?_ <;> simp only [List.length_append, List.length_singleton] <;> omega

/-! ### The leaves (rule R164) -/

theorem leavesOf_leaf {freq : Vector Nat 256} {n : Node} (h : n ∈ leavesOf freq) :
    ∃ b, n = .leaf b (entry freq b) ∧ 0 < entry freq b := by
  simp only [leavesOf, List.mem_filterMap] at h
  obtain ⟨b, -, hb⟩ := h
  split at hb
  · exact ⟨b, by simpa using hb.symm, ‹_›⟩
  · simp at hb

theorem mem_leavesOf {freq : Vector Nat 256} {b : Byte} (h : 0 < entry freq b) :
    Node.leaf b (entry freq b) ∈ leavesOf freq := by
  simp only [leavesOf, List.mem_filterMap]
  exact ⟨b, mem_symbols b, by simp [h]⟩

theorem length_leavesOf_le (freq : Vector Nat 256) : (leavesOf freq).length ≤ 256 := by
  have := List.length_filterMap_le
    (fun s => if 0 < entry freq s then some (Node.leaf s (entry freq s)) else none) symbols
  simpa [leavesOf] using this

/-- The leaves stand in strictly ascending symbol order (rule R164). -/
theorem leavesOf_ascending (freq : Vector Nat 256) :
    (leavesOf freq).Pairwise fun m n => ∀ b c f g, m = .leaf b f → n = .leaf c g → b < c := by
  rw [leavesOf, List.pairwise_filterMap]
  refine symbols_ascending.imp fun {x y} hxy => ?_
  intro m hm n hn b c f g hb hc
  split at hm <;> simp only [Option.some.injEq, reduceCtorEq] at hm
  split at hn <;> simp only [Option.some.injEq, reduceCtorEq] at hn
  subst hm; subst hn
  simp only [Node.leaf.injEq] at hb hc
  rw [← hb.1, ← hc.1]
  exact hxy

/-- The frequencies of the leaves sum to all counts. -/
theorem sum_leavesOf (freq : Vector Nat 256) : ((leavesOf freq).map Node.freq).sum = freqTotal freq := by
  simp only [leavesOf, freqTotal]
  induction symbols with
  | nil => rfl
  | cons b bs ih =>
    rw [List.filterMap_cons]
    split
    · rename_i hn
      have : entry freq b = 0 := by
        split at hn
        · simp at hn
        · omega
      simp [this, ih]
    · rename_i n hn
      have : n.freq = entry freq b := by
        split at hn
        · simp only [Option.some.injEq] at hn
          rw [← hn, Node.freq]
        · simp at hn
      simp [this, ih]

/-! ### The tree (rules R169, R173) -/

/-- What the merging of the leaves ends with. -/
theorem buildArena_merging {freq : Vector Nat 256} (h : 1 ≤ (leavesOf freq).length) :
    Merging (leavesOf freq) (buildArena freq).1 (buildArena freq).2 ∧ (buildArena freq).2.length = 1 :=
  (Merging.start fun _ hn => let ⟨b, hb, _⟩ := leavesOf_leaf hn; ⟨b, _, hb⟩).all _ (by simpa using h) (by simp)

/-- In a finished merging the one node left is the last one created (rule R169). -/
theorem Merging.root {ls nodes : List Node} {pq : List Nat} (h : Merging ls nodes pq) (h1 : pq.length = 1)
    (hls : 1 ≤ ls.length) : pq = [nodes.length - 1] := by
  obtain ⟨x, rfl⟩ := List.length_eq_one_iff.1 h1
  have hlast : nodes.length - 1 ∈ [x] := by
    refine (h.queue.2 _).2 ⟨by have := h.leafs.1; omega, fun p hp n hn hc => ?_⟩
    by_cases hleaf : p < ls.length
    · rw [h.leafs.2 p hleaf] at hn
      obtain ⟨b, f, rfl⟩ := h.allLeaves n (List.mem_of_getElem? hn)
      exact hc
    · obtain ⟨l, r, hn', -, hl, hr, -, -⟩ := h.inner p (by omega) hp
      rw [hn'] at hn
      simp only [Option.some.injEq] at hn
      subst hn
      have h2 := hl.1
      have h3 := hr.1
      simp only [Node.hasChild] at hc
      omega
  rw [List.mem_singleton] at hlast
  rw [hlast]

/-- Every node of a finished merging but the root has exactly one parent (rule R44 (b)). -/
theorem Merging.oneParent {ls nodes : List Node} {pq : List Nat} (h : Merging ls nodes pq) (x : Nat)
    (hx : x < nodes.length) (hq : x ∉ pq) : ∃! p : Nat, ∃ n : Node, nodes[p]? = some n ∧ n.hasChild x := by
  have inner : ∀ p n, nodes[p]? = some n → n.hasChild x → InQueueAt nodes p x := fun p n hn hc => by
    have hp : p < nodes.length := (List.getElem?_eq_some_iff.1 hn).1
    by_cases hleaf : p < ls.length
    · rw [h.leafs.2 p hleaf] at hn
      obtain ⟨b, f, rfl⟩ := h.allLeaves n (List.mem_of_getElem? hn)
      exact hc.elim
    · obtain ⟨l, r, hn', -, hl, hr, -, -⟩ := h.inner p (by omega) hp
      rw [hn'] at hn
      simp only [Option.some.injEq] at hn
      subst hn
      rcases hc with rfl | rfl
      · exact hl
      · exact hr
  have hex : ∃ (p : Nat) (n : Node), nodes[p]? = some n ∧ n.hasChild x := by
    by_contra hne
    refine hq ((h.queue.2 x).2 ⟨hx, fun p _ n hn hc => hne ⟨p, n, hn, hc⟩⟩)
  obtain ⟨p, n, hn, hc⟩ := hex
  refine ⟨p, ⟨n, hn, hc⟩, ?_⟩
  rintro p' ⟨n', hn', hc'⟩
  rcases Nat.lt_trichotomy p p' with hlt | he | hlt
  · exact ((inner p' n' hn' hc').2 p hlt n hn hc).elim
  · exact he.symm
  · exact ((inner p n hn hc).2 p' hlt n' hn' hc').elim

theorem rootOf_eq {freq : Vector Nat 256} (h : 1 ≤ (leavesOf freq).length) :
    rootOf (buildArena freq) = (buildArena freq).1.length - 1 := by
  obtain ⟨hm, h1⟩ := buildArena_merging h
  rw [rootOf, hm.root h1 h]
  rfl

/-- The arena built from counts of which one is positive is a tree in the sense of rule R44 (b). -/
theorem isTree_buildArena {freq : Vector Nat 256} (h : 1 ≤ (leavesOf freq).length) :
    IsTree freq (buildArena freq).1 (leavesOf freq).length (rootOf (buildArena freq)) := by
  obtain ⟨hm, h1⟩ := buildArena_merging h
  have hpq := hm.root h1 h
  have leaf : ∀ k < (leavesOf freq).length,
      ∃ b, (buildArena freq).1[k]? = some (.leaf b (entry freq b)) ∧ 0 < entry freq b := fun k hk => by
    rw [hm.leafs.2 k hk]
    obtain ⟨b, hb, hp⟩ := leavesOf_leaf (List.getElem_mem hk)
    exact ⟨b, by rw [List.getElem?_eq_getElem hk, hb], hp⟩
  constructor
  · exact ⟨h, length_leavesOf_le freq⟩
  · have := hm.count
    omega
  · exact rootOf_eq h
  · exact leaf
  · intro j k b c f g hjk hk hb hc
    rw [hm.leafs.2 j (by omega)] at hb
    rw [hm.leafs.2 k hk] at hc
    obtain ⟨hj', hb⟩ := List.getElem?_eq_some_iff.1 hb
    obtain ⟨hk', hc⟩ := List.getElem?_eq_some_iff.1 hc
    exact List.pairwise_iff_getElem.1 (leavesOf_ascending freq) j k hj' hk' hjk b c f g hb hc
  · intro k hk1 hk2
    obtain ⟨l, r, hn, hlr, hl, hr, -, -⟩ := hm.inner k hk1 hk2
    exact ⟨l, r, hn, hl.1, hr.1, hlr⟩
  · intro x hx hne
    refine hm.oneParent x hx ?_
    rw [hpq, List.mem_singleton]
    rw [rootOf_eq h] at hne
    exact hne
  · intro b hb
    obtain ⟨k, hk, he⟩ := List.getElem_of_mem (mem_leavesOf hb)
    exact ⟨k, hk, by rw [hm.leafs.2 k hk, List.getElem?_eq_getElem hk, he]⟩
  · have := hm.total
    rw [hpq, sum_leavesOf] at this
    rw [rootOf_eq h]
    simpa using this

/-! ### The count (rule R163) -/

@[simp] theorem entry_countSymbols (sym : List Byte) (b : Byte) : entry (countSymbols sym) b = sym.count b := by
  simp [countSymbols]

theorem sum_indicator (b : Byte) (l : List Byte) : (l.map fun c => if b = c then 1 else 0).sum = l.count b := by
  induction l with
  | nil => rfl
  | cons c l ih =>
    rw [List.map_cons, List.sum_cons, ih, List.count_cons]
    by_cases h : b = c
    · simp [h]; omega
    · simp [h, Ne.symm h]

theorem sum_counts (sym l : List Byte) (h : ∀ b ∈ sym, l.count b = 1) : (l.map fun b => sym.count b).sum = sym.length := by
  induction sym with
  | nil => simp
  | cons b rest ih =>
    simp only [List.count_cons, beq_iff_eq, List.length_cons]
    rw [List.sum_map_add, ih fun c hc => h c (List.mem_cons_of_mem _ hc), sum_indicator, h b (by simp)]

/-- The sum of all counts is `SYM_LEN` (rule R163). -/
theorem freqTotal_countSymbols (sym : List Byte) : freqTotal (countSymbols sym) = sym.length := by
  rw [freqTotal, show entry (countSymbols sym) = fun b => sym.count b from funext (entry_countSymbols sym)]
  exact sum_counts sym symbols fun b _ => List.count_eq_one_of_mem symbols_nodup (mem_symbols b)

/-- A non-empty `SYM` has at least one leaf (rule R162). -/
theorem leaves_pos {sym : List Byte} (h : sym ≠ []) : 1 ≤ (leavesOf (countSymbols sym)).length := by
  obtain ⟨b, rest, rfl⟩ := List.exists_cons_of_ne_nil h
  refine List.length_pos_of_mem (mem_leavesOf (b := b) ?_)
  simp

/-- The leaves as a filter and a map (rule R164). -/
theorem leavesOf_eq (freq : Vector Nat 256) :
    leavesOf freq = (symbols.filter fun b => decide (0 < entry freq b)).map fun b => .leaf b (entry freq b) := by
  unfold leavesOf
  induction symbols with
  | nil => rfl
  | cons b bs ih => by_cases h : 0 < entry freq b <;> simp [h, ih]

/-- The table of no counts sums to 0. -/
theorem freqTotal_zero : freqTotal (symbolTable fun _ => 0) = 0 := by
  have : entry (symbolTable fun _ => 0) = fun _ => 0 := funext fun b => by simp
  unfold freqTotal
  rw [this]
  exact List.sum_eq_zero fun x hx => by obtain ⟨_, -, rfl⟩ := List.mem_map.1 hx; rfl

/-- A count is at most the sum of all counts. -/
theorem entry_le_freqTotal (freq : Vector Nat 256) (b : Byte) : entry freq b ≤ freqTotal freq :=
  List.single_le_sum (by simp) _ (by simp)

end Sys2Proof.Machine
end

