-- ==== Sys2Proof/Laws/CodeGenerator.lean ====
section
/-! SUPPORT. The code generator: paths in a tree, the codes emitted, the code table (rules R190 to R198). -/

namespace Sys2Proof.Machine

variable {freq : Vector Nat 256} {nodes : List Node} {nsym root : Nat}

/-! ### Paths -/

@[simp] theorem follow_nil (n : Nat) : follow nodes n [] = some n := by
  rw [follow]

theorem follow_cons {n f l r : Nat} (h : nodes[n]? = some (.internal f l r)) (b : Bool) (bs : BitString) :
    follow nodes n (b :: bs) = follow nodes (if b then r else l) bs := by
  rw [follow, h]

/-- A path with an edge begins at an internal node. -/
theorem follow_cons_some {n k : Nat} {b : Bool} {bs : BitString} (h : follow nodes n (b :: bs) = some k) :
    ∃ f l r, nodes[n]? = some (.internal f l r) ∧ follow nodes (if b then r else l) bs = some k := by
  rw [follow] at h
  split at h
  · rename_i f l r hn
    exact ⟨f, l, r, hn, h⟩
  · simp at h

/-- A path's last edge leaves an internal node. -/
theorem follow_snoc {n k : Nat} {p : BitString} {b : Bool} :
    follow nodes n (p ++ [b]) = some k ↔
      ∃ m f l r, follow nodes n p = some m ∧ nodes[m]? = some (.internal f l r) ∧ k = if b then r else l := by
  induction p generalizing n with
  | nil =>
    constructor
    · intro h
      obtain ⟨f, l, r, hn, hk⟩ := follow_cons_some h
      simp only [follow_nil, Option.some.injEq] at hk
      exact ⟨n, f, l, r, by simp, hn, hk.symm⟩
    · rintro ⟨m, f, l, r, hm, hn, rfl⟩
      simp only [follow_nil, Option.some.injEq] at hm
      subst hm
      rw [List.nil_append, follow_cons hn, follow_nil]
  | cons a p ih =>
    constructor
    · intro h
      obtain ⟨f, l, r, hn, hk⟩ := follow_cons_some h
      obtain ⟨m, f', l', r', hm, hn', hk'⟩ := ih.1 hk
      exact ⟨m, f', l', r', by rw [follow_cons hn]; exact hm, hn', hk'⟩
    · rintro ⟨m, f', l', r', hm, hn', hk'⟩
      obtain ⟨f, l, r, hn, hk⟩ := follow_cons_some hm
      rw [List.cons_append, follow_cons hn]
      exact ih.2 ⟨m, f', l', r', hk, hn', hk'⟩

theorem follow_append {n m : Nat} {p q : BitString} (h : follow nodes n p = some m) :
    follow nodes n (p ++ q) = follow nodes m q := by
  induction p generalizing n with
  | nil => simp at h; simp [h]
  | cons a p ih =>
    obtain ⟨f, l, r, hn, hk⟩ := follow_cons_some h
    rw [List.cons_append, follow_cons hn, ih hk]

/-- No path leads on from a leaf. -/
theorem follow_leaf {n k f : Nat} {b : Byte} {p : BitString} (hn : nodes[n]? = some (.leaf b f))
    (h : follow nodes n p = some k) : p = [] := by
  cases p with
  | nil => rfl
  | cons a p =>
    obtain ⟨f', l, r, hn', -⟩ := follow_cons_some h
    rw [hn] at hn'
    simp at hn'

/-- Two different children are reached by different edges (rule R191). -/
theorem edge_unique {b c : Bool} {l r : Nat} (h : l ≠ r) (e : (if b then r else l) = (if c then r else l)) : b = c := by
  cases b <;> cases c <;> simp at e <;> first | rfl | exact (h (by omega)).elim

/-! ### Trees (rule R44 (b)) -/

theorem IsTree.kids (h : IsTree freq nodes nsym root) {k f l r : Nat}
    (hk : nodes[k]? = some (.internal f l r)) : nsym ≤ k ∧ l < k ∧ r < k ∧ l ≠ r := by
  have hlt : k < nodes.length := (List.getElem?_eq_some_iff.1 hk).1
  by_cases hs : k < nsym
  · obtain ⟨b, hb, -⟩ := h.leaves k hs
    rw [hk] at hb
    simp at hb
  · obtain ⟨l', r', hn, h1, h2, h3⟩ := h.internals k (by omega) hlt
    rw [hk] at hn
    simp only [Option.some.injEq, Node.internal.injEq] at hn
    obtain ⟨-, rfl, rfl⟩ := hn
    exact ⟨by omega, h1, h2, h3⟩

theorem IsTree.leafIndex (h : IsTree freq nodes nsym root) {k f : Nat} {b : Byte}
    (hk : nodes[k]? = some (.leaf b f)) : k < nsym ∧ f = entry freq b ∧ 0 < entry freq b := by
  have hlt : k < nodes.length := (List.getElem?_eq_some_iff.1 hk).1
  by_cases hs : k < nsym
  · obtain ⟨b', hb, hp⟩ := h.leaves k hs
    rw [hk] at hb
    simp only [Option.some.injEq, Node.leaf.injEq] at hb
    obtain ⟨rfl, rfl⟩ := hb
    exact ⟨hs, rfl, hp⟩
  · obtain ⟨l, r, hn, -⟩ := h.internals k (by omega) hlt
    rw [hk] at hn
    simp at hn

/-- A symbol has one leaf. -/
theorem IsTree.leaf_unique (h : IsTree freq nodes nsym root) {j k f g : Nat} {b : Byte}
    (hj : nodes[j]? = some (.leaf b f)) (hk : nodes[k]? = some (.leaf b g)) : j = k := by
  have irrefl : ¬ b < b := by rw [BitVec.lt_def]; exact Nat.lt_irrefl _
  rcases Nat.lt_trichotomy j k with hlt | he | hlt
  · exact (irrefl (h.ascending j k b b f g hlt (h.leafIndex hk).1 hj hk)).elim
  · exact he
  · exact (irrefl (h.ascending k j b b g f hlt (h.leafIndex hj).1 hk hj)).elim

theorem IsTree.root_lt (h : IsTree freq nodes nsym root) : root < nodes.length := by
  have h1 := h.rootLast
  have h2 := h.nodeCount
  have h3 := h.someSymbol
  omega

/-- Following a path never raises the index (rule R173). -/
theorem IsTree.follow_le (h : IsTree freq nodes nsym root) {n k : Nat} {p : BitString}
    (hp : follow nodes n p = some k) : k ≤ n ∧ (p ≠ [] → k < n) := by
  induction p generalizing n with
  | nil => simp at hp; simp [hp]
  | cons b p ih =>
    obtain ⟨f, l, r, hn, hk⟩ := follow_cons_some hp
    have hl := h.kids hn
    have := (ih hk).1
    cases b <;> simp at this <;> omega

/-- A path has at most as many edges as there are internal nodes up to where it begins (rule R176). -/
theorem IsTree.follow_length (h : IsTree freq nodes nsym root) {n k : Nat} {p : BitString}
    (hp : follow nodes n p = some k) : p.length ≤ n + 1 - nsym := by
  induction p generalizing n with
  | nil => simp
  | cons b p ih =>
    obtain ⟨f, l, r, hn, hk⟩ := follow_cons_some hp
    have hl := h.kids hn
    have := ih hk
    simp only [List.length_cons]
    cases b <;> simp at this <;> omega

/-- The path from the root to a node is unique (rule R192). -/
theorem IsTree.path_unique (h : IsTree freq nodes nsym root) {k : Nat} {p q : BitString}
    (hp : follow nodes root p = some k) (hq : follow nodes root q = some k) : p = q := by
  induction p using List.reverseRecOn generalizing k q with
  | nil =>
    simp only [follow_nil, Option.some.injEq] at hp
    by_contra hne
    have := (h.follow_le hq).2 (Ne.symm hne)
    omega
  | append_singleton p b ih =>
    rcases List.eq_nil_or_concat' q with rfl | ⟨q, c, rfl⟩
    · simp only [follow_nil, Option.some.injEq] at hq
      have := (h.follow_le hp).2 (by simp)
      omega
    · obtain ⟨m, f, l, r, hm, hn, hk⟩ := follow_snoc.1 hp
      obtain ⟨m', f', l', r', hm', hn', hk'⟩ := follow_snoc.1 hq
      have hkm : k < m := by have := h.kids hn; cases b <;> simp at hk <;> omega
      have hkids : ∀ {f l r : Nat} {b : Bool}, k = (if b then r else l) → (Node.internal f l r).hasChild k := by
        intro f l r b hk
        cases b <;> simp at hk <;> simp [Node.hasChild, hk]
      obtain ⟨x, -, hx⟩ := h.oneParent k
        (by have := (h.follow_le hm).1; have := h.root_lt; omega)
        (by have := (h.follow_le hm).1; omega)
      have e1 := hx m ⟨_, hn, hkids hk⟩
      have e2 := hx m' ⟨_, hn', hkids hk'⟩
      subst e1
      subst e2
      rw [hn] at hn'
      simp only [Option.some.injEq, Node.internal.injEq] at hn'
      obtain ⟨-, rfl, rfl⟩ := hn'
      have hbc : b = c := edge_unique (h.kids hn).2.2.2 (hk.symm.trans hk')
      rw [ih hm hm', hbc]

/-- Every node is reached from the root (rule R44 (b)). -/
theorem IsTree.reached (h : IsTree freq nodes nsym root) (x : Nat) (hx : x < nodes.length) :
    ∃ p, follow nodes root p = some x := by
  induction hd : root - x using Nat.strong_induction_on generalizing x with
  | _ d ih =>
    by_cases hr : x = root
    · exact ⟨[], by simp [hr]⟩
    · obtain ⟨p, ⟨n, hn, hc⟩, -⟩ := h.oneParent x hx hr
      have hp : p < nodes.length := (List.getElem?_eq_some_iff.1 hn).1
      have hroot := h.rootLast
      cases n with
      | leaf b f => exact hc.elim
      | internal f l r =>
        have hk := h.kids hn
        have hxp : x < p := by rcases hc with rfl | rfl <;> omega
        obtain ⟨q, hq⟩ := ih (root - p) (by omega) p hp rfl
        rcases hc with rfl | rfl
        · exact ⟨q ++ [false], follow_snoc.2 ⟨p, f, x, r, hq, hn, rfl⟩⟩
        · exact ⟨q ++ [true], follow_snoc.2 ⟨p, f, l, x, hq, hn, rfl⟩⟩

/-! ### The codes emitted (rules R190, R191) -/

/-- Every emitted code extends the accumulated string by the path to a leaf of its symbol. -/
theorem genCodes_sound {fuel n : Nat} {acc c : BitString} {b : Byte} (h : (b, c) ∈ genCodes nodes fuel n acc) :
    ∃ p k f, c = acc ++ p ∧ follow nodes n p = some k ∧ nodes[k]? = some (.leaf b f) := by
  induction fuel generalizing n acc with
  | zero => simp [genCodes] at h
  | succ fuel ih =>
    rw [genCodes] at h
    split at h
    · rename_i s f hn
      simp only [List.mem_singleton, Prod.mk.injEq] at h
      exact ⟨[], n, f, by simp [h.2], by simp, by rw [hn, h.1]⟩
    · rename_i f l r hn
      rcases List.mem_append.1 h with h | h
      · obtain ⟨p, k, g, rfl, hp, hk⟩ := ih h
        exact ⟨false :: p, k, g, by simp, by rw [follow_cons hn]; exact hp, hk⟩
      · obtain ⟨p, k, g, rfl, hp, hk⟩ := ih h
        exact ⟨true :: p, k, g, by simp, by rw [follow_cons hn]; exact hp, hk⟩
    · simp at h

/-- Every path to a leaf is emitted, given depth enough (rule R191). -/
theorem IsTree.genCodes_complete (h : IsTree freq nodes nsym root) {fuel n k f : Nat} {acc p : BitString} {b : Byte}
    (hf : n < fuel) (hp : follow nodes n p = some k) (hk : nodes[k]? = some (.leaf b f)) :
    (b, acc ++ p) ∈ genCodes nodes fuel n acc := by
  induction fuel generalizing n acc p with
  | zero => omega
  | succ fuel ih =>
    rw [genCodes]
    cases p with
    | nil =>
      simp only [follow_nil, Option.some.injEq] at hp
      subst hp
      simp [hk]
    | cons a p =>
      obtain ⟨f', l, r, hn, hp'⟩ := follow_cons_some hp
      have hkids := h.kids hn
      simp only [hn, List.mem_append]
      cases a
      · left
        have := ih (n := l) (acc := acc ++ [false]) (by omega) hp'
        simpa using this
      · right
        have := ih (n := r) (acc := acc ++ [true]) (by omega) hp'
        simpa using this

theorem isCodeOf_leaf {b b' : Byte} {f : Nat} {c : BitString} (h : nodes[root]? = some (.leaf b' f)) :
    IsCodeOf nodes root b c ↔ b = b' ∧ c = [false] := by
  rw [IsCodeOf, h]

theorem isCodeOf_internal {b : Byte} {f l r : Nat} {c : BitString} (h : nodes[root]? = some (.internal f l r)) :
    IsCodeOf nodes root b c ↔ ∃ k f, follow nodes root c = some k ∧ nodes[k]? = some (.leaf b f) := by
  rw [IsCodeOf, h]

/-- The codes emitted for a tree are exactly its codes (rules R192, R193). -/
theorem IsTree.mem_emittedCodes (h : IsTree freq nodes nsym root) {b : Byte} {c : BitString} :
    (b, c) ∈ emittedCodes nodes root ↔ IsCodeOf nodes root b c := by
  have hr := h.root_lt
  cases hn : nodes[root]'hr with
  | leaf b' f =>
    have hn' : nodes[root]? = some (.leaf b' f) := by rw [List.getElem?_eq_getElem hr, hn]
    rw [isCodeOf_leaf hn', emittedCodes, hn']
    simp
  | internal f l r =>
    have hn' : nodes[root]? = some (.internal f l r) := by rw [List.getElem?_eq_getElem hr, hn]
    rw [isCodeOf_internal hn', emittedCodes, hn']
    constructor
    · intro hm
      obtain ⟨p, k, g, rfl, hp, hk⟩ := genCodes_sound hm
      exact ⟨k, g, by simpa using hp, hk⟩
    · rintro ⟨k, g, hp, hk⟩
      simpa using h.genCodes_complete (acc := []) hr hp hk

/-- A symbol has at most one code (rule R39). -/
theorem IsTree.code_unique (h : IsTree freq nodes nsym root) {b : Byte} {c d : BitString}
    (hc : IsCodeOf nodes root b c) (hd : IsCodeOf nodes root b d) : c = d := by
  have hr := h.root_lt
  cases hn : nodes[root]'hr with
  | leaf b' f =>
    have hn' : nodes[root]? = some (.leaf b' f) := by rw [List.getElem?_eq_getElem hr, hn]
    rw [isCodeOf_leaf hn'] at hc hd
    rw [hc.2, hd.2]
  | internal f l r =>
    have hn' : nodes[root]? = some (.internal f l r) := by rw [List.getElem?_eq_getElem hr, hn]
    rw [isCodeOf_internal hn'] at hc hd
    obtain ⟨k, g, hp, hk⟩ := hc
    obtain ⟨k', g', hp', hk'⟩ := hd
    have := h.leaf_unique hk hk'
    subst this
    exact h.path_unique hp hp'

/-! ### The code table (rule R39) -/

/-- The table after writes that agree on every symbol holds exactly what was written. -/
theorem entry_codeTable {writes : List (Byte × BitString)} {b : Byte} {c : BitString}
    (hu : ∀ c d, (b, c) ∈ writes → (b, d) ∈ writes → c = d) :
    entry (codeTable writes) b = some c ↔ (b, c) ∈ writes := by
  simp only [codeTable, entry_symbolTable, Option.map_eq_some_iff]
  constructor
  · rintro ⟨⟨b', c'⟩, hl, rfl⟩
    have := List.mem_of_getLast? hl
    simp only [List.mem_filter, beq_iff_eq] at this
    obtain ⟨hm, rfl⟩ := this
    exact hm
  · intro hm
    have hm' : (b, c) ∈ writes.filter fun p => p.1 == b := by simp [hm]
    obtain ⟨x, hx⟩ : ∃ x, (writes.filter fun p => p.1 == b).getLast? = some x :=
      ⟨_, List.getLast?_eq_some_getLast (List.ne_nil_of_mem hm')⟩
    have hx' := List.mem_of_getLast? hx
    simp only [List.mem_filter, beq_iff_eq] at hx'
    obtain ⟨hx1, hx2⟩ := hx'
    refine ⟨x, hx, ?_⟩
    obtain ⟨b', c'⟩ := x
    simp only at hx2
    subst hx2
    exact hu _ _ hx1 hm

/-- The table `HCODE` writes for a tree (rules R190 to R193). -/
theorem IsTree.entry_codes (h : IsTree freq nodes nsym root) {b : Byte} {c : BitString} :
    entry (codeTable (emittedCodes nodes root)) b = some c ↔ IsCodeOf nodes root b c := by
  rw [entry_codeTable, h.mem_emittedCodes]
  intro c d hc hd
  exact h.code_unique (h.mem_emittedCodes.1 hc) (h.mem_emittedCodes.1 hd)

/-- A symbol has a code exactly when it occurs (rule R44 (d)). -/
theorem IsTree.hasCode (h : IsTree freq nodes nsym root) {b : Byte} :
    (∃ c, IsCodeOf nodes root b c) ↔ 0 < entry freq b := by
  have hr := h.root_lt
  cases hn : nodes[root]'hr with
  | leaf b' f =>
    have hn' : nodes[root]? = some (.leaf b' f) := by rw [List.getElem?_eq_getElem hr, hn]
    simp only [isCodeOf_leaf hn']
    constructor
    · rintro ⟨c, rfl, -⟩
      exact (h.leafIndex hn').2.2
    · intro hb
      obtain ⟨k, hk, he⟩ := h.everySymbol b hb
      have h1 := (h.leafIndex hn').1
      have h2 := h.rootLast
      have h3 := h.nodeCount
      have : k = root := by omega
      subst this
      rw [hn'] at he
      simp only [Option.some.injEq, Node.leaf.injEq] at he
      exact ⟨[false], he.1.symm, rfl⟩
  | internal f l r =>
    have hn' : nodes[root]? = some (.internal f l r) := by rw [List.getElem?_eq_getElem hr, hn]
    simp only [isCodeOf_internal hn']
    constructor
    · rintro ⟨c, k, g, hp, hk⟩
      exact (h.leafIndex hk).2.2
    · intro hb
      obtain ⟨k, hk, he⟩ := h.everySymbol b hb
      obtain ⟨p, hp⟩ := h.reached k (by have := h.nodeCount; omega)
      exact ⟨p, k, _, hp, he⟩

/-- No code is longer than 255 bits (rules R176, R198). -/
theorem IsTree.code_length_le (h : IsTree freq nodes nsym root) {b : Byte} {c : BitString} (hc : IsCodeOf nodes root b c) :
    c.length ≤ 255 := by
  have hr := h.root_lt
  have h1 := h.rootLast
  have h2 := h.nodeCount
  have h3 := h.someSymbol
  cases hn : nodes[root]'hr with
  | leaf b' f =>
    rw [isCodeOf_leaf (by rw [List.getElem?_eq_getElem hr, hn])] at hc
    simp [hc.2]
  | internal f l r =>
    rw [isCodeOf_internal (by rw [List.getElem?_eq_getElem hr, hn])] at hc
    obtain ⟨k, g, hp, -⟩ := hc
    have := h.follow_length hp
    omega

/-! ### Frequencies along a path (rule R175) -/

theorem IsTree.kid_freq (h : IsTree freq nodes nsym root) {k f l r : Nat} (hk : nodes[k]? = some (.internal f l r)) :
    f = freqAt nodes l + freqAt nodes r := by
  have h1 := h.kids hk
  obtain ⟨l', r', hn, -⟩ := h.internals k h1.1 (List.getElem?_eq_some_iff.1 hk).1
  rw [hk] at hn
  simp only [Option.some.injEq, Node.internal.injEq] at hn
  obtain ⟨rfl, rfl, rfl⟩ := hn
  rfl

theorem IsTree.follow_freq_le (h : IsTree freq nodes nsym root) {n k : Nat} {p : BitString}
    (hp : follow nodes n p = some k) : freqAt nodes k ≤ freqAt nodes n := by
  induction p generalizing n with
  | nil => simp at hp; subst hp; exact le_rfl
  | cons b p ih =>
    obtain ⟨f, l, r, hn, hp'⟩ := follow_cons_some hp
    have := ih hp'
    have := h.kid_freq hn
    have : freqAt nodes n = f := by simp [freqAt, hn, Node.freq]
    cases b <;> simp at * <;> omega

/-- No node's frequency is above the sum of all counts (rules R90, R175). -/
theorem IsTree.freq_le (h : IsTree freq nodes nsym root) {k : Nat} (hk : k < nodes.length) :
    freqAt nodes k ≤ freqTotal freq := by
  obtain ⟨p, hp⟩ := h.reached k hk
  rw [← h.rootFreq]
  exact h.follow_freq_le hp

/-! ### The leaves below a node (rule R175) -/

theorem leafBelow_leaf {x f : Nat} {b b' : Byte} (h : nodes[x]? = some (.leaf b' f)) : LeafBelow nodes x b ↔ b = b' := by
  constructor
  · rintro ⟨p, k, g, hp, hk⟩
    have := follow_leaf h hp
    subst this
    simp only [follow_nil, Option.some.injEq] at hp
    subst hp
    rw [h] at hk
    simp only [Option.some.injEq, Node.leaf.injEq] at hk
    exact hk.1.symm
  · rintro rfl
    exact ⟨[], x, f, by simp, h⟩

theorem leafBelow_internal {x f l r : Nat} {b : Byte} (h : nodes[x]? = some (.internal f l r)) :
    LeafBelow nodes x b ↔ LeafBelow nodes l b ∨ LeafBelow nodes r b := by
  constructor
  · rintro ⟨p, k, g, hp, hk⟩
    cases p with
    | nil => simp at hp; subst hp; rw [h] at hk; simp at hk
    | cons a p =>
      rw [follow_cons h] at hp
      cases a
      · exact .inl ⟨p, k, g, hp, hk⟩
      · exact .inr ⟨p, k, g, hp, hk⟩
  · rintro (⟨p, k, g, hp, hk⟩ | ⟨p, k, g, hp, hk⟩)
    · exact ⟨false :: p, k, g, by rw [follow_cons h]; exact hp, hk⟩
    · exact ⟨true :: p, k, g, by rw [follow_cons h]; exact hp, hk⟩

/-- No leaf lies below both children of a node. -/
theorem IsTree.leafBelow_disjoint (h : IsTree freq nodes nsym root) {x f l r : Nat} {b : Byte}
    (hx : nodes[x]? = some (.internal f l r)) (hl : LeafBelow nodes l b) (hr : LeafBelow nodes r b) : False := by
  obtain ⟨p, k, g, hp, hk⟩ := hl
  obtain ⟨p', k', g', hp', hk'⟩ := hr
  have := h.leaf_unique hk hk'
  subst this
  obtain ⟨q, hq⟩ := h.reached x (List.getElem?_eq_some_iff.1 hx).1
  have h1 : follow nodes root (q ++ false :: p) = some k := by rw [follow_append hq, follow_cons hx]; exact hp
  have h2 : follow nodes root (q ++ true :: p') = some k := by rw [follow_append hq, follow_cons hx]; exact hp'
  have := h.path_unique h1 h2
  simp at this

/-! ### The weights of the codes emitted (rule R197) -/

/-- The codes emitted for a subtree share the weight of the string accumulated above it. -/
theorem IsTree.genCodes_weight (h : IsTree freq nodes nsym root) {D fuel n : Nat} {acc : BitString} (hf : n < fuel)
    (hn : n < nodes.length) (hd : acc.length + (n + 1 - nsym) ≤ D) :
    ((genCodes nodes fuel n acc).map fun e => 2 ^ (D - e.2.length)).sum = 2 ^ (D - acc.length) := by
  induction fuel generalizing n acc with
  | zero => omega
  | succ fuel ih =>
    rw [genCodes]
    have hx := List.getElem?_eq_getElem hn
    cases he : nodes[n] with
    | leaf b f => rw [he] at hx; simp [hx]
    | internal f l r =>
      rw [he] at hx
      have hk := h.kids hx
      simp only [hx, List.map_append, List.sum_append]
      rw [ih (n := l) (by omega) (by omega) (by simp; omega), ih (n := r) (by omega) (by omega) (by simp; omega)]
      simp only [List.length_append, List.length_singleton]
      rw [show D - acc.length = (D - (acc.length + 1)) + 1 by omega, Nat.pow_succ]
      omega

theorem genCodes_nodup {fuel n : Nat} {acc : BitString} : (genCodes nodes fuel n acc).Nodup := by
  induction fuel generalizing n acc with
  | zero => simp [genCodes]
  | succ fuel ih =>
    rw [genCodes]
    split
    · simp
    · rw [List.nodup_append]
      refine ⟨ih, ih, ?_⟩
      rintro ⟨b, c⟩ h1 ⟨b', c'⟩ h2 e
      simp only [Prod.mk.injEq] at e
      obtain ⟨rfl, rfl⟩ := e
      obtain ⟨p, k, g, rfl, -, -⟩ := genCodes_sound h1
      obtain ⟨p', k', g', e', -, -⟩ := genCodes_sound h2
      simp at e'
    · simp

theorem emittedCodes_nodup : (emittedCodes nodes root).Nodup := by
  rw [emittedCodes]
  split
  · simp
  · exact genCodes_nodup

/-! ### The table as the host reads it (rules R256, R270) -/

theorem mem_codeEntries {code : Vector (Option BitString) 256} {b : Byte} {c : BitString} :
    (b, c) ∈ codeEntries code ↔ entry code b = some c := by
  simp [codeEntries]

theorem codeEntries_nodup (code : Vector (Option BitString) 256) : (codeEntries code).Nodup := by
  rw [codeEntries]
  apply List.Nodup.filterMap _ symbols_nodup
  intro a b x ha hb
  simp only [Option.mem_def, Option.map_eq_some_iff] at ha hb
  obtain ⟨c, -, rfl⟩ := ha
  obtain ⟨d, -, e⟩ := hb
  simp only [Prod.mk.injEq] at e
  exact e.1.symm

theorem length_codeEntries_le (code : Vector (Option BitString) 256) : (codeEntries code).length ≤ 256 := by
  have : (codeEntries code).length ≤ symbols.length := List.length_filterMap_le _ _
  simpa using this

/-- The weights of all codes summed over the symbols are those summed over the table's entries. -/
theorem sum_codeWeight (code : Vector (Option BitString) 256) :
    (symbols.map fun b => codeWeight (entry code b)).sum = ((codeEntries code).map fun e => 2 ^ (255 - e.2.length)).sum := by
  rw [codeEntries]
  induction symbols with
  | nil => rfl
  | cons b l ih =>
    cases hb : entry code b <;>
      simp only [List.map_cons, List.sum_cons, List.filterMap_cons, hb, Option.map, ih] <;> simp [codeWeight]

end Sys2Proof.Machine
end

