-- ==== Sys2Proof/Laws/Matcher.lean ====
section
/-! SUPPORT. The matcher: what `mlen`, the best match, one step and the whole iteration are (rules R133 to R137). -/

namespace Sys2Proof.Machine

variable {inp : List Byte} {w l i j : Nat}

theorem Agrees.mono {k k' : Nat} (h : Agrees inp l i j k) (hk : k' ≤ k) : Agrees inp l i j k' :=
  fun t ht => h t (Nat.lt_of_lt_of_le ht hk)

/-- The loop of rule R133 returns the largest length the candidate can be extended to. -/
theorem matchFrom_spec (fuel k : Nat) (hl : k + fuel = l) (h : Agrees inp l i j k) :
    Agrees inp l i j (matchFrom inp i j fuel k) ∧ ∀ m, Agrees inp l i j m → m ≤ matchFrom inp i j fuel k := by
  induction fuel generalizing k with
  | zero =>
    refine ⟨h, fun m hm => ?_⟩
    simp only [matchFrom]
    by_contra hc
    have := (hm k (by omega)).1
    omega
  | succ fuel ih =>
    simp only [matchFrom]
    split
    · refine ih (k + 1) (by omega) fun t ht => ?_
      by_cases htk : t = k
      · subst htk
        exact ⟨by omega, ‹_›⟩
      · exact h t (by omega)
    · refine ⟨h, fun m hm => ?_⟩
      by_contra hc
      exact ‹¬_› (hm k (by omega)).2

theorem matchLen_agrees : Agrees inp l i j (matchLen inp l i j) :=
  (matchFrom_spec l 0 (by omega) fun t ht => absurd ht (Nat.not_lt_zero t)).1

theorem agrees_le_matchLen {k : Nat} (h : Agrees inp l i j k) : k ≤ matchLen inp l i j :=
  (matchFrom_spec l 0 (by omega) fun t ht => absurd ht (Nat.not_lt_zero t)).2 k h

/-- `mlen(i, j) <= min(L, i - j, n - i)` (rule R133). -/
theorem Agrees.bounds {k : Nat} (h : Agrees inp l i j k) :
    k ≤ l ∧ (0 < k → j + k ≤ i ∧ i + k ≤ inp.length) := by
  refine ⟨?_, fun hk => ?_⟩
  · by_contra hc
    exact absurd (h l (by omega)).1 (Nat.lt_irrefl l)
  · obtain ⟨-, h1, h2, -⟩ := h (k - 1) (by omega)
    omega

theorem mem_candidates : j ∈ candidates w i ↔ IsCandidate w i j := by
  simp only [candidates, List.mem_range'_1, IsCandidate]
  omega

/-- Scanning a list of ascending candidates keeps the longest, and among equals the first (rule R135). -/
theorem foldl_better_spec (js : List Nat) (best : Nat × Nat) (hs : js.Pairwise (· < ·)) :
    best.2 ≤ (js.foldl (better inp l i) best).2 ∧
    (∀ j ∈ js, matchLen inp l i j ≤ (js.foldl (better inp l i) best).2) ∧
    (js.foldl (better inp l i) best = best ∨
      ∃ j ∈ js, best.2 < matchLen inp l i j ∧ js.foldl (better inp l i) best = (i - j, matchLen inp l i j) ∧
        ∀ j' ∈ js, matchLen inp l i j ≤ matchLen inp l i j' → j ≤ j') := by
  induction js generalizing best with
  | nil => simp
  | cons a js ih =>
    rw [List.pairwise_cons] at hs
    obtain ⟨h1, h2, h3⟩ := ih (better inp l i best a) hs.2
    simp only [List.foldl_cons]
    have hb : best.2 ≤ (better inp l i best a).2 ∧ matchLen inp l i a ≤ (better inp l i best a).2 := by
      simp only [better]; split <;> simp <;> omega
    refine ⟨by omega, ?_, ?_⟩
    · intro j hj
      rcases List.mem_cons.1 hj with rfl | hj
      · omega
      · exact h2 j hj
    · rcases h3 with h3 | ⟨j, hj, hlt, he, hmin⟩
      · rw [h3] at h2 ⊢
        by_cases hc : best.2 < matchLen inp l i a
        · right
          refine ⟨a, by simp, hc, by simp [better, hc], ?_⟩
          intro j' hj' _
          rcases List.mem_cons.1 hj' with rfl | hj'
          · exact Nat.le_refl _
          · exact Nat.le_of_lt (hs.1 j' hj')
        · left; simp [better, hc]
      · right
        refine ⟨j, by simp [hj], by omega, he, ?_⟩
        intro j' hj' hle
        rcases List.mem_cons.1 hj' with rfl | hj'
        · omega
        · exact hmin j' hj' hle

theorem candidates_ascending : (candidates w i).Pairwise (· < ·) := List.pairwise_lt_range'

/-- The scan finds the best match of rule R135. -/
theorem bestMatch_spec : IsBestMatch inp w l i (bestMatch inp w l i).1 (bestMatch inp w l i).2 := by
  obtain ⟨-, hall, hcase⟩ :=
    foldl_better_spec (inp := inp) (l := l) (i := i) (candidates w i) (0, 0) candidates_ascending
  refine ⟨fun j k hj hk => ?_, ?_, ?_⟩
  · exact Nat.le_trans (agrees_le_matchLen hk) (hall j (mem_candidates.2 hj))
  · rcases hcase with h | ⟨j, _, hlt, he, _⟩
    · intro; simp [bestMatch, h]
    · intro h0; rw [bestMatch, he] at h0; simp only at h0 hlt; omega
  · rcases hcase with h | ⟨j, hj, hlt, he, hmin⟩
    · intro h0; simp [bestMatch, h] at h0
    · intro _
      have e1 : (bestMatch inp w l i).1 = i - j := by rw [bestMatch, he]
      have e2 : (bestMatch inp w l i).2 = matchLen inp l i j := by rw [bestMatch, he]
      refine ⟨j, mem_candidates.1 hj, e1, e2 ▸ matchLen_agrees, fun j' hj' ha => ?_⟩
      exact hmin j' (mem_candidates.2 hj') (agrees_le_matchLen (e2 ▸ ha))

theorem literalAt_spec (p : Nat) : IsLiteralAt inp p (literalAt inp p) := by
  refine ⟨fun b hb => by simp [literalAt, hb], fun h => ?_⟩
  simp [literalAt, List.getElem?_eq_none h]

theorem tokenAt_eq :
    tokenAt inp w l i =
      { offset := (bestMatch inp w l i).1, length := (bestMatch inp w l i).2,
        lit := literalAt inp (i + (bestMatch inp w l i).2) } := rfl

theorem tokenAt_best : IsBestMatch inp w l i (tokenAt inp w l i).offset (tokenAt inp w l i).length := bestMatch_spec

theorem tokenAt_literal : IsLiteralAt inp (i + (tokenAt inp w l i).length) (tokenAt inp w l i).lit :=
  literalAt_spec _

@[simp] theorem lzSteps_zero : lzSteps inp w l 0 i = ([], i) := rfl

theorem lzSteps_succ (fuel : Nat) :
    lzSteps inp w l (fuel + 1) i =
      if i < inp.length then
        (tokenAt inp w l i :: (lzSteps inp w l fuel (i + (tokenAt inp w l i).length + 1)).1,
          (lzSteps inp w l fuel (i + (tokenAt inp w l i).length + 1)).2)
      else ([], i) := rfl

/-- Enough steps parse the rest of the input (rules R132, R332). -/
theorem lzSteps_parsed (fuel i : Nat) (h : inp.length ≤ i + fuel) :
    ParsedFrom inp w l i (lzSteps inp w l fuel i).1 (lzSteps inp w l fuel i).2 := by
  induction fuel generalizing i with
  | zero => exact .done i (by omega)
  | succ fuel ih =>
    rw [lzSteps_succ]
    split
    · exact .token i _ _ _ ‹_› tokenAt_best tokenAt_literal (ih _ (by omega))
    · exact .done i (by omega)

/-- The tokens of `LZMATCH` are the parse of the whole input (rule R130). -/
theorem lzTokens_parsed : ParsedFrom inp w l 0 (lzTokens inp w l).1 (lzTokens inp w l).2 :=
  lzSteps_parsed _ _ (by omega)

/-- The bounds of one token at position `i` (rules R139 to R141). -/
theorem IsBestMatch.bounds {off len : Nat} (h : IsBestMatch inp w l i off len) :
    len ≤ l ∧ len ≤ off ∧ off ≤ min w i ∧ (len = 0 ↔ off = 0) := by
  obtain ⟨-, h0, h1⟩ := h
  rcases Nat.eq_zero_or_pos len with hz | hp
  · simp [hz, h0 hz]
  · obtain ⟨j, ⟨hw, hj⟩, rfl, ha, -⟩ := h1 hp
    obtain ⟨b1, b2⟩ := ha.bounds
    have := b2 hp
    refine ⟨b1, by omega, by omega, by omega⟩

/-- A match never runs past the end of the input (rule R133 (c)). -/
theorem IsBestMatch.inside {off len : Nat} (h : IsBestMatch inp w l i off len) (hi : i < inp.length) :
    i + len ≤ inp.length := by
  rcases Nat.eq_zero_or_pos len with hz | hp
  · omega
  · obtain ⟨j, -, -, ha, -⟩ := h.2.2 hp
    exact (ha.bounds.2 hp).2

/-- A parse emits no token exactly when the input is consumed (rule R132). -/
theorem ParsedFrom.eq_nil_iff {ts : List Token} {last : Nat} (h : ParsedFrom inp w l i ts last) :
    ts = [] ↔ inp.length ≤ i := by
  cases h with
  | done _ h => simp [h]
  | token _ _ _ _ h => simp; omega

/-- What holds of a token in the middle of a parse (rules R135 to R137). -/
theorem ParsedFrom.at_token {ts : List Token} {last : Nat} (h : ParsedFrom inp w l i ts last)
    (before : List Token) (x : Token) (after : List Token) (he : ts = before ++ x :: after) :
    i + consumed before < inp.length ∧ IsBestMatch inp w l (i + consumed before) x.offset x.length ∧
    IsLiteralAt inp (i + consumed before + x.length) x.lit ∧
    ParsedFrom inp w l (i + consumed before + x.length + 1) after last := by
  induction h generalizing before with
  | done => simp at he
  | token i t rest last h1 h2 h3 h4 ih =>
    cases before with
    | nil =>
      simp only [List.nil_append, List.cons.injEq] at he
      obtain ⟨rfl, rfl⟩ := he
      simpa [consumed] using ⟨h1, h2, h3, h4⟩
    | cons b before =>
      simp only [List.cons_append, List.cons.injEq] at he
      obtain ⟨rfl, rfl⟩ := he
      have e : i + consumed (t :: before) = i + t.length + 1 + consumed before := by simp [consumed]; omega
      rw [e]
      exact ih before rfl

/-- The bounds of every token of a parse (rules R105, R139, R140). -/
theorem ParsedFrom.token_bounds {ts : List Token} {last : Nat} (h : ParsedFrom inp w l i ts last) :
    ∀ t ∈ ts, t.offset ≤ w ∧ t.length ≤ l := by
  intro t ht
  obtain ⟨before, after, he⟩ := List.append_of_mem ht
  obtain ⟨hl, -, ho, -⟩ := (h.at_token before t after he).2.1.bounds
  omega

/-- The cursor a parse ends at is where it began plus what its tokens consume (rule R143). -/
theorem ParsedFrom.last_eq {ts : List Token} {last : Nat} (h : ParsedFrom inp w l i ts last) :
    last = i + consumed ts := by
  induction h with
  | done => simp [consumed]
  | token i t rest last _ _ _ _ ih => rw [ih]; simp [consumed]; omega

/-- No token of a parse has been consumed past the input, and the cursor ends at `n` or `n + 1` (rules R142, R143). -/
theorem ParsedFrom.last_bounds {ts : List Token} {last : Nat} (h : ParsedFrom inp w l i ts last)
    (hi : i ≤ inp.length + 1) : inp.length ≤ last ∧ last ≤ inp.length + 1 := by
  induction h with
  | done i h => omega
  | token i t rest last hlt hb _ _ ih =>
    have := hb.inside hlt
    exact ih (by omega)

/-- Each step consumes at least one byte (rules R136, R145). -/
theorem ParsedFrom.count_le {ts : List Token} {last : Nat} (h : ParsedFrom inp w l i ts last) :
    ts.length ≤ inp.length - i := by
  induction h with
  | done => simp
  | token i t rest last hlt _ _ _ ih => simp only [List.length_cons]; omega

end Sys2Proof.Machine
end

