-- ==== Sys2Proof/Laws/Codecs.lean ====
section
/-! SUPPORT. The software around the core as functions: replay, the rebuilt tree, the token text, the container (rules
R251 to R272). -/

namespace Sys2Proof.Machine

/-! ### Replay (rules R262 to R264) -/

/-- A copy that ends at or before the end of the output copies that part of it (rule R263). -/
theorem copyFrom_spec (start count : Nat) (out : List Byte) (h : start + count ≤ out.length) :
    copyFrom start count out = out ++ (out.drop start).take count := by
  induction count generalizing start out with
  | zero => simp [copyFrom]
  | succ n ih =>
    rw [copyFrom, ih _ _ (by simp; omega)]
    have h1 : start < out.length := by omega
    rw [List.drop_append_of_le_length (by omega), List.take_append_of_le_length (by simp; omega)]
    rw [List.drop_eq_getElem_cons h1, List.take_succ_cons]
    simp [List.getD, h1]

/-- Replaying the steps taken from position `i` on, after the first `i` bytes, gives the input (rule R144). -/
theorem ParsedFrom.replays {inp : List Byte} {w l i : Nat} {ts : List Token} {last : Nat}
    (h : ParsedFrom inp w l i ts last) : ts.foldlM replayToken (inp.take i) = some inp := by
  induction h with
  | done i h => simp [List.take_of_length_le h]
  | token i t rest last hi hb hl hp ih =>
    have hbd := hb.bounds
    have hin := hb.inside hi
    have hlen : (inp.take i).length = i := by simp; omega
    have hstep : replayToken (inp.take i) t = some (inp.take (i + t.length + 1)) := by
      rw [replayToken, if_pos ⟨by omega, by omega⟩, copyFrom_spec _ _ _ (by omega)]
      congr 1
      have e1 : inp.take i ++ ((inp.take i).drop ((inp.take i).length - t.offset)).take t.length =
          inp.take (i + t.length) := by
        rcases Nat.eq_zero_or_pos t.length with hz | hpos
        · simp [hz]
        · obtain ⟨j, ⟨_, hj⟩, hoff, ha, -⟩ := hb.2.2 hpos
          have hb2 := ha.bounds.2 hpos
          rw [List.take_add]
          congr 1
          rw [hlen, hoff, show i - (i - j) = j by omega]
          apply List.ext_getElem?
          intro k
          by_cases hk : k < t.length
          · obtain ⟨-, h1, h2, h3⟩ := ha k hk
            simp [hk, List.getElem?_drop, h1, h3]
          · simp [hk]
      rw [e1]
      by_cases hend : i + t.length < inp.length
      · rw [hl.1 _ (List.getElem?_eq_getElem hend), appendLiteral, List.take_add_one]
        simp [hend]
      · rw [hl.2 (by omega), appendLiteral, List.take_of_length_le (by omega), List.take_of_length_le (by omega)]
    rw [List.foldlM_cons, hstep]
    exact ih

/-! ### The rebuilt tree (rules R258 to R260) -/

/-- The subtree a path leads to, 0 left, 1 right (rule R259). -/
def CodeTree.subtree : CodeTree → BitString → CodeTree
  | t, [] => t
  | t, b :: bs => (t.child b).subtree bs

theorem subtree_missing (q : BitString) : CodeTree.missing.subtree q = .missing := by
  induction q with
  | nil => rfl
  | cons b q ih => cases b <;> exact ih

theorem subtree_leaf (s : Byte) (b : Bool) (q : BitString) : (CodeTree.leaf s).subtree (b :: q) = .missing := by
  cases b <;> exact subtree_missing q

/-- Inserting a code along a path that meets no leaf and ends where nothing is adds its leaf and nothing else (rule
R258). -/
theorem insertCode_spec (s : Byte) (c : BitString) (t : CodeTree)
    (h1 : ∀ p s', p <+: c → t.subtree p ≠ .leaf s') (h2 : t.subtree c = .missing) :
    ∃ t', insertCode s c t = some t' ∧ (∀ q s', t'.subtree q = .leaf s' ↔ (q = c ∧ s' = s) ∨ t.subtree q = .leaf s') ∧
      (∀ q l r, t'.subtree q = .fork l r → (q <+: c ∧ q ≠ c) ∨ ∃ l' r', t.subtree q = .fork l' r') := by
  induction c generalizing t with
  | nil =>
    simp only [CodeTree.subtree] at h2
    subst h2
    refine ⟨.leaf s, rfl, ?_, ?_⟩
    · intro q s'
      cases q with
      | nil => simp [CodeTree.subtree, eq_comm]
      | cons b q => simp [subtree_leaf, subtree_missing]
    · intro q l r
      cases q with
      | nil => simp [CodeTree.subtree]
      | cons b q => simp [subtree_leaf]
  | cons b c ih =>
    have h0 : ∀ s', t ≠ .leaf s' := fun s' => h1 [] s' (by simp)
    obtain ⟨t', e, ha, hb⟩ := ih (t.child b) (fun p s' hp => h1 (b :: p) s' (by simpa using hp)) h2
    cases t with
    | leaf s' => exact (h0 s' rfl).elim
    | missing =>
      cases b with
      | false =>
        refine ⟨.fork t' .missing, by simp only [insertCode, CodeTree.child] at e ⊢; rw [e]; rfl, ?_, ?_⟩
        · intro q s'
          cases q with
          | nil => simp [CodeTree.subtree]
          | cons b q => cases b <;> simp [CodeTree.subtree, CodeTree.child, ha, subtree_missing]
        · intro q l r
          cases q with
          | nil => simp
          | cons b q =>
            cases b
            · intro h; have := hb q l r h; simp [CodeTree.child, subtree_missing] at this; simp [this]
            · simp [CodeTree.subtree, CodeTree.child, subtree_missing]
      | true =>
        refine ⟨.fork .missing t', by simp only [insertCode, CodeTree.child] at e ⊢; rw [e]; rfl, ?_, ?_⟩
        · intro q s'
          cases q with
          | nil => simp [CodeTree.subtree]
          | cons b q => cases b <;> simp [CodeTree.subtree, CodeTree.child, ha, subtree_missing]
        · intro q l r
          cases q with
          | nil => simp
          | cons b q =>
            cases b
            · simp [CodeTree.subtree, CodeTree.child, subtree_missing]
            · intro h; have := hb q l r h; simp [CodeTree.child, subtree_missing] at this; simp [this]
    | fork tl tr =>
      cases b with
      | false =>
        refine ⟨.fork t' tr, by simp only [insertCode, CodeTree.child] at e ⊢; rw [e]; rfl, ?_, ?_⟩
        · intro q s'
          cases q with
          | nil => simp [CodeTree.subtree]
          | cons b q => cases b <;> simp [CodeTree.subtree, CodeTree.child, ha]
        · intro q l r
          cases q with
          | nil => simp
          | cons b q =>
            cases b
            · intro h; have := hb q l r h; simpa [CodeTree.subtree] using this
            · intro h; exact .inr ⟨l, r, h⟩
      | true =>
        refine ⟨.fork tl t', by simp only [insertCode, CodeTree.child] at e ⊢; rw [e]; rfl, ?_, ?_⟩
        · intro q s'
          cases q with
          | nil => simp [CodeTree.subtree]
          | cons b q => cases b <;> simp [CodeTree.subtree, CodeTree.child, ha]
        · intro q l r
          cases q with
          | nil => simp
          | cons b q =>
            cases b
            · intro h; exact .inr ⟨l, r, h⟩
            · intro h; have := hb q l r h; simpa [CodeTree.subtree] using this

/-- No code of the table is empty or a prefix of another's (rules R196, R197). -/
def PrefixFree (table : List (Byte × BitString)) : Prop :=
  (∀ e ∈ table, e.2 ≠ []) ∧ table.Pairwise fun a b => ¬ a.2 <+: b.2 ∧ ¬ b.2 <+: a.2

/-- The leaves of the tree are exactly the table's entries, and every branching lies on the path of one. -/
def CodeTree.Holds (table : List (Byte × BitString)) (t : CodeTree) : Prop :=
  (∀ q s, t.subtree q = .leaf s ↔ (s, q) ∈ table) ∧ (∀ q l r, t.subtree q = .fork l r → q = [] ∨ ∃ e ∈ table, q <+: e.2)

theorem insert_holds {table : List (Byte × BitString)} {t : CodeTree} (h : CodeTree.Holds table t) (s : Byte)
    (c : BitString) (hc : c ≠ [])
    (hp : ∀ e ∈ table, ¬ e.2 <+: c ∧ ¬ c <+: e.2) :
    ∃ t', insertCode s c t = some t' ∧ CodeTree.Holds (table ++ [(s, c)]) t' := by
  have h1 : ∀ p s', p <+: c → t.subtree p ≠ .leaf s' := fun p s' hpre hl => (hp _ ((h.1 p s').1 hl)).1 hpre
  have h2 : t.subtree c = .missing := by
    cases hs : t.subtree c with
    | missing => rfl
    | leaf s' => exact (h1 c s' (by simp) hs).elim
    | fork l r =>
      obtain h' | ⟨e, he, hpre⟩ := h.2 _ _ _ hs
      · exact (hc h').elim
      · exact ((hp e he).2 hpre).elim
  obtain ⟨t', e, ha, hb⟩ := insertCode_spec s c t h1 h2
  refine ⟨t', e, fun q s' => ?_, fun q l r hq => ?_⟩
  · rw [ha, h.1]
    simp only [List.mem_append, List.mem_singleton, Prod.mk.injEq]
    tauto
  · obtain ⟨hpre, -⟩ | ⟨l', r', hf⟩ := hb q l r hq
    · exact .inr ⟨(s, c), by simp, hpre⟩
    · obtain h' | ⟨e, he, hpre⟩ := h.2 _ _ _ hf
      · exact .inl h'
      · exact .inr ⟨e, by simp [he], hpre⟩

theorem rebuild_from {done rest : List (Byte × BitString)} {t : CodeTree} (h : CodeTree.Holds done t)
    (hp : PrefixFree (done ++ rest)) :
    ∃ t', rest.foldlM (fun t e => insertCode e.1 e.2 t) t = some t' ∧ CodeTree.Holds (done ++ rest) t' := by
  induction rest generalizing done t with
  | nil => exact ⟨t, rfl, by simpa using h⟩
  | cons e rest ih =>
    obtain ⟨t1, e1, h1⟩ := insert_holds h e.1 e.2 (hp.1 e (by simp)) fun d hd =>
      (List.pairwise_append.1 hp.2).2.2 d hd e (by simp)
    obtain ⟨t2, e2, h2⟩ := ih (done := done ++ [e]) h1 (by simpa using hp)
    exact ⟨t2, by simp [e1, e2], by simpa using h2⟩

/-- A prefix-free table rebuilds into a tree that holds it (rule R258). -/
theorem rebuildTree_spec {table : List (Byte × BitString)} (hp : PrefixFree table) :
    ∃ t, rebuildTree table = some t ∧ CodeTree.Holds table t := by
  refine rebuild_from (done := []) ⟨?_, ?_⟩ hp
  · intro q s
    simp only [List.not_mem_nil, iff_false]
    cases q with
    | nil => simp [CodeTree.subtree, CodeTree.root]
    | cons b q => cases b <;> simp [CodeTree.subtree, CodeTree.root, CodeTree.child, subtree_missing]
  · intro q l r h
    cases q with
    | nil => exact .inl rfl
    | cons b q => cases b <;> simp [CodeTree.subtree, CodeTree.root, CodeTree.child, subtree_missing] at h

/-- The walk along one code emits its symbol and starts over (rule R259). -/
theorem decode_walk (root cur : CodeTree) (s : Byte) (c rest : BitString) (hc : c ≠ []) (hl : cur.subtree c = .leaf s)
    (hn : ∀ p s', p <+: c → p ≠ c → cur.subtree p ≠ .leaf s') (fresh : Bool) :
    decodeFrom root fresh cur (c ++ rest) = (decodeFrom root true root rest).map fun out => s :: out := by
  induction c generalizing cur fresh with
  | nil => exact (hc rfl).elim
  | cons b c ih =>
    simp only [List.cons_append, decodeFrom]
    cases c with
    | nil =>
      simp only [CodeTree.subtree] at hl
      simp [hl]
    | cons b' c =>
      cases hch : cur.child b with
      | leaf s' => exact (hn [b] s' (by simp) (by simp) (by simp [CodeTree.subtree, hch])).elim
      | missing => simp [CodeTree.subtree, hch] at hl; simp [CodeTree.child, subtree_missing] at hl
      | fork l r =>
        simp only
        rw [← hch]
        apply ih _ (by simp) hl
        intro p s' hp hne
        exact hn (b :: p) s' (by simpa using hp) (by simpa using hne)

/-- The tree that holds a table decodes what the table encodes (rules R256, R259). -/
theorem decodeBits_encode {table : List (Byte × BitString)} {t : CodeTree} (hp : PrefixFree table)
    (h : CodeTree.Holds table t) {code : Byte → Option BitString}
    (hcode : ∀ b c, code b = some c → (b, c) ∈ table) (text : List Byte) (bs : BitString)
    (he : encodeBytes code text = some bs) :
    decodeBits t bs = some text := by
  induction text generalizing bs with
  | nil => simp [encodeBytes] at he; subst he; simp [decodeBits, decodeFrom]
  | cons b text ih =>
    simp only [encodeBytes, List.mapM_cons, Option.map_eq_some_iff, Option.bind_eq_bind, Option.bind_eq_some_iff,
        Option.pure_def, Option.some.injEq] at he
    obtain ⟨cs, ⟨c, hc, cs', hcs, rfl⟩, rfl⟩ := he
    have hm := hcode b c hc
    have := ih cs'.flatten (by simp [encodeBytes, hcs])
    simp only [decodeBits, List.flatten_cons] at *
    rw [decode_walk t t b c _ (hp.1 _ hm) ((h.1 c b).2 hm) _ true, this]
    · simp
    · intro p s' hpre hne hl
      have hm' := (h.1 p s').1 hl
      have hpw := hp.2
      have : ∀ a ∈ table, ∀ b ∈ table, a ≠ b → ¬ a.2 <+: b.2 ∧ ¬ b.2 <+: a.2 := by
        intro a ha b hb hab
        obtain ⟨i, hi, rfl⟩ := List.getElem_of_mem ha
        obtain ⟨j, hj, rfl⟩ := List.getElem_of_mem hb
        rw [List.pairwise_iff_getElem] at hpw
        rcases Nat.lt_trichotomy i j with h | h | h
        · exact hpw i j hi hj h
        · subst h; exact (hab rfl).elim
        · exact ⟨(hpw j i hj hi h).2, (hpw j i hj hi h).1⟩
      exact (this _ hm' _ hm (by simp [hne])).1 hpre

/-! ### Weighted sums (rule R257) -/
theorem sum_indicator_mul (f : Byte → Nat) (x : Byte) (l : List Byte) :
    (l.map fun b => (if x == b then 1 else 0) * f b).sum = l.count x * f x := by
  induction l with
  | nil => simp
  | cons b l ih =>
    simp only [List.map_cons, List.sum_cons, ih, List.count_cons]
    by_cases h : x = b
    · subst h; simp; ring
    · simp [h, Ne.symm h]

/-- A sum over the symbols weighted by their counts is the sum over the text (rule R257). -/
theorem sum_count_mul (f : Byte → Nat) (text l : List Byte) : (l.map fun b => text.count b * f b).sum =
    (text.map fun x => l.count x * f x).sum := by
  induction text with
  | nil => induction l <;> simp_all
  | cons x text ih =>
    rw [List.map_cons, List.sum_cons, ← ih, ← sum_indicator_mul, ← List.sum_map_add]
    congr 1
    apply List.map_congr_left
    intro b _
    rw [List.count_cons]
    split <;> ring

/-! ### The token text (rules R251, R252) -/
theorem digitOfByte_digitByte (d : Nat) (h : d < 10) : digitOfByte (digitByte d) = some d := by
  have : (digitByte d).toNat = 0x30 + d := by simp [digitByte]; omega
  simp [digitOfByte, this]; omega

/-- The reading of the digits from the value `v` on. -/
def parseFrom (v : Nat) (bs : List Byte) : Option Nat :=
  bs.foldlM (fun v b => (digitOfByte b).map fun d => 10 * v + d) v

theorem parse_decimalFrom (fuel n : Nat) (h : n < fuel) (acc : List Byte) :
    parseFrom 0 (decimalFrom fuel n acc) = parseFrom n acc ∧ decimalFrom fuel n acc ≠ [] := by
  refine ⟨?_, ?_⟩
  · induction fuel generalizing n acc with
    | zero => omega
    | succ fuel ih =>
      rw [decimalFrom]
      split
      · simp only [parseFrom, List.foldlM_cons, digitOfByte_digitByte _ (Nat.mod_lt n (by omega : 10 > 0))]
        simp
        congr 1
        omega
      · rw [ih (n / 10) (by omega)]
        simp only [parseFrom, List.foldlM_cons, digitOfByte_digitByte _ (Nat.mod_lt n (by omega : 10 > 0))]
        simp
        congr 1
        omega
  · induction fuel generalizing n acc with
    | zero => omega
    | succ fuel ih =>
      rw [decimalFrom]
      split
      · simp
      · exact ih (n / 10) (by omega) _

/-- A decimal text reads back (rules R251, R252). -/
theorem parse_decimalText (n : Nat) : parseDecimal (decimalText n) = some n := by
  obtain ⟨h1, h2⟩ := parse_decimalFrom (n + 1) n (by omega) []
  rw [parseDecimal, if_neg (show decimalText n ≠ [] from h2)]
  exact h1

theorem decimal_digits (fuel n : Nat) (acc : List Byte) : ∀ b ∈ decimalFrom fuel n acc, (∃ d < 10, b =
    digitByte d) ∨ b ∈ acc := by
  induction fuel generalizing n acc with
  | zero => intro b h; exact .inr h
  | succ fuel ih =>
    rw [decimalFrom]
    intro b
    split
    · simp only [List.mem_cons]
      rintro (rfl | h)
      · exact .inl ⟨n % 10, by omega, rfl⟩
      · exact .inr h
    · intro hb
      obtain h | h := ih _ _ b hb
      · exact .inl h
      · simp only [List.mem_cons] at h
        obtain rfl | h := h
        · exact .inl ⟨n % 10, by omega, rfl⟩
        · exact .inr h

theorem decimal_not (n : Nat) : comma ∉ decimalText n ∧ semicolon ∉ decimalText n := by
  constructor <;>
  · intro h
    obtain ⟨d, hd, e⟩ | h := decimal_digits _ _ _ _ h
    · interval_cases d <;> revert e <;> decide
    · simp at h

theorem splitFirst_append (sep : Byte) (a b : List Byte) (h : sep ∉ a) : splitFirst sep (a ++ sep :: b) = some (a,
    b) := by
  induction a with
  | nil => simp [splitFirst]
  | cons x a ih =>
    simp only [List.mem_cons, not_or] at h
    simp [splitFirst, ih h.2, Ne.symm h.1]

/-- The first record of a text (rule R252). -/
theorem splitRecords_append (a b : List Byte) (h : semicolon ∉ a) : splitRecords (a ++ semicolon :: b) =
    (splitRecords b).map (a :: ·) := by
  induction a with
  | nil => simp [splitRecords]
  | cons x a ih =>
    simp only [List.mem_cons, not_or] at h
    rw [List.cons_append, splitRecords, if_neg (Ne.symm h.1), ih h.2]
    cases splitRecords b <;> rfl

/-! ### The container (rules R270, R272) -/
/-- An `int32` reads back (rule R270). -/
theorem take_int32 (n : Nat) (h : n < 2 ^ 31) (rest : List Byte) : takeInt32 (int32Bytes n ++ rest) = some (n,
    rest) := by
  simp only [int32Bytes, List.cons_append, List.nil_append, takeInt32, BitVec.toNat_ofNat]
  rw [if_pos (by omega)]
  congr 2
  omega

theorem take_bytes (a rest : List Byte) : takeBytes a.length (a ++ rest) = some (a, rest) := by
  simp [takeBytes]

theorem bit_chars (c : BitString) : (codeChars c).mapM bitOfChar = some c := by
  induction c with
  | nil => rfl
  | cons b c ih =>
    simp only [codeChars, List.map_cons, List.mapM_cons] at *
    rw [ih]
    cases b <;> rfl

theorem take_entry (e : Byte × BitString) (h : e.2.length < 2 ^ 31) (rest : List Byte) :
    takeEntry (entryBytes e ++ rest) = some (e, rest) := by
  simp only [entryBytes, List.cons_append, List.append_assoc, takeEntry]
  rw [take_int32 _ h]
  have : e.2.length = (codeChars e.2).length := by simp [codeChars]
  simp only [Option.bind_eq_bind, Option.bind_some]
  rw [this, take_bytes]
  simp only [Option.bind_some, bit_chars]
  rfl

/-- The code table reads back (rule R270). -/
theorem take_entries (es : List (Byte × BitString)) (h : ∀ e ∈ es, e.2.length < 2 ^ 31) (rest : List Byte) :
    takeEntries es.length (es.flatMap entryBytes ++ rest) = some (es, rest) := by
  induction es with
  | nil => rfl
  | cons e es ih =>
    simp only [List.length_cons, takeEntries, List.flatMap_cons, List.append_assoc]
    rw [take_entry _ (h e (by simp))]
    simp only [Option.bind_eq_bind, Option.bind_some]
    rw [ih fun x hx => h x (by simp [hx])]
    rfl

end Sys2Proof.Machine
end

