-- ==== Sys2Proof/Laws/Decode.lean ====
section
/-! SUPPORT. The fields of a command word (rule R100) and the opcode map's inverse (rule R101). -/

namespace Sys2Proof

/-- A command word is its two fields (rule R100). -/
theorem word_fields (c : Word) : zeroField c ++ opField c = c := by
  apply BitVec.eq_of_getLsbD_eq
  intro i hi
  rw [BitVec.getLsbD_append]
  by_cases h : i < 8
  · simp [h, opField]
  · have h1 : i - 8 < 24 := by omega
    have h2 : 8 + (i - 8) = i := by omega
    simp [h, zeroField, h1, h2]

/-- An opcode of the map is the opcode of the command it stands for (rule R101). -/
theorem opcode_of_commandOfOpcode {op : Byte} {i : Instr} (h : commandOfOpcode op = some i) : op = opcode i := by
  unfold commandOfOpcode at h
  split at h <;> simp only [Option.some.injEq, reduceCtorEq] at h <;> subst h <;>
    exact BitVec.eq_of_toNat_eq (by assumption)

/-- The two ways a word can be legal or not (rule R102). -/
theorem decode_eq_ok {c : Word} {i : Instr} (h : decode c = .ok i) :
    zeroField c = 0#24 ∧ commandOfOpcode (opField c) = some i := by
  unfold decode at h
  split at h
  · rename_i hz
    split at h
    · rename_i j hj
      simp only [Except.ok.injEq] at h
      exact ⟨hz, h ▸ hj⟩
    · simp at h
  · simp at h

/-- A command decodes from its own word (rules R101, R102). -/
@[simp] theorem decode_encode (i : Instr) : decode (encode i) = .ok i := by cases i <;> rfl

/-- A legal word is the word of the command it decodes to (rule R102). -/
theorem word_of_decode {c : Word} {i : Instr} (h : decode c = .ok i) : c = encode i := by
  obtain ⟨hz, hi⟩ := decode_eq_ok h
  rw [← word_fields c, hz, opcode_of_commandOfOpcode hi]
  rfl

end Sys2Proof
end

