-- ==== Sys2Proof/Laws/Invariants.lean ====
section
/-! SUPPORT. What each shared operation, command and register write does to the invariants of rule R44. -/

namespace Sys2Proof.Machine

variable {s t : State}

/-- The fields the invariants speak of, the four buffers of the capacities apart. -/
def unitsOf (s : State) :=
  (s.cfg, s.tok, s.lzPos, s.freq, s.node, s.nsym, s.root, s.code, s.pq, s.err,
    s.status.tokV, s.status.treeV, s.status.codeV, s.status.state, s.status.ever)

/-- The four buffers the host loads. -/
def buffersOf (s : State) := (s.inBuf, s.sym, s.bits, s.bytes)

/-- A change outside the units keeps the invariants if the buffers fit. -/
theorem CoreInv.of_units (h : CoreInv s) (hc : WithinCapacity t) (e : unitsOf t = unitsOf s) : CoreInv t := by
  simp only [unitsOf, Prod.mk.injEq] at e
  obtain ⟨e1, e2, e3, e4, e5, e6, e7, e8, e9, e10, e11, e12, e13, e14, e15⟩ := e
  constructor
  · rw [e1]; exact h.cfg
  · exact hc
  · rw [e4, e5, e6, e7, e12]; exact h.tree
  · rw [e4, e5, e6, e7, e12, e13]; exact h.noTree
  · rw [e4, e5, e7, e8, e12, e13]; exact h.codes
  · rw [e8, e13]; exact h.noCodes
  · rw [e2, e3, e11]; exact h.noTokens
  · rw [e1, e2]; exact h.tokens
  · rw [e9]; exact h.queue
  · rw [e10, e14]; exact h.result
  · rw [e14, e15]; exact h.sticky

/-- A change of no unit and no buffer keeps the invariants. -/
theorem CoreInv.of_same (h : CoreInv s) (e : unitsOf t = unitsOf s) (b : buffersOf t = buffersOf s) : CoreInv t := by
  refine h.of_units ?_ e
  simp only [unitsOf, buffersOf, Prod.mk.injEq] at e b
  obtain ⟨e1, e2, e3, e4, -⟩ := e
  obtain ⟨b1, b2, b3, b4⟩ := b
  constructor
  · rw [e1, b1]; exact h.capacity.inLen
  · rw [e1, b2]; exact h.capacity.symLen
  · rw [e1, b3]; exact h.capacity.bitLen
  · rw [e1, b4]; exact h.capacity.byteLen
  · rw [e1, e2]; exact h.capacity.tokCnt
  · rw [e1, e3]; exact h.capacity.cursor
  · rw [e1, e4]; exact h.capacity.counted

/-! ### Reset -/

theorem coreInv_resetWith {c : Config} (h : c.Valid) : CoreInv (State.resetWith c) where
  cfg := h
  capacity := by constructor <;> simp [State.resetWith, freqTotal_zero]
  tree := by simp [State.resetWith, Status.reset]
  noTree := by simp [State.resetWith, Status.reset]
  codes := by simp [State.resetWith, Status.reset]
  noCodes := by simp [State.resetWith]
  noTokens := by simp [State.resetWith]
  tokens := by simp [State.resetWith]
  queue := rfl
  result := by simp [State.resetWith, Status.reset]
  sticky := by simp [State.resetWith, Status.reset]

/-- The reset state meets the invariants whatever the state before (rules R320, R321). -/
theorem coreInv_resetCore (h : s.cfg.Valid) : CoreInv (resetCore s) := (coreInv_resetWith h).of_same rfl rfl

/-! ### Shared operations -/

theorem CoreInv.endDone (h : CoreInv s) : CoreInv (endDone s) :=
  { h with
    capacity := { h.capacity with }
    result := by simp [Status.ended]
    sticky := by simp [Status.ended] }

theorem CoreInv.raise (h : CoreInv s) {e : ErrCode} (he : e ≠ .ok) (info : Word) : CoreInv (raise e info s) :=
  { h with
    capacity := { h.capacity with }
    result := by simp [Status.failed, he]
    sticky := by simp [Status.failed] }

theorem CoreInv.dropPush (h : CoreInv s) : CoreInv (dropPush s) := h.of_same rfl rfl

theorem CoreInv.takeAccess (h : CoreInv s) (rest : List Access) : CoreInv (takeAccess rest s) := h.of_same rfl rfl

theorem CoreInv.reply (h : CoreInv s) (v : Word) : CoreInv (reply v s) := h.of_same rfl rfl

theorem CoreInv.emptyTokens (h : CoreInv s) : CoreInv (emptyTokens s) :=
  { h with
    capacity := { h.capacity with
      tokCnt := by simp
      cursor := by simp }
    noTokens := by simp
    tokens := by simp }

theorem CoreInv.emptyCodes (h : CoreInv s) : CoreInv (emptyCodes s) :=
  { h with
    capacity := { h.capacity with }
    noTree := fun h' => ⟨(h.noTree h').1, (h.noTree h').2.1, (h.noTree h').2.2.1, (h.noTree h').2.2.2.1, rfl⟩
    codes := by simp
    noCodes := by simp }

theorem CoreInv.emptyTree (h : CoreInv s) : CoreInv (emptyTree s) :=
  { h with
    capacity := { h.capacity with counted := by simp [freqTotal_zero] }
    tree := by simp
    noTree := by simp
    codes := by simp
    noCodes := by simp
    queue := rfl }

theorem CoreInv.emptyBits (h : CoreInv s) : CoreInv (emptyBits s) :=
  h.of_units { h.capacity with bitLen := by simp } rfl

theorem CoreInv.clearBuffers (h : CoreInv s) (v : Word) : CoreInv (clearBuffers v s) :=
  h.of_units { h.capacity with
    inLen := (length_cleared_le _ _).trans h.capacity.inLen
    symLen := (length_cleared_le _ _).trans h.capacity.symLen
    bitLen := (length_cleared_le _ _).trans h.capacity.bitLen
    byteLen := (length_cleared_le _ _).trans h.capacity.byteLen } rfl

theorem CoreInv.pushIn (h : CoreInv s) (v : Word) : CoreInv (pushIn v s) := by
  obtain ⟨hl, e⟩ | ⟨-, e⟩ := pushIn_cases v s <;> rw [e]
  · exact h.of_units { h.capacity with inLen := by simp; omega } rfl
  · exact h.dropPush

theorem CoreInv.pushSym (h : CoreInv s) (v : Word) : CoreInv (pushSym v s) := by
  obtain ⟨hl, e⟩ | ⟨-, e⟩ := pushSym_cases v s <;> rw [e]
  · exact h.of_units { h.capacity with symLen := by simp; omega } rfl
  · exact h.dropPush

theorem CoreInv.pushBit (h : CoreInv s) (v : Word) : CoreInv (pushBit v s) := by
  obtain ⟨hl, e⟩ | ⟨-, e⟩ := pushBit_cases v s <;> rw [e]
  · exact h.of_units { h.capacity with bitLen := by simp; omega } rfl
  · exact h.dropPush

theorem CoreInv.pushByte (h : CoreInv s) (v : Word) : CoreInv (pushByte v s) := by
  obtain ⟨hl, e⟩ | ⟨-, e⟩ := pushByte_cases v s <;> rw [e]
  · exact h.of_units { h.capacity with byteLen := by simp; omega } rfl
  · exact h.dropPush

/-! ### The outputs of the commands -/

theorem CoreInv.storeTokens (h : CoreInv s) : CoreInv (storeTokens (lzTokens s.inBuf s.cfg.w s.cfg.l) s) := by
  have hp := lzTokens_parsed (inp := s.inBuf) (w := s.cfg.w) (l := s.cfg.l)
  have h1 := hp.count_le
  have h2 := (hp.last_bounds (by omega)).2
  have h3 := h.capacity.inLen
  exact { h with
    capacity := { h.capacity with
      tokCnt := by simp [Machine.storeTokens]; omega
      cursor := by simp [Machine.storeTokens]; omega }
    noTokens := by simp [Machine.storeTokens]
    tokens := hp.token_bounds }

theorem CoreInv.storeTree (h : CoreInv s) (hs : s.sym ≠ []) :
    CoreInv (storeTree (countSymbols s.sym) (Machine.emptyTree s)) :=
  { h with
    capacity := { h.capacity with
      counted := by simpa [Machine.storeTree, freqTotal_countSymbols] using h.capacity.symLen }
    tree := fun _ => isTree_buildArena (leaves_pos hs)
    noTree := by simp [Machine.storeTree]
    codes := by simp [Machine.storeTree]
    noCodes := by simp [Machine.storeTree]
    queue := rfl }

theorem CoreInv.storeCodes (h : CoreInv s) (ht : s.status.treeV = true) :
    CoreInv (storeCodes (codeTable (emittedCodes s.node s.root)) (Machine.emptyCodes s)) := by
  have hT := h.tree ht
  exact { h with
    capacity := { h.capacity with }
    noTree := by intro h'; simp [Machine.storeCodes, ht] at h'
    codes := fun _ => ⟨ht, fun b => by
      rw [Option.isSome_iff_exists]
      exact (exists_congr fun c => hT.entry_codes).trans hT.hasCode, fun b c => hT.entry_codes⟩
    noCodes := by simp [Machine.storeCodes] }

theorem CoreInv.storePacked (h : CoreInv s) : CoreInv (storePacked s) := by
  have h1 := h.capacity.bitLen
  simp only [Config.bitCap] at h1
  exact h.of_units { h.capacity with byteLen := by simp [Machine.storePacked]; omega } rfl

theorem CoreInv.storeUnpacked (h : CoreInv s) (hv : s.vbc.toNat ≤ 8 * s.bytes.length) :
    CoreInv (storeUnpacked (Machine.emptyBits s)) := by
  have h1 := h.capacity.byteLen
  exact h.of_units { h.capacity with bitLen := by simp [Machine.storeUnpacked, Config.bitCap]; omega } rfl

/-! ### Commands and register writes -/

/-- Every command keeps the invariants (rule R44). -/
theorem CoreInv.exec {i : Instr} (h : CoreInv s) (he : exec i s = .next t) : CoreInv t := by
  cases i with
  | lzmatch =>
    obtain ⟨-, rfl⟩ | ⟨-, rfl⟩ := execLzmatch_cases he
    · exact h.emptyTokens.raise (by decide) _
    · exact h.emptyTokens.storeTokens.endDone
  | htree =>
    obtain ⟨-, rfl⟩ | ⟨hs, rfl⟩ := execHtree_cases he
    · exact h.emptyTree.raise (by decide) _
    · exact (h.storeTree hs).endDone
  | hcode =>
    obtain ⟨-, rfl⟩ | ⟨ht, rfl⟩ := execHcode_cases he
    · exact h.emptyCodes.raise (by decide) _
    · exact (h.storeCodes ht).endDone
  | bpack => rw [execBpack_next he]; exact h.storePacked.endDone
  | bunpack =>
    obtain ⟨-, rfl⟩ | ⟨hv, rfl⟩ := execBunpack_cases he
    · exact h.emptyBits.raise (by decide) _
    · exact (h.storeUnpacked hv).endDone
  | clear => rw [execClear_next he]; exact coreInv_resetCore h.cfg

/-- Every register write keeps the invariants. -/
theorem CoreInv.write {r : Reg} {v : Word} (h : CoreInv s) (hw : WriteEffect v s r t) : CoreInv t := by
  cases hw
  case command i hd he => exact h.exec he
  case illegal => exact h.raise (by decide) _
  case bufClr => exact h.clearBuffers v
  case inPush => exact h.pushIn v
  case symPush => exact h.pushSym v
  case bitPush => exact h.pushBit v
  case bytePush => exact h.pushByte v
  case ignored => exact h
  all_goals exact h.of_same rfl rfl

end Sys2Proof.Machine
end

