-- ==== Sys2Proof/Laws/HostRuns.lean ====
section
/-! SUPPORT. What the host's access sequences leave and answer: pushes, commands, and the reading of the core's results
through the index and data ports (rules R80, R114, R115, R255, R266, R268). -/

namespace Sys2Proof.Machine

/-- A chain of host actions succeeds when each of its parts does. -/
theorem except_bind_ok {ε α β : Type} {x : Except ε α} {f : α → Except ε β} {r : β} :
    (x >>= f) = .ok r ↔ ∃ a, x = .ok a ∧ f a = .ok r := by
  cases x <;> simp [bind, Except.bind]

/-! ### Accesses -/

theorem serve_wr (r : Reg) (v : Word) (s : State) : serve (wr r v) s = writeReg r v s := by
  simp only [wr, serve, busRefusal_offset, writeOffset_offset]

theorem serve_rd (r : Reg) (s : State) : serve (rd r) s = .next (reply (readReg s r) s) := by
  simp only [rd, serve, busRefusal_offset, readOffset_offset]

theorem serve_cmdAccess (i : Instr) (s : State) : serve (cmdAccess i) s = exec i s := by
  rw [cmdAccess, serve_wr, writeReg, runCommand, decode_encode]

/-- An access of the host keeps the invariants. -/
theorem CoreInv.serve {a : Access} {s t : State} (h : CoreInv s) (hs : serve a s = .next t) : CoreInv t := by
  cases a with
  | reset => simp only [Machine.serve, Host.Outcome.next.injEq] at hs; subst hs; exact coreInv_resetCore h.cfg
  | read w off =>
    simp only [Machine.serve] at hs
    split at hs
    · simp at hs
    · simp only [Host.Outcome.next.injEq] at hs; subst hs; exact h.reply _
  | write w off v =>
    simp only [Machine.serve] at hs
    split at hs
    · simp at hs
    · obtain ⟨r, -, he⟩ | ⟨-, rfl⟩ := writeOffset_effect hs
      · exact h.write he
      · exact h

theorem CoreInv.hostRun {as : List Access} {s t : State} (h : CoreInv s) (hs : hostRun as s = .next t) : CoreInv t := by
  induction as generalizing s with
  | nil => simp only [Machine.hostRun, Host.Outcome.next.injEq] at hs; subst hs; exact h
  | cons a as ih =>
    simp only [Machine.hostRun] at hs
    split at hs
    · exact ih (h.serve ‹_›) hs
    · simp at hs
    · simp at hs

theorem hostRun_append {as bs : List Access} {s t : State} (h : hostRun as s = .next t) :
    hostRun (as ++ bs) s = hostRun bs t := by
  induction as generalizing s with
  | nil => simp only [hostRun, Host.Outcome.next.injEq] at h; subst h; rfl
  | cons a as ih =>
    simp only [List.cons_append, hostRun] at h ⊢
    split at h
    · exact ih h
    · simp at h
    · simp at h

theorem hostAsk_ok {as : List Access} {s t : State} {vs : List Word} :
    hostAsk as s = .ok (vs, t) ↔ hostRun as s = .next t ∧ vs = t.replies.drop s.replies.length := by
  simp only [hostAsk]
  cases hostRun as s with
  | next u => simp; constructor <;> (rintro ⟨h1, h2⟩; subst_vars; simp)
  | fault r => simp
  | refused r => simp

theorem hostDo_ok {as : List Access} {s t : State} : hostDo as s = .ok t ↔ hostRun as s = .next t := by
  simp only [hostDo, hostAsk]
  cases hostRun as s <;> simp [Except.map]

theorem hostGet_eq (r : Reg) (s : State) : hostGet r s = .ok (readReg s r, reply (readReg s r) s) := by
  simp only [hostGet, hostAsk, hostRun, serve_rd]
  simp [reply, bind, Except.bind, pure, Except.pure]

/-! ### Pushes (rules R235, R236): when `HERR` is still 0 afterwards, nothing was dropped -/

theorem run_pushIn (bs : List Byte) (s : State) :
    ∃ t, hostRun (pushBytes .inPush bs) s = .next t ∧
      (t.status.herr = false → t = { s with inBuf := s.inBuf ++ bs }) := by
  induction bs generalizing s with
  | nil => exact ⟨s, rfl, by simp⟩
  | cons b bs ih =>
    simp only [pushBytes, List.map_cons, hostRun, serve_wr, writeReg] at *
    obtain ⟨-, e⟩ | ⟨-, e⟩ := pushIn_cases (byteAsWord b) s <;> rw [e]
    · obtain ⟨t, h1, h2⟩ := ih { s with inBuf := s.inBuf ++ [pushedByte (byteAsWord b)] }
      exact ⟨t, h1, fun h => by rw [h2 h]; simp [pushedByte_byteAsWord]⟩
    · obtain ⟨t, h1, h2⟩ := ih (dropPush s)
      refine ⟨t, h1, fun h => ?_⟩
      rw [h2 h] at h
      simp [Status.dropped] at h

theorem run_pushSym (bs : List Byte) (s : State) :
    ∃ t, hostRun (pushBytes .symPush bs) s = .next t ∧
      (t.status.herr = false → t = { s with sym := s.sym ++ bs }) := by
  induction bs generalizing s with
  | nil => exact ⟨s, rfl, by simp⟩
  | cons b bs ih =>
    simp only [pushBytes, List.map_cons, hostRun, serve_wr, writeReg] at *
    obtain ⟨-, e⟩ | ⟨-, e⟩ := pushSym_cases (byteAsWord b) s <;> rw [e]
    · obtain ⟨t, h1, h2⟩ := ih { s with sym := s.sym ++ [pushedByte (byteAsWord b)] }
      exact ⟨t, h1, fun h => by rw [h2 h]; simp [pushedByte_byteAsWord]⟩
    · obtain ⟨t, h1, h2⟩ := ih (dropPush s)
      refine ⟨t, h1, fun h => ?_⟩
      rw [h2 h] at h
      simp [Status.dropped] at h

theorem run_pushBits (bs : BitString) (s : State) :
    ∃ t, hostRun (pushBits bs) s = .next t ∧
      (t.status.herr = false → t = { s with bits := s.bits ++ bs }) := by
  induction bs generalizing s with
  | nil => exact ⟨s, rfl, by simp⟩
  | cons b bs ih =>
    simp only [pushBits, List.map_cons, hostRun, serve_wr, writeReg] at *
    obtain ⟨-, e⟩ | ⟨-, e⟩ := pushBit_cases (asWord b.toNat) s <;> rw [e]
    · obtain ⟨t, h1, h2⟩ := ih { s with bits := s.bits ++ [pushedBit (asWord b.toNat)] }
      exact ⟨t, h1, fun h => by rw [h2 h]; simp [pushedBit_asWord]⟩
    · obtain ⟨t, h1, h2⟩ := ih (dropPush s)
      refine ⟨t, h1, fun h => ?_⟩
      rw [h2 h] at h
      simp [Status.dropped] at h

/-! Elements that fit are all stored (rule R235). -/

theorem run_pushByte_fits (bs : List Byte) (s : State) (h : s.bytes.length + bs.length ≤ s.cfg.byteCap) :
    hostRun (pushBytes .bytePush bs) s = .next { s with bytes := s.bytes ++ bs } := by
  induction bs generalizing s with
  | nil => simp [pushBytes, hostRun]
  | cons b bs ih =>
    simp only [List.length_cons] at h
    simp only [pushBytes, List.map_cons, hostRun, serve_wr, writeReg] at *
    rw [pushByte, if_pos (by omega), ih _ (by simp; omega)]
    simp [pushedByte_byteAsWord]

theorem run_pushSym_fits (bs : List Byte) (s : State) (h : s.sym.length + bs.length ≤ s.cfg.symCap) :
    hostRun (pushBytes .symPush bs) s = .next { s with sym := s.sym ++ bs } := by
  induction bs generalizing s with
  | nil => simp [pushBytes, hostRun]
  | cons b bs ih =>
    simp only [List.length_cons] at h
    simp only [pushBytes, List.map_cons, hostRun, serve_wr, writeReg] at *
    rw [pushSym, if_pos (by omega), ih _ (by simp; omega)]
    simp [pushedByte_byteAsWord]

theorem run_pushBits_fits (bs : BitString) (s : State) (h : s.bits.length + bs.length ≤ s.cfg.bitCap) :
    hostRun (pushBits bs) s = .next { s with bits := s.bits ++ bs } := by
  induction bs generalizing s with
  | nil => simp [pushBits, hostRun]
  | cons b bs ih =>
    simp only [List.length_cons] at h
    simp only [pushBits, List.map_cons, hostRun, serve_wr, writeReg] at *
    rw [pushBit, if_pos (by omega), ih _ (by simp; omega)]
    simp [pushedBit_asWord]

/-! ### Commands (rules R26, R274, R291) -/

/-- `HERR` is bit 8 of `STATUS` (rule R26). -/
theorem herr_bit (t : Status) : t.asWord.getLsbD 8 = t.herr := by
  rcases t with ⟨st, a, b, c, d, e⟩
  cases st <;> cases a <;> cases b <;> cases c <;> cases d <;> cases e <;> rfl

theorem ErrCode.code_inj {a b : ErrCode} (h : a.code = b.code) : a = b := by
  cases a <;> cases b <;> first | rfl | (revert h; decide)

/-- A host command that succeeds found `HERR` = 0 and ran the command to its end without an error. -/
theorem hostCommand_ok {i : Instr} {s t : State} (h : hostCommand i s = .ok t) :
    s.status.herr = false ∧
    ∃ (r r' : List Word) (u : State),
      exec i { s with replies := r } = .next u ∧ u.err = .ok ∧ t = { u with replies := r' } := by
  simp only [hostCommand, checkPushes, hostGet_eq, except_bind_ok] at h
  obtain ⟨s1, ⟨⟨v, s1'⟩, hv, h1⟩, s2, h2, ⟨e, s3⟩, h3, h4⟩ := h
  simp only [Except.ok.injEq, Prod.mk.injEq] at hv
  obtain ⟨rfl, rfl⟩ := hv
  simp only at h1 h4
  split at h1
  · simp at h1
  rename_i hst
  simp only [pure, Except.pure, Except.ok.injEq] at h1
  subst h1
  simp only [Except.ok.injEq, Prod.mk.injEq] at h3
  obtain ⟨rfl, rfl⟩ := h3
  rw [hostDo_ok] at h2
  simp only [hostRun, serve_cmdAccess] at h2
  have hst' : ¬ s.status.asWord.getLsbD 8 = true := hst
  rw [herr_bit] at hst'
  refine ⟨by simpa using hst', ?_⟩
  split at h2
  · rename_i u hu
    simp only [Host.Outcome.next.injEq] at h2
    subst h2
    split at h4
    · rename_i he
      simp only [pure, Except.pure, Except.ok.injEq] at h4
      exact ⟨_, _, u, hu, ErrCode.code_inj he, h4.symm⟩
    · split at h4 <;> simp at h4
  · simp at h2
  · simp at h2

/-- A host command whose command ends without an error succeeds when `HERR` = 0. -/
theorem hostCommand_of_exec {i : Instr} {s u : State} (hh : s.status.herr = false)
    (he : exec i (reply (readReg s .status) s) = .next u) (ho : u.err = .ok) :
    hostCommand i s = .ok (reply (readReg u .err) u) := by
  have hst : ¬ (readReg s .status).getLsbD 8 = true := by
    show ¬ s.status.asWord.getLsbD 8 = true
    rw [herr_bit, hh]
    simp
  have hd : hostDo [cmdAccess i] (reply (readReg s .status) s) = .ok u :=
    hostDo_ok.2 (by simp only [hostRun, serve_cmdAccess, he])
  have hk : readReg u .err = ErrCode.ok.code := by
    show u.err.code = _
    rw [ho]
  simp only [hostCommand, checkPushes, hostGet_eq, except_bind_ok]
  exact ⟨_, ⟨_, rfl, by simp only; rw [if_neg hst]; rfl⟩, _, hd, _, rfl, by simp only [hk, if_true]; rfl⟩

/-! ### Reading results: only index registers and the host's replies move (rules R74, R234) -/

/-- `t` differs from `s` in index registers and in the host's replies only. -/
def Quiet (s t : State) : Prop :=
  t = { s with
    tokIdx := t.tokIdx, freqIdx := t.freqIdx, nodeIdx := t.nodeIdx, codeIdx := t.codeIdx, bitIdx := t.bitIdx
    byteIdx := t.byteIdx, replies := t.replies }

theorem quiet_iff {s t : State} : Quiet s t ↔ t = { s with
    tokIdx := t.tokIdx, freqIdx := t.freqIdx, nodeIdx := t.nodeIdx, codeIdx := t.codeIdx, bitIdx := t.bitIdx
    byteIdx := t.byteIdx, replies := t.replies } := Iff.rfl

theorem Quiet.refl (s : State) : Quiet s s := rfl

theorem Quiet.trans {s t u : State} (h : Quiet s t) (g : Quiet t u) : Quiet s u := by
  unfold Quiet at *
  rw [h] at g
  exact g

theorem Quiet.inv {s t : State} (g : Quiet s t) (h : CoreInv s) : CoreInv t := by
  unfold Quiet at g
  rw [g]
  exact h.of_same rfl rfl

section
variable {s t : State} (h : Quiet s t)
include h
theorem Quiet.cfg : t.cfg = s.cfg := by have e := congrArg State.cfg (quiet_iff.1 h); exact e
theorem Quiet.status : t.status = s.status := by have e := congrArg State.status (quiet_iff.1 h); exact e
theorem Quiet.tok : t.tok = s.tok := by have e := congrArg State.tok (quiet_iff.1 h); exact e
theorem Quiet.sym : t.sym = s.sym := by have e := congrArg State.sym (quiet_iff.1 h); exact e
theorem Quiet.code : t.code = s.code := by have e := congrArg State.code (quiet_iff.1 h); exact e
theorem Quiet.bits : t.bits = s.bits := by have e := congrArg State.bits (quiet_iff.1 h); exact e
theorem Quiet.bytes : t.bytes = s.bytes := by have e := congrArg State.bytes (quiet_iff.1 h); exact e
end

/-- From every state that is `s0` but for index registers and replies, the accesses answer `ans` and leave such a state. -/
def Answers (s0 : State) (as : List Access) (ans : List Word) : Prop :=
  ∀ s, Quiet s0 s → ∃ t, hostRun as s = .next t ∧ Quiet s0 t ∧ t.replies = s.replies ++ ans

theorem Answers.nil (s0 : State) : Answers s0 [] [] := fun s h => ⟨s, rfl, h, by simp⟩

theorem Answers.append {s0 : State} {a b : List Access} {x y : List Word} (h : Answers s0 a x) (g : Answers s0 b y) :
    Answers s0 (a ++ b) (x ++ y) := by
  intro s hq
  obtain ⟨t, h1, h2, h3⟩ := h s hq
  obtain ⟨u, g1, g2, g3⟩ := g t h2
  exact ⟨u, by rw [hostRun_append h1, g1], g2, by rw [g3, h3, List.append_assoc]⟩

theorem Answers.flatMap {α : Type} {s0 : State} {f : α → List Access} {g : α → List Word} (l : List α)
    (h : ∀ a ∈ l, Answers s0 (f a) (g a)) : Answers s0 (l.flatMap f) (l.flatMap g) := by
  induction l with
  | nil => exact Answers.nil s0
  | cons a l ih =>
    simp only [List.flatMap_cons]
    exact (h a (by simp)).append (ih fun x hx => h x (by simp [hx]))

/-- One answer for each element of a store, read index by index. -/
theorem Answers.store {α : Type} {s0 : State} {f : Nat → List Access} {g : α → Word} (l : List α)
    (h : ∀ k a, l[k]? = some a → Answers s0 (f k) [g a]) :
    Answers s0 ((List.range l.length).flatMap f) (l.map g) := by
  have e : ((List.range l.length).flatMap fun k => (l[k]?.map g).toList) = l.map g := by
    clear h
    induction l with
    | nil => rfl
    | cons a l ih =>
      rw [List.length_cons, List.range_succ_eq_map, List.flatMap_cons, List.flatMap_map]
      simp only [List.getElem?_cons_zero, List.getElem?_cons_succ, Option.map_some, Option.toList_some, ih]
      rfl
  rw [← e]
  refine Answers.flatMap _ fun k hk => ?_
  have hk := List.mem_range.1 hk
  simpa [hk] using h k l[k] (List.getElem?_eq_getElem hk)

theorem Answers.ask {s0 s : State} {as : List Access} {ans : List Word} (h : Answers s0 as ans) (hq : Quiet s0 s) :
    ∃ t, hostAsk as s = .ok (ans, t) ∧ Quiet s0 t := by
  obtain ⟨t, h1, h2, h3⟩ := h s hq
  exact ⟨t, hostAsk_ok.2 ⟨h1, by rw [h3]; simp⟩, h2⟩

/-- An index written and a data port read answers the element there. -/
theorem answers_port {s0 : State} {idx data : Reg} {v a : Word} (set : State → State)
    (hw : ∀ s, writeReg idx v s = .next (set s)) (hq : ∀ s, Quiet s (reply a (set s)))
    (hr : ∀ s, Quiet s0 s → readReg (set s) data = a) (hp : ∀ s, (set s).replies = s.replies) :
    Answers s0 [wr idx v, rd data] [a] := by
  intro s h
  refine ⟨reply a (set s), ?_, h.trans (hq s), by simp [reply, hp]⟩
  simp only [hostRun, serve_wr, hw, serve_rd, hr s h]

theorem answers_tok (s0 : State) (k : Nat) (hk : k < 2 ^ 32) (t : Token) (ht : s0.tok[k]? = some t) :
    Answers s0 (rdTok k) [t.asWord] := by
  refine answers_port (fun s => { s with tokIdx := asWord k }) (fun _ => rfl) (fun _ => rfl) (fun s h => ?_) fun _ => rfl
  simp only [readReg, tokDataWord, asWord, BitVec.toNat_ofNat, Nat.mod_eq_of_lt hk, h.tok, ht]

theorem answers_byte (s0 : State) (k : Nat) (hk : k < 2 ^ 32) (b : Byte) (hb : s0.bytes[k]? = some b) :
    Answers s0 (rdByte k) [byteAsWord b] := by
  refine answers_port (fun s => { s with byteIdx := asWord k }) (fun _ => rfl) (fun _ => rfl) (fun s h => ?_) fun _ => rfl
  simp only [readReg, byteDataWord, asWord, BitVec.toNat_ofNat, Nat.mod_eq_of_lt hk, h.bytes, hb]

theorem answers_bit (s0 : State) (k : Nat) (hk : k < 2 ^ 32) (b : Bool) (hb : s0.bits[k]? = some b) :
    Answers s0 (rdBit k) [asWord b.toNat] := by
  refine answers_port (fun s => { s with bitIdx := asWord k }) (fun _ => rfl) (fun _ => rfl) (fun s h => ?_) fun _ => rfl
  simp only [readReg, bitDataWord]
  simp only [asWord, BitVec.toNat_ofNat, Nat.mod_eq_of_lt hk, h.bits, hb]

/-- A list of words that encode the elements of a store decodes to the store. -/
theorem map_decode {α : Type} {f : α → Word} {g : Word → α} (l : List α) (h : ∀ a ∈ l, g (f a) = a) :
    (l.map f).map g = l := by
  rw [List.map_map]
  conv_rhs => rw [← List.map_id l]
  exact List.map_congr_left h

theorem hostTokens_eq (s : State) (h : s.tok.length < 2 ^ 32) (hb : ∀ t ∈ s.tok, t.offset ≤ 8191 ∧ t.length ≤ 31) :
    ∃ t, hostTokens s = .ok (s.tok, t) ∧ Quiet s t := by
  have hA := Answers.store (s0 := s) s.tok fun k t ht =>
    answers_tok s k (by have := (List.getElem?_eq_some_iff.1 ht).1; omega) t ht
  obtain ⟨t, h1, h2⟩ := hA.ask (s := reply (readReg s .tokCnt) s) rfl
  refine ⟨t, ?_, h2⟩
  have hn : (readReg s .tokCnt).toNat = s.tok.length := by simp [readReg, asWord]; omega
  simp only [hostTokens, hostGet_eq, bind, Except.bind, hn, h1, pure, Except.pure]
  rw [map_decode _ fun x hx => x.ofWord_asWord (hb x hx).1 (hb x hx).2]

theorem hostBytes_eq (s : State) (h : s.bytes.length < 2 ^ 32) : ∃ t, hostBytes s = .ok (s.bytes, t) ∧ Quiet s t := by
  have hA := Answers.store (s0 := s) s.bytes fun k b hb =>
    answers_byte s k (by have := (List.getElem?_eq_some_iff.1 hb).1; omega) b hb
  obtain ⟨t, h1, h2⟩ := hA.ask (s := reply (readReg s .byteLen) s) rfl
  refine ⟨t, ?_, h2⟩
  have hn : (readReg s .byteLen).toNat = s.bytes.length := by simp [readReg, asWord]; omega
  simp only [hostBytes, hostGet_eq, bind, Except.bind, hn, h1, pure, Except.pure]
  rw [map_decode _ fun x _ => pushedByte_byteAsWord x]

theorem hostBits_eq (s : State) (h : s.bits.length < 2 ^ 32) : ∃ t, hostBits s = .ok (s.bits, t) ∧ Quiet s t := by
  have hA := Answers.store (s0 := s) s.bits fun k b hb =>
    answers_bit s k (by have := (List.getElem?_eq_some_iff.1 hb).1; omega) b hb
  obtain ⟨t, h1, h2⟩ := hA.ask (s := reply (readReg s .bitLen) s) rfl
  refine ⟨t, ?_, h2⟩
  have hn : (readReg s .bitLen).toNat = s.bits.length := by simp [readReg, asWord]; omega
  simp only [hostBits, hostGet_eq, bind, Except.bind, hn, h1, pure, Except.pure]
  rw [map_decode _ fun x _ => pushedBit_asWord x]

/-! ### The code table (rules R107, R256) -/

theorem codeIdxOf_toNat (b : Byte) (w : Nat) (hw : w < 8) : (codeIdxOf b w).toNat = 256 * w + b.toNat := by
  have := b.isLt
  simp only [codeIdxOf, BitVec.toNat_append, BitVec.toNat_ofNat]
  rw [← Nat.shiftLeft_add_eq_or_of_lt (by omega), Nat.shiftLeft_eq]
  simp
  omega

/-- `CODE_LEN` of a symbol's code, if it has one. -/
def codeLenOf (c : Option BitString) : Word := (c.map codeLenWord).getD 0#32

/-- Word `w` of a symbol's code in `CODE_BITS`, if it has one. -/
def codeBitsOf (w : Nat) (c : Option BitString) : Word := (c.map fun c => codeBitsWord c w).getD 0#32

theorem answers_codeLen (s0 : State) (b : Byte) :
    Answers s0 [wr .codeIdx (codeIdxOf b 0), rd .codeLen] [codeLenOf (entry s0.code b)] := by
  refine answers_port (fun s => { s with codeIdx := codeIdxOf b 0 }) (fun _ => rfl) (fun _ => rfl) (fun s h => ?_)
    fun _ => rfl
  obtain ⟨h1, -, h3⟩ := codeIdx_fields (by omega) (codeIdxOf_toNat b 0 (by omega))
  simp only [readReg, codeLenData, selectedCode, h1, h3, h.code, if_true]
  cases entry s0.code b <;> rfl

theorem answers_codeBits (s0 : State) (b : Byte) (w : Nat) (hw : w < 8) :
    Answers s0 [wr .codeIdx (codeIdxOf b w), rd .codeBits] [codeBitsOf w (entry s0.code b)] := by
  refine answers_port (fun s => { s with codeIdx := codeIdxOf b w }) (fun _ => rfl) (fun _ => rfl) (fun s h => ?_)
    fun _ => rfl
  obtain ⟨h1, h2, h3⟩ := codeIdx_fields hw (codeIdxOf_toNat b w hw)
  simp only [readReg, codeBitsData, selectedCode, h1, h2, h3, h.code, if_true]
  cases entry s0.code b <;> rfl

theorem wordBits_codeBitsWord (c : BitString) (w : Nat) : wordBits (codeBitsWord c w) = bitWindow c (32 * w) 32 := by
  simp only [wordBits, bitWindow]
  apply List.map_congr_left
  intro r hr
  exact codeBitsWord_getLsbD c w r (List.mem_range.1 hr)

/-- The eight words of a code, cut to its length, are the code (rule R198). -/
theorem take_windows (c : BitString) (h : c.length ≤ 255) :
    ((List.range 8).flatMap fun w => bitWindow c (32 * w) 32).take c.length = c := by
  have : ∀ n, ((List.range n).flatMap fun w => bitWindow c (32 * w) 32) = bitWindow c 0 (32 * n) := by
    intro n
    induction n with
    | zero => rfl
    | succ n ih =>
      rw [List.range_succ, List.flatMap_append, ih]
      simp only [List.flatMap_singleton, bitWindow]
      rw [show 32 * (n + 1) = 32 * n + 32 by ring, List.range_add, List.map_append, List.map_map]
      simp
  rw [this]
  apply List.ext_getElem
  · simp [bitWindow]
    omega
  · intro i h1 h2
    simp [bitWindow, List.getD, h2]

theorem hostCode_eq (s : State) (b : Byte) (h : ∀ c, entry s.code b = some c → c.length ≤ 255) :
    ∃ t, hostCode b s = .ok (entry s.code b, t) ∧ Quiet s t := by
  have hA : Answers s (codeAccesses b)
      (codeLenOf (entry s.code b) :: (List.range 8).flatMap fun w => [codeBitsOf w (entry s.code b)]) :=
    (answers_codeLen s b).append (Answers.flatMap _ fun w hw => answers_codeBits s b w (List.mem_range.1 hw))
  obtain ⟨t, h1, h2⟩ := hA.ask (Quiet.refl s)
  refine ⟨t, ?_, h2⟩
  simp only [hostCode, bind, Except.bind, h1, pure, Except.pure]
  congr 2
  cases hc : entry s.code b with
  | none => simp [codeOfWords, codeLenOf]
  | some c =>
    have hl := h c hc
    have hv := codeLenWord_toNat c (by omega)
    have hv1 : (codeLenWord c).getLsbD 31 = true := by
      simp only [BitVec.getLsbD, hv, Nat.testBit_eq_decide_div_mod_eq]
      simp
      omega
    have hv2 : ((codeLenWord c).extractLsb' 0 9).toNat = c.length := by
      rw [BitVec.extractLsb'_toNat, hv]
      simp
      omega
    simp only [codeOfWords, codeLenOf, codeBitsOf, Option.map_some, Option.getD_some, hv1, if_true, hv2]
    rw [List.flatMap_assoc]
    simp only [List.flatMap_singleton, wordBits_codeBitsWord]
    rw [take_windows c hl]

theorem hostTable_eq (l : List Byte) (s : State) (h : ∀ b c, entry s.code b = some c → c.length ≤ 255) :
    ∃ t, hostTable l s = .ok (l.filterMap fun b => (entry s.code b).map fun c => (b, c), t) ∧ Quiet s t := by
  induction l generalizing s with
  | nil => exact ⟨s, rfl, Quiet.refl s⟩
  | cons b l ih =>
    obtain ⟨t, h1, h2⟩ := hostCode_eq s b (h b)
    obtain ⟨u, h3, h4⟩ := ih t (by rw [h2.code]; exact h)
    refine ⟨u, ?_, h2.trans h4⟩
    simp only [hostTable, bind, Except.bind, h1, h3, pure, Except.pure]
    rw [h2.code]
    cases hc : entry s.code b <;> simp [hc]

/-- The codes in the table as read are the codes of the core (rule R256). -/
theorem tableCode_codeEntries (code : Vector (Option BitString) 256) (b : Byte) :
    tableCode (codeEntries code) b = entry code b := by
  rw [tableCode, codeEntries]
  have : ∀ l : List Byte, List.lookup b (l.filterMap fun x => (entry code x).map fun c => (x, c)) =
      if b ∈ l then entry code b else none := by
    intro l
    induction l with
    | nil => rfl
    | cons x l ih =>
      by_cases hx : b = x
      · subst hx
        cases hc : entry code b with
        | none => simp [hc, ih]
        | some c => simp [hc]
      · cases hc : entry code x with
        | none => simp [hc, ih, hx]
        | some c => simp [hc, ih, hx, List.lookup_cons, beq_eq_false_iff_ne.2 hx]
  rw [this]
  simp

theorem PrefixFree.perm {a b : List (Byte × BitString)} (hp : PrefixFree b) (h : a.Perm b) : PrefixFree a :=
  ⟨fun e he => hp.1 e (h.mem_iff.1 he), hp.2.perm h.symm fun h => ⟨h.2, h.1⟩⟩

end Sys2Proof.Machine
end

