-- ==== Sys2Proof/Laws/PerInstr.lean ====
section
/-! SUPPORT. The family of statements made per command: its word (rules R100 to R102). -/

namespace Sys2Proof.Laws.CommandWord

/-- The word of a command has `ZERO` = 0, holds the opcode in `OP`, and decodes to the command (rules R100 to R102). -/
def Statement (i : Instr) : Prop :=
  i.wellFormed = true ∧ zeroField (encode i) = 0#24 ∧ opField (encode i) = opcode i ∧ decode (encode i) = .ok i

theorem lzmatch : Statement .lzmatch := ⟨rfl, rfl, rfl, rfl⟩
theorem htree : Statement .htree := ⟨rfl, rfl, rfl, rfl⟩
theorem hcode : Statement .hcode := ⟨rfl, rfl, rfl, rfl⟩
theorem bpack : Statement .bpack := ⟨rfl, rfl, rfl, rfl⟩
theorem bunpack : Statement .bunpack := ⟨rfl, rfl, rfl, rfl⟩
theorem clear : Statement .clear := ⟨rfl, rfl, rfl, rfl⟩

end Sys2Proof.Laws.CommandWord
end

