-- ==== Sys2Proof/Tests/Slice0.lean ====
section
/-! SUPPORT. Tests: expected results are the spec's (95_test_vectors.md and the worked examples of the rules), and, for
every statement that has hypotheses, a state and operands that meet them (`witness_<statement>`). -/

namespace Sys2Proof.Machine.Tests

open Sys2Proof Sys2Proof.Machine

/-! ### Small states -/

/-- Concrete parameters for the tests, within rules R7, R10, R70. -/
def config : Config := { base := 0x1000, w := 4096, l := 18, inCap := 12, symCap := 12, byteCap := 8 }

/-- The reset state with them. -/
def start : State := State.resetWith config

/-- `p` holds of the next state. -/
def nextMeets (o : Outcome) (p : State → Bool) : Bool :=
  match o with
  | .next t => p t
  | .fault _ => false
  | .refused _ => false

/-- The reason of a refusal. -/
def refusalOf (o : Outcome) : Option Refusal :=
  match o with
  | .next _ => none
  | .fault _ => none
  | .refused r => some r

/-- The next access of the host. -/
def withAccess (a : Access) (s : State) : State := { s with pending := [a] }

/-! ### Well-formedness (rules R7, R10, R70): each check refuses an ill-formed configuration -/

theorem test_wf_config : config.wellFormed = true := by decide
theorem test_wf_base : Config.wellFormed { config with base := 0x1080 } = false := by decide
theorem test_wf_w_low : Config.wellFormed { config with w := 0 } = false := by decide
theorem test_wf_w_high : Config.wellFormed { config with w := 8192 } = false := by decide
theorem test_wf_l : Config.wellFormed { config with l := 32 } = false := by decide
theorem test_wf_inCap_low : Config.wellFormed { config with inCap := 0 } = false := by decide
theorem test_wf_inCap_high : Config.wellFormed { config with inCap := 2147483647 } = false := by decide
theorem test_wf_symCap_low : Config.wellFormed { config with symCap := 0 } = false := by decide
theorem test_wf_symCap_high : Config.wellFormed { config with symCap := 2147483648 } = false := by decide
theorem test_wf_byteCap_low : Config.wellFormed { config with byteCap := 0 } = false := by decide
theorem test_wf_byteCap_high : Config.wellFormed { config with byteCap := 268435456 } = false := by decide

/-! ### Decoding (rules R101 to R103): every word written out -/

theorem test_decode_lzmatch : decode 0b00000000000000000000000000000001#32 = .ok .lzmatch := by decide
theorem test_decode_htree : decode 0b00000000000000000000000000000010#32 = .ok .htree := by decide
theorem test_decode_hcode : decode 0b00000000000000000000000000000011#32 = .ok .hcode := by decide
theorem test_decode_bpack : decode 0b00000000000000000000000000000100#32 = .ok .bpack := by decide
theorem test_decode_bunpack : decode 0b00000000000000000000000000000101#32 = .ok .bunpack := by decide
theorem test_decode_clear : decode 0b00000000000000000000000000001111#32 = .ok .clear := by decide
theorem test_decode_zero : decode 0x00000000#32 = .error .reservedOpcode := by decide
theorem test_decode_six : decode 0x00000006#32 = .error .reservedOpcode := by decide
theorem test_decode_reserved_high : decode 0x00000010#32 = .error .reservedOpcode := by decide
theorem test_decode_zero_field_low : decode 0x00000101#32 = .error .zeroFieldSet := by decide
theorem test_decode_zero_field_high : decode 0x80000001#32 = .error .zeroFieldSet := by decide
theorem test_decodeTableWord : decodeTableWord 32 0x0F = some .clear := by decide
theorem test_decodeTableWord_illegal : decodeTableWord 32 0x100 = none := by decide

/-! ### LZMATCH (vectors V-LZ-4, V-LZ-7) -/

theorem test_lzmatch_AAAA :
    nextMeets (exec .lzmatch { start with inBuf := [0x41#8, 0x41#8, 0x41#8, 0x41#8] }) (fun t =>
      decide (t.tok.map Token.asWord = [0x81040000#32, 0x81042001#32, 0x84002003#32]) && decide (t.lzPos = 5) &&
      decide (t.status.asWord = 0x005#32)) = true := by decide

theorem test_lzmatch_tie_takes_the_farthest :
    nextMeets (exec .lzmatch { start with
        inBuf := [0x41#8, 0x42#8, 0x43#8, 0x41#8, 0x42#8, 0x43#8, 0x41#8, 0x42#8, 0x43#8, 0x44#8] }) (fun t =>
      decide (t.tok.map Token.asWord = [0x81040000#32, 0x81080000#32, 0x810C0000#32, 0x81046003#32, 0x81104006#32]) &&
      decide (t.lzPos = 10)) = true := by decide

/-! ### HTREE (vectors V-HT-4, V-HT-7) -/

theorem test_htree_ababa :
    nextMeets (exec .htree { start with sym := [0x61#8, 0x62#8, 0x61#8, 0x62#8, 0x61#8] }) (fun t =>
      decide (t.node = [.leaf 0x61#8 3, .leaf 0x62#8 2, .internal 5 1 0]) &&
      decide (t.status.asWord = 0x009#32)) = true := by decide +kernel

/-- The merging alone, from the leaves of "aabbc". -/
theorem test_htree_tie_takes_the_lower_index :
    mergeAll 3 [.leaf 0x61#8 2, .leaf 0x62#8 2, .leaf 0x63#8 1] [0, 1, 2] =
      ([.leaf 0x61#8 2, .leaf 0x62#8 2, .leaf 0x63#8 1, .internal 3 2 0, .internal 5 1 3], [4]) := by decide

/-! ### HCODE (vectors V-HC-7, V-HC-10) -/

theorem test_hcode_aabbc :
    nextMeets (exec .hcode { start with
        node := [.leaf 0x61#8 2, .leaf 0x62#8 2, .leaf 0x63#8 1, .internal 3 2 0, .internal 5 1 3]
        nsym := 3, root := 4, status := { start.status with treeV := true } }) (fun t =>
      decide (entry t.code 0x61#8 = some [true, true]) && decide (entry t.code 0x64#8 = none)) = true := by decide +kernel

theorem test_hcode_without_tree :
    nextMeets (exec .hcode start) (fun t =>
      decide (t.err.code = 4#32) && decide (t.errInfo = 3#32) && decide (t.status.asWord = 0x202#32)) = true := by decide

/-! ### BPACK and BUNPACK (vectors V-BP-4, V-BP-6, rule R225) -/

theorem test_bpack_10110 :
    nextMeets (exec .bpack { start with bits := [true, false, true, true, false] }) (fun t =>
      decide (t.bytes = [0xB0#8]) && decide (t.vbc = 5#32)) = true := by decide

theorem test_bpack_nine_ones :
    nextMeets (exec .bpack { start with bits := List.replicate 9 true }) (fun t =>
      decide (t.bytes = [0xFF#8, 0x80#8]) && decide (t.vbc = 9#32)) = true := by decide

theorem test_bunpack_ten_bits :
    nextMeets (exec .bunpack { start with bytes := [0xB7#8, 0x40#8], vbc := 10#32 }) (fun t =>
      decide (t.bits = [true, false, true, true, false, true, true, true, false, true])) = true := by decide

theorem test_bunpack_too_few_bytes :
    nextMeets (exec .bunpack { start with bytes := [0xB7#8, 0x40#8], vbc := 17#32 }) (fun t =>
      decide (t.bits = []) && decide (t.errInfo = 17#32) && decide (t.err.code = 2#32)) = true := by decide

/-! ### CLEAR (rule R230) -/

theorem test_clear_after_error :
    nextMeets (exec .clear { start with
        err := .malformed, errInfo := 17#32, status := { start.status with state := .error, ever := true } }) (fun t =>
      decide (t.status.asWord = 0#32) && decide (t.err.code = 0#32) && decide (t.errInfo = 0#32)) = true := by decide

/-! ### Accesses (rules R72, R103, R236) and the fetch of a command -/

theorem test_step_waits : nextMeets (step start) (fun t => decide (t.pending = [])) = true := by decide

theorem test_withFetchWord :
    nextMeets (step (start.withFetchWord 32 0x03)) (fun t => decide (t.err = .sequenceError)) = true := by decide

theorem test_illegal_word :
    nextMeets (step (withAccess (.write .word 0x18 0x00000103#32) start)) (fun t =>
      decide (t.err.code = 3#32) && decide (t.errInfo = 0x103#32) && decide (t.status.asWord = 0x202#32)) = true := by decide

theorem test_push_to_full_buffer :
    nextMeets (step (withAccess (.write .word 0xA0 0x41#32) { start with bytes := List.replicate 8 0#8 })) (fun t =>
      decide (t.bytes.length = 8) && decide (t.status.asWord = 0x100#32)) = true := by decide

theorem test_narrow_access : refusalOf (step (withAccess (.read .byte 0x1C) start)) = some .unsupportedWidth := by decide
theorem test_misaligned_access : refusalOf (step (withAccess (.read .word 0x1D) start)) = some .misalignedOffset := by decide
theorem test_outside_access : refusalOf (step (withAccess (.write .word 0x100 0#32) start)) = some .outsideBlock := by decide

/-- Worked examples of rules R105, R106, R107. -/
theorem test_words :
    (Token.asWord { offset := 1, length := 1, lit := .byte 0x41#8 }) = 0x81042001#32 ∧
    (Token.asWord { offset := 3, length := 1, lit := .sentinel }) = 0x84002003#32 ∧
    (Node.leaf 0x61#8 5).info = 0x80000061#32 ∧ (Node.internal 14 0 1).info = 0x80000100#32 ∧
    (Node.internal 14 0 1).kids = 0x00010000#32 ∧ codeLenWord [true, true, false, false] = 0x80000004#32 ∧
    codeBitsWord [true, true, false, false] 0 = 0xC0000000#32 := by decide

/-! ### Witnesses: for each statement with hypotheses, a state and operands that meet them -/

theorem witness_DecodeOfEncodeIsTheCommand : Instr.wellFormed .lzmatch = true := rfl

/-- A command, the highest offset, and no access. -/
theorem witness_StepRunsTheDecodedCommand :
    decode 0x0000000F#32 = .ok .clear ∧
    (withAccess (.write .word 0x18 0x0000000F#32) start).pending = .write .word 0x18 0x0000000F#32 :: [] ∧
    (withAccess (.write .word 0xFC 0#32) start).pending = .write .word 0xFC 0#32 :: [] ∧ 0xFC < 256 ∧ 0xFC % 4 = 0 ∧
    start.pending = [] := by decide

theorem witness_IllegalWordOnlyReportsItself :
    (∀ c ∈ [0x00000000#32, 0x00000006#32, 0x00000010#32, 0x00000100#32, 0xFFFFFFFF#32],
      c.toNat ∉ [0x01, 0x02, 0x03, 0x04, 0x05, 0x0F]) ∧
    (withAccess (.write .word 0x18 0x00000000#32) start).pending = .write .word 0x18 0x00000000#32 :: [] :=
  ⟨by simp, rfl⟩

/-- `LZMATCH` on a non-empty input: `LzmatchParsesTheInput`, `ReplayOfTokensIsTheInput`, `TokenOffsetsAndLengthsBounded`,
`SentinelOnlyLastAndCursorAtEnd`, `TokenCountBounds` (its last clause: an input without a repetition). -/
theorem witness_LzmatchParsesTheInput :
    ({ start with inBuf := [0x41#8, 0x42#8] } : State).inBuf ≠ [] ∧
    ({ start with inBuf := [0x41#8, 0x42#8] } : State).inBuf.Nodup := by decide

theorem witness_LzmatchOnEmptyInputFails : start.inBuf = [] := rfl

/-- `HTREE` on a non-empty input: `HtreeBuildsATree`, `HtreeLeavesAscend`, `HtreeMergesTheTwoLeast`,
`NodeFrequencyCountsItsLeaves`, `HtreeIgnoresTheOrderOfSymbols`. -/
theorem witness_HtreeBuildsATree :
    ({ start with sym := [0x61#8, 0x62#8] } : State).sym ≠ [] ∧
    [0x62#8, 0x61#8].Perm ({ start with sym := [0x61#8, 0x62#8] } : State).sym := by decide

theorem witness_HtreeOnEmptyInputFails : start.sym = [] := rfl

/-- The state after pushing two symbols. -/
def twoSymbols : State := { start with sym := [0x61#8, 0x62#8] }

/-- The state after `HTREE` on two symbols. -/
def treeBuilt : State := endDone (storeTree (countSymbols twoSymbols.sym) (emptyTree twoSymbols))

/-- The state after `HTREE` and `HCODE` on two symbols. -/
def codesBuilt : State := endDone (storeCodes (codeTable (emittedCodes treeBuilt.node treeBuilt.root)) (emptyCodes treeBuilt))

theorem coreInv_start : CoreInv start := coreInv_resetWith (by decide)

theorem coreInv_twoSymbols : CoreInv twoSymbols :=
  coreInv_start.of_units { coreInv_start.capacity with symLen := by decide } rfl

theorem exec_htree_twoSymbols : exec .htree twoSymbols = .next treeBuilt := rfl

theorem exec_hcode_treeBuilt : exec .hcode treeBuilt = .next codesBuilt := rfl

theorem coreInv_treeBuilt : CoreInv treeBuilt := coreInv_twoSymbols.exec exec_htree_twoSymbols

theorem coreInv_codesBuilt : CoreInv codesBuilt := coreInv_treeBuilt.exec exec_hcode_treeBuilt

theorem witness_HcodeReadsOffThePaths : CoreInv treeBuilt ∧ treeBuilt.status.treeV = true := ⟨coreInv_treeBuilt, rfl⟩

theorem witness_HcodeWithoutTreeFails : start.status.treeV = false := rfl

/-- `CodesArePrefixFree`, `CodesFillTheTree`, `RebuiltTreeDecodesTheEncoding`, `EveryNumberFitsItsRegister`,
`RegistersReadWhatTheyHold`. -/
theorem witness_CodesFillTheTree : CoreInv codesBuilt ∧ codesBuilt.status.codeV = true ∧ 2 ≤ codesBuilt.nsym :=
  ⟨coreInv_codesBuilt, rfl, by
    show 2 ≤ (leavesOf (countSymbols twoSymbols.sym)).length
    rw [leavesOf_eq, List.length_map]
    have h : [0x61#8, 0x62#8].Sublist (symbols.filter fun b => decide (0 < entry (countSymbols twoSymbols.sym) b)) := by
      have h1 : [0x61#8, 0x62#8].Sublist symbols := by decide +kernel
      have h2 := h1.filter fun b => decide (0 < entry (countSymbols twoSymbols.sym) b)
      have h3 : ∀ b ∈ [0x61#8, 0x62#8], decide (0 < entry (countSymbols twoSymbols.sym) b) = true := fun b hb =>
        decide_eq_true (by rw [entry_countSymbols]; exact List.count_pos_iff.2 hb)
      rwa [List.filter_eq_self.2 h3] at h2
    exact h.length_le⟩

/-- `EveryNumberFitsItsRegister`, `RegistersReadWhatTheyHold` in a state that holds tokens. -/
theorem witness_EveryNumberFitsItsRegister :
    ∃ t, exec .lzmatch { start with inBuf := [0x41#8, 0x41#8] } = .next t ∧ CoreInv t ∧ t.tok ≠ [] ∧ t.lzPos = 3 := by
  have hs : CoreInv { start with inBuf := [0x41#8, 0x41#8] } :=
    coreInv_start.of_units { coreInv_start.capacity with inLen := by decide } rfl
  exact ⟨_, rfl, hs.exec (i := .lzmatch) rfl, by decide, by decide⟩

/-- Five bits, and none, for `BpackPacksTheBits` and `PackThenUnpackIsIdentity`. -/
theorem witness_BpackPacksTheBits :
    ({ start with bits := [true, false, true, true, false] } : State).bits.length < 2 ^ 32 ∧
    ({ start with bits := [true, false, true, true, false] } : State).bits.length ≤ start.cfg.bitCap ∧
    start.bits.length ≤ start.cfg.bitCap ∧ start.cfg.Valid := by decide

/-- `BunpackExpandsTheBytes` and `UnpackThenPackZeroesThePadding`: all bits of the bytes, none, and some. -/
theorem witness_BunpackExpandsTheBytes :
    (16#32).toNat ≤ 8 * ({ start with bytes := [0xB7#8, 0x40#8], vbc := 16#32 } : State).bytes.length ∧
    (0#32).toNat ≤ 8 * start.bytes.length ∧
    (10#32).toNat ≤ 8 * ({ start with bytes := [0xB7#8, 0x40#8], vbc := 10#32 } : State).bytes.length := by decide

/-- One bit more than the bytes hold, and a count with bit 31 set. -/
theorem witness_BunpackOfTooFewBytesFails :
    8 * ({ start with bytes := [0xB7#8, 0x40#8], vbc := 17#32 } : State).bytes.length < (17#32).toNat ∧
    8 * ({ start with vbc := 0x80000000#32 } : State).bytes.length < (0x80000000#32).toNat := by decide

theorem witness_BusRefusesExactlyTheUnsupported :
    (withAccess (.read .half 0x1C) start).pending = .read .half 0x1C :: [] ∧
    (withAccess (.write .word 0xFC 0#32) start).pending = .write .word 0xFC 0#32 :: [] := by decide

theorem witness_EverySupportedStepCompletes : ∀ a ∈ (withAccess (.read .word 0xFC) start).pending.head?, a.Supported := by
  simp [withAccess, Access.Supported]

/-- The lowest and the highest offset. -/
theorem witness_ReadsChangeNoState :
    (withAccess (.read .word 0x00) start).pending = .read .word 0x00 :: [] ∧
    (withAccess (.read .word 0xFC) start).pending = .read .word 0xFC :: [] ∧ 0xFC < 256 ∧ 0xFC % 4 = 0 := by decide

/-- A register or an offset for each clause. -/
theorem witness_IgnoredWritesAndZeroReads :
    Reg.rights .status = .readOnly ∧ Reg.rights .cmd = .writeOnly ∧ (0x2C ∈ [0x2C, 0x48, 0x4C, 0x7C, 0x8C]) ∧
    (0xB4 ≤ 0xB4 ∧ 0xB4 ≤ 0xFC) ∧ (0xB4 ≤ 0xFC ∧ 0xFC ≤ 0xFC) := by decide

/-- One place left in each buffer. -/
theorem witness_PushAppendsOneElement :
    ({ start with inBuf := List.replicate 11 0#8 } : State).inBuf.length < start.cfg.inCap ∧
    ({ start with sym := List.replicate 11 0#8 } : State).sym.length < start.cfg.symCap ∧
    ({ start with bits := List.replicate 63 false } : State).bits.length < 8 * start.cfg.byteCap ∧
    ({ start with bytes := List.replicate 7 0#8 } : State).bytes.length < start.cfg.byteCap := by decide

/-- Each buffer full. -/
theorem witness_PushToAFullBufferIsDropped :
    start.cfg.inCap ≤ ({ start with inBuf := List.replicate 12 0#8 } : State).inBuf.length ∧
    start.cfg.symCap ≤ ({ start with sym := List.replicate 12 0#8 } : State).sym.length ∧
    8 * start.cfg.byteCap ≤ ({ start with bits := List.replicate 64 false } : State).bits.length ∧
    start.cfg.byteCap ≤ ({ start with bytes := List.replicate 8 0#8 } : State).bytes.length := by decide

/-- Every index just out of range. -/
theorem witness_OutOfRangeIndexReadsZero :
    start.tok.length ≤ start.tokIdx.toNat ∧ 256 ≤ ({ start with freqIdx := 256#32 } : State).freqIdx.toNat ∧
    start.node.length ≤ start.nodeIdx.toNat ∧ ({ start with codeIdx := 2048#32 } : State).codeIdx.toNat / 2048 ≠ 0 ∧
    entry start.code (BitVec.ofNat 8 start.codeIdx.toNat) = none ∧ start.bits.length ≤ start.bitIdx.toNat ∧
    start.bytes.length ≤ start.byteIdx.toNat :=
  ⟨by decide, by decide, by decide, by decide, entry_symbolTable _ _, by decide, by decide⟩

/-- A token with the largest offset and length, and one with the sentinel. -/
theorem witness_TokenWordHoldsTheToken :
    ({ start with tok := [⟨8191, 31, .byte 0xFF#8⟩] } : State).tok[start.tokIdx.toNat]? = some ⟨8191, 31, .byte 0xFF#8⟩ ∧
    ({ start with tok := [⟨1, 1, .sentinel⟩] } : State).tok[start.tokIdx.toNat]? = some ⟨1, 1, .sentinel⟩ := by decide

theorem witness_NodeWordsHoldTheNode :
    ({ start with node := [.leaf 0x61#8 4294967295] } : State).node[start.nodeIdx.toNat]? =
      some (.leaf 0x61#8 4294967295) ∧ 4294967295 < 2 ^ 32 ∧
    ({ start with node := [.internal 14 511 0] } : State).node[start.nodeIdx.toNat]? = some (.internal 14 511 0) ∧
    14 < 2 ^ 32 ∧ 511 < 512 ∧ 0 < 512 := by decide

/-- The last word of the last symbol's code. -/
theorem witness_CodeWordsHoldTheCode :
    (7 < 8) ∧ ({ start with codeIdx := 0x7FF#32 } : State).codeIdx.toNat = 256 * 7 + (0xFF#8).toNat ∧
    entry (symbolTable fun _ => some (List.replicate 255 true)) 0xFF#8 = some (List.replicate 255 true) ∧
    (List.replicate 255 true).length < 512 :=
  ⟨by decide, by decide, entry_symbolTable _ _, by rw [List.length_replicate]; omega⟩

theorem witness_FreqBitAndByteReadTheirElement :
    ({ start with freqIdx := 255#32 } : State).freqIdx.toNat = (255#8).toNat ∧
    entry (symbolTable fun _ => 4294967295) 255#8 < 2 ^ 32 ∧
    ({ start with bits := [true] } : State).bits[start.bitIdx.toNat]? = some true ∧
    ({ start with bytes := [0xFF#8] } : State).bytes[start.byteIdx.toNat]? = some 0xFF#8 :=
  ⟨by decide, by rw [entry_symbolTable]; decide, by decide, by decide⟩

/-- The command `HTREE` at the front of the host's queue, in a state that meets the invariants. -/
def aboutToBuild : State := withAccess (.write .word 0x18 0x00000002#32) twoSymbols

theorem step_aboutToBuild : step aboutToBuild = .next treeBuilt := rfl

theorem not_wipes {s : State} {a : Access} (hp : s.pending.head? = some a) (h1 : a ≠ .reset)
    (h2 : a ≠ .write .word Reg.cmd.offset (encode .clear)) : ¬ NextWipes s := by
  rintro (h | h)
  · rw [NextIs, hp] at h
    exact h1 (Option.some.inj h)
  · rw [NextRuns, NextWrites, NextIs, hp] at h
    exact h2 (Option.some.inj h)

/-- `EveryStepKeepsTheInvariants`, `ParametersNeverChange`. -/
theorem witness_EveryStepKeepsTheInvariants : CoreInv aboutToBuild ∧ step aboutToBuild = .next treeBuilt :=
  ⟨coreInv_twoSymbols.of_same rfl rfl, step_aboutToBuild⟩

theorem witness_ReachableStatesMeetTheInvariants : config.Valid ∧ Reachable config start := ⟨by decide, .reset⟩

/-- A command: `IndexRegistersMoveOnlyByWrites`, `StoresChangeOnlyByTheirWriters`, `FlagsChangeAsTheTableSays`. -/
theorem witness_StoresChangeOnlyByTheirWriters :
    step aboutToBuild = .next treeBuilt ∧ ¬ NextWipes aboutToBuild ∧ NextRuns aboutToBuild .htree :=
  ⟨step_aboutToBuild, not_wipes (a := .write .word 0x18 0x00000002#32) rfl (by decide) (by decide), rfl⟩

/-- An index write moves its index register. -/
theorem witness_IndexRegistersMoveOnlyByWrites :
    step (withAccess (.write .word 0xA8 7#32) start) = .next { start with byteIdx := 7#32 } ∧
    ¬ NextWipes (withAccess (.write .word 0xA8 7#32) start) ∧
    NextWrites (withAccess (.write .word 0xA8 7#32) start) .byteIdx 7#32 :=
  ⟨rfl, not_wipes (a := .write .word 0xA8 7#32) rfl (by decide) (by decide), rfl⟩

/-- A dropped push sets `HERR`, which was 0; a state with both sticky flags set. -/
theorem witness_FlagsChangeAsTheTableSays :
    nextMeets (step (withAccess (.write .word 0xA0 0#32) { start with bytes := List.replicate 8 0#8 }))
      (fun t => t.status.herr) = true ∧
    ¬ NextWipes (withAccess (.write .word 0xA0 0#32) { start with bytes := List.replicate 8 0#8 }) ∧
    nextMeets (step { start with status := { start.status with herr := true, ever := true } })
      (fun t => t.status.herr && t.status.ever) = true :=
  ⟨by decide, not_wipes (a := .write .word 0xA0 0#32) rfl (by decide) (by decide), by decide⟩

/-- A success, each error, and `CLEAR`. -/
theorem witness_CommandsEndAsListed :
    (∃ t, exec .bpack start = .next t ∧ t.err = .ok) ∧ (∃ t, exec .clear start = .next t ∧ t.status.state = .idle) ∧
    (∃ t, exec .lzmatch start = .next t ∧ t.err = .emptyInput) ∧ (∃ t, exec .htree start = .next t ∧ t.err = .emptyInput) ∧
    (∃ t, exec .hcode start = .next t ∧ t.err = .sequenceError) ∧
    ∃ t, exec .bunpack { start with vbc := 1#32 } = .next t ∧ t.err = .malformed :=
  ⟨⟨_, rfl, rfl⟩, ⟨_, rfl, rfl⟩, ⟨_, rfl, rfl⟩, ⟨_, rfl, rfl⟩, ⟨_, rfl, rfl⟩, ⟨_, rfl, rfl⟩⟩

/-- The four commands that can fail, failing. -/
theorem witness_ErrorsLeaveNoPartialOutput :
    (∃ t, exec .lzmatch start = .next t ∧ t.err ≠ .ok) ∧ (∃ t, exec .htree treeBuilt = .next t ∧ t.err = .ok) ∧
    (∃ t, exec .htree start = .next t ∧ t.err ≠ .ok) ∧ (∃ t, exec .hcode start = .next t ∧ t.err ≠ .ok) ∧
    ∃ t, exec .bunpack { start with vbc := 1#32 } = .next t ∧ t.err ≠ .ok :=
  ⟨⟨_, rfl, by decide⟩, ⟨_, rfl, rfl⟩, ⟨_, rfl, by decide⟩, ⟨_, rfl, by decide⟩, ⟨_, rfl, by decide⟩⟩

/-- One distinct byte with the code "0" (rule R203). -/
theorem witness_EncodedLengthIsTheWeightedSum :
    (∀ b, entry (countSymbols [0x7A#8, 0x7A#8]) b = [0x7A#8, 0x7A#8].count b) ∧
    encodeBytes (entry (symbolTable fun _ => some [false])) [0x7A#8, 0x7A#8] = some [false, false] ∧
    (∀ x ∈ [0x7A#8, 0x7A#8], x = 0x7A#8) ∧ entry (symbolTable fun _ => some [false]) 0x7A#8 = some [false] :=
  ⟨fun b => entry_countSymbols _ b, by simp [encodeBytes], by decide, entry_symbolTable _ _⟩

theorem witness_RebuiltTreeDecodesTheEncoding : CoreInv codesBuilt ∧ codesBuilt.status.codeV = true :=
  ⟨coreInv_codesBuilt, rfl⟩

/-- The tokens of "AAAA" (rule R149), and a literal comma. -/
theorem witness_LegacyTokenTextReadsBack :
    ∀ t ∈ ([⟨0, 0, .byte 0x41#8⟩, ⟨1, 1, .byte 0x2C#8⟩, ⟨3, 1, .sentinel⟩] : List Token),
      t.lit ≠ .byte semicolon ∧ t.lit ≠ .byte 0#8 := by decide

theorem witness_ContainerReadsBack :
    ({ validBitCount := 5, codeTable := [(0x61#8, [true])], payload := [0xB0#8] } : Container).validBitCount < 2 ^ 31 ∧
    ({ validBitCount := 5, codeTable := [(0x61#8, [true])], payload := [0xB0#8] } : Container).codeTable.length < 2 ^ 31 ∧
    ({ validBitCount := 5, codeTable := [(0x61#8, [true])], payload := [0xB0#8] } : Container).payload.length < 2 ^ 31 ∧
    ∀ e ∈ ({ validBitCount := 5, codeTable := [(0x61#8, [true])], payload := [0xB0#8] } : Container).codeTable,
      e.2.length < 2 ^ 31 := by decide

/-! ### A codec that reads back every token sequence, and a run of `compress` with it -/

/-- A natural number in unary: that many ones, then a zero. -/
def unary (n : Nat) (rest : List Byte) : List Byte := List.replicate n 1#8 ++ 0#8 :: rest

/-- A number read back from unary. -/
def takeUnary : List Byte → Option (Nat × List Byte)
  | [] => none
  | b :: rest => if b = 0#8 then some (0, rest) else (takeUnary rest).map fun r => (r.1 + 1, r.2)

theorem takeUnary_unary (n : Nat) (rest : List Byte) : takeUnary (unary n rest) = some (n, rest) := by
  induction n with
  | zero => rfl
  | succ n ih =>
    have : unary (n + 1) rest = 1#8 :: unary n rest := by simp [unary, List.replicate_succ]
    rw [this, takeUnary, if_neg (by decide), ih]
    rfl

/-- A token in front of what follows it. -/
def unaryToken (t : Token) (rest : List Byte) : List Byte :=
  unary t.offset (unary t.length (match t.lit with
    | .byte b => 0#8 :: b :: rest
    | .sentinel => 1#8 :: rest))

/-- A token read back. -/
def takeToken (bs : List Byte) : Option (Token × List Byte) := do
  let (off, bs) ← takeUnary bs
  let (len, bs) ← takeUnary bs
  match bs with
  | [] => none
  | k :: rest =>
    if k = 0#8 then
      match rest with
      | [] => none
      | b :: rest => some ({ offset := off, length := len, lit := .byte b }, rest)
    else some ({ offset := off, length := len, lit := .sentinel }, rest)

theorem takeToken_unaryToken (t : Token) (rest : List Byte) : takeToken (unaryToken t rest) = some (t, rest) := by
  obtain ⟨off, len, lit⟩ := t
  cases lit <;> simp [takeToken, unaryToken, takeUnary_unary]

/-- The tokens read back. -/
def takeTokens : Nat → List Byte → Option (List Token)
  | _, [] => some []
  | 0, _ :: _ => none
  | n + 1, b :: bs =>
    match takeToken (b :: bs) with
    | none => none
    | some (t, rest) => (takeTokens n rest).map fun ts => t :: ts

/-- Tokens one after another. -/
def unaryTokens (ts : List Token) : List Byte := ts.foldr unaryToken []

theorem length_unaryTokens (ts : List Token) : ts.length ≤ (unaryTokens ts).length := by
  induction ts with
  | nil => simp [unaryTokens]
  | cons t ts ih =>
    have : unaryTokens (t :: ts) = unaryToken t (unaryTokens ts) := rfl
    rw [this]
    obtain ⟨off, len, lit⟩ := t
    cases lit <;> simp [unaryToken, unary] <;> omega

theorem takeTokens_unaryTokens (ts : List Token) (n : Nat) (h : ts.length ≤ n) : takeTokens n (unaryTokens ts) = some ts := by
  induction ts generalizing n with
  | nil => cases n <;> rfl
  | cons t ts ih =>
    cases n with
    | zero => simp at h
    | succ n =>
      have e : unaryTokens (t :: ts) = unaryToken t (unaryTokens ts) := rfl
      have hne : ∃ b bs, unaryToken t (unaryTokens ts) = b :: bs := by
        obtain ⟨off, len, lit⟩ := t
        cases off <;> simp [unaryToken, unary, List.replicate_succ]
      obtain ⟨b, bs, hb⟩ := hne
      have := takeToken_unaryToken t (unaryTokens ts)
      rw [e, hb, takeTokens, ← hb, this]
      simp only
      rw [ih n (by simpa using h)]
      rfl

/-- A codec that reads back every token sequence. -/
def unaryCodec : TokenCodec where
  write := unaryTokens
  read bs := takeTokens bs.length bs

theorem unaryCodec_unambiguous : unaryCodec.Unambiguous := fun ts =>
  takeTokens_unaryTokens ts _ (length_unaryTokens ts)

/-- Parameters whose `BITS` holds any encoding of four symbols. -/
def roomy : State := State.resetWith { config with byteCap := 128 }

/-- After `CLEAR` and the push of the byte 0x41. -/
def loaded : State := { roomy with inBuf := [0x41#8] }

/-- After `LZMATCH`. -/
def matched : State :=
  endDone (storeTokens (lzTokens loaded.inBuf 4096 18) (emptyTokens (reply (readReg loaded .status) loaded)))

/-- The token text. -/
def text : List Byte := [0#8, 0#8, 0#8, 0x41#8]

/-- The code table the two tree commands give for a sequence of symbols. -/
def codesOf (sym : List Byte) : Vector (Option BitString) 256 :=
  codeTable (emittedCodes (buildArena (countSymbols sym)).1 (rootOf (buildArena (countSymbols sym))))

theorem codesOf_short {sym : List Byte} (hs : sym ≠ []) {b : Byte} {c : BitString} (h : entry (codesOf sym) b = some c) :
    c.length ≤ 255 :=
  have hT := isTree_buildArena (leaves_pos hs)
  hT.code_length_le (hT.entry_codes.1 h)

theorem codesOf_some {sym : List Byte} {b : Byte} (h : b ∈ sym) : ∃ c, entry (codesOf sym) b = some c :=
  have hT := isTree_buildArena (leaves_pos (List.ne_nil_of_mem h))
  (hT.hasCode.2 (by rw [entry_countSymbols]; exact List.count_pos_iff.2 h)).imp fun _ hc => hT.entry_codes.2 hc

/-- The code table of the text. -/
def textCodes : Vector (Option BitString) 256 := codesOf text

theorem textCodes_short {b : Byte} {c : BitString} (h : entry textCodes b = some c) : c.length ≤ 255 :=
  codesOf_short (sym := text) (List.cons_ne_nil _ _) h

theorem textCodes_some {b : Byte} (h : b ∈ text) : ∃ c, entry textCodes b = some c := codesOf_some h

theorem encode_text : ∃ bs, encodeBytes (entry textCodes) text = some bs ∧ bs.length ≤ 1020 := by
  have key : ∀ l : List Byte, (∀ b ∈ l, b ∈ text) →
      ∃ bs, encodeBytes (entry textCodes) l = some bs ∧ bs.length ≤ 255 * l.length := by
    intro l
    induction l with
    | nil => exact fun _ => ⟨[], rfl, by simp⟩
    | cons b l ih =>
      intro h
      obtain ⟨c, hc⟩ := textCodes_some (h b (by simp))
      obtain ⟨bs, hbs, hl⟩ := ih fun x hx => h x (by simp [hx])
      have := textCodes_short hc
      simp only [encodeBytes, Option.map_eq_some_iff] at hbs ⊢
      obtain ⟨cs, hcs, rfl⟩ := hbs
      exact ⟨c ++ cs.flatten, ⟨c :: cs, by simp [hc, hcs], by simp⟩, by simp at hl ⊢; omega⟩
  exact key text fun _ h => h

theorem compress_succeeds : ∃ r, compress unaryCodec id [0x41#8] roomy = .ok r := by
  obtain ⟨bs, hbs, hlen⟩ := encode_text
  have h1 : hostDo (cmdAccess .clear :: pushBytes .inPush [0x41#8]) roomy = .ok loaded := rfl
  have h2 := hostCommand_of_exec (i := .lzmatch) (s := loaded) (u := matched) rfl rfl rfl
  obtain ⟨s3, h3, q3⟩ := hostTokens_eq (reply (readReg matched .err) matched) (by decide) (by decide)
  have e3 : unaryCodec.write (reply (readReg matched .err) matched).tok = text := by decide
  have hsym : s3.sym = [] := q3.sym.trans rfl
  have hbits : s3.bits = [] := q3.bits.trans rfl
  have hcfg : s3.cfg = roomy.cfg := q3.cfg.trans rfl
  have hherr : s3.status.herr = false := by rw [q3.status]; rfl
  have h4 : hostDo (pushBytes .symPush text) s3 = .ok { s3 with sym := text } := by
    rw [hostDo_ok, run_pushSym_fits _ _ (by rw [hsym, hcfg]; decide), hsym]
    rfl
  generalize hs4 : ({ s3 with sym := text } : State) = s4 at h4
  have g4 : s4.sym = text ∧ s4.bits = [] ∧ s4.cfg = roomy.cfg ∧ s4.status.herr = false := by
    rw [← hs4]; exact ⟨rfl, hbits, hcfg, hherr⟩
  have h5 : hostCommand .htree s4 = .ok _ := hostCommand_of_exec (s := s4) g4.2.2.2
    (by simp only [exec, execHtree]; rw [if_neg (by simp [g4.1, text])]) rfl
  generalize hs5 : reply _ (endDone (storeTree _ (emptyTree _))) = s5 at h5
  have g5 : s5.bits = [] ∧ s5.cfg = roomy.cfg ∧ s5.status.herr = false ∧ s5.status.treeV = true ∧
      s5.node = (buildArena (countSymbols text)).1 ∧ s5.root = rootOf (buildArena (countSymbols text)) := by
    rw [← hs5]
    simp [storeTree, g4, Status.ended]
  have h6 : hostCommand .hcode s5 = .ok _ := hostCommand_of_exec (s := s5) g5.2.2.1
    (by simp only [exec, execHcode]; rw [if_pos (show (reply _ s5).status.treeV = true from g5.2.2.2.1)]) rfl
  generalize hs6 : reply _ (endDone (storeCodes _ (emptyCodes _))) = s6 at h6
  have g6 : s6.bits = [] ∧ s6.cfg = roomy.cfg ∧ s6.status.herr = false ∧ s6.code = textCodes := by
    rw [← hs6]
    simp [storeCodes, g5, textCodes, codesOf, Status.ended]
  obtain ⟨s7, h7, q7⟩ := hostTable_eq symbols s6 fun b c hc => by
    rw [g6.2.2.2] at hc
    exact textCodes_short hc
  have h8 : encodeBytes (tableCode (codeEntries s6.code)) text = some bs := by
    rw [funext (tableCode_codeEntries s6.code), g6.2.2.2]
    exact hbs
  have h9 : hostDo (pushBits bs) s7 = .ok { s7 with bits := bs } := by
    rw [hostDo_ok, run_pushBits_fits _ _ (by
      have hcap : roomy.cfg.bitCap = 1024 := by decide
      rw [q7.bits, q7.cfg, g6.1, g6.2.1, hcap, List.length_nil]
      omega), q7.bits, g6.1]
    rfl
  have h10 := hostCommand_of_exec (i := .bpack) (s := { s7 with bits := bs })
    (by show s7.status.herr = false; rw [q7.status]; exact g6.2.2.1) rfl rfl
  generalize hs10 : reply _ (endDone (storePacked _)) = s10 at h10
  obtain ⟨s11, h11, -⟩ := hostBytes_eq (reply (readReg s10 .vbc) s10) (by rw [← hs10]; simp [storePacked]; omega)
  refine ⟨(containerBytes ⟨(readReg s10 .vbc).toNat, codeEntries s6.code, s10.bytes⟩, s11), ?_⟩
  rw [compress, except_bind_ok]
  refine ⟨_, h1, ?_⟩
  rw [except_bind_ok]
  refine ⟨_, h2, ?_⟩
  rw [except_bind_ok]
  refine ⟨_, h3, ?_⟩
  simp only [e3]
  rw [except_bind_ok]
  refine ⟨_, h4, ?_⟩
  rw [except_bind_ok]
  refine ⟨_, h5, ?_⟩
  rw [except_bind_ok]
  refine ⟨_, h6, ?_⟩
  rw [except_bind_ok]
  refine ⟨_, h7, ?_⟩
  change (match encodeBytes (tableCode (codeEntries s6.code)) text with
    | none => _
    | some bs => _) = _
  rw [h8]
  simp only
  rw [except_bind_ok]
  refine ⟨_, h9, ?_⟩
  rw [except_bind_ok]
  refine ⟨_, h10, ?_⟩
  rw [except_bind_ok]
  refine ⟨_, hostGet_eq _ _, ?_⟩
  simp only
  rw [except_bind_ok]
  refine ⟨_, h11, ?_⟩
  rfl

theorem witness_DecompressOfCompressIsTheInput :
    roomy.cfg.Valid ∧ unaryCodec.Unambiguous ∧
    (∀ l : List (Byte × BitString), (id l).Perm l) ∧
    ∃ container t, compress unaryCodec id [0x41#8] roomy = .ok (container, t) := by
  obtain ⟨⟨container, t⟩, h⟩ := compress_succeeds
  exact ⟨by decide, unaryCodec_unambiguous, fun l => .refl l, container, t, h⟩

end Sys2Proof.Machine.Tests
end

section
/-! PROOFS. What a host access without effect does: writes to read-only registers, reads of write-only registers, and
accesses at reserved offsets (rules R73, R75). -/

namespace Sys2Proof.Machine

/-- The reserved offsets of the register map (rules R21, R75). -/
abbrev ReservedOffset (off : Nat) : Prop :=
  off ∈ [0x2C, 0x48, 0x4C, 0x7C, 0x8C] ∨ (0xB4 ≤ off ∧ off ≤ 0xFC)

theorem not_reservedOffset_offset (r : Reg) : ¬ ReservedOffset r.offset := by cases r <;> decide

theorem atOffset_of_reservedOffset {off : Nat} (h : ReservedOffset off) : Reg.atOffset off = none := by
  cases hr : Reg.atOffset off with
  | none => rfl
  | some r =>
    rw [← offset_of_atOffset hr] at h
    exact absurd h (not_reservedOffset_offset r)

theorem readOffset_of_reservedOffset {off : Nat} (h : ReservedOffset off) (s : State) : readOffset s off = 0#32 := by
  simp only [readOffset, atOffset_of_reservedOffset h]

theorem writeOffset_of_reservedOffset {off : Nat} (h : ReservedOffset off) (v : Word) (s : State) :
    writeOffset off v s = .next s := by
  simp only [writeOffset, atOffset_of_reservedOffset h]

/-- Of the effects a register write can have, only the ignored one belongs to a read-only register. -/
theorem writeReg_of_readOnly {r : Reg} (h : r.rights = .readOnly) (v : Word) (s : State) :
    writeReg r v s = .next s := by
  obtain ⟨t, ht⟩ := writeReg_next r v s
  cases writeReg_effect ht with
  | ignored => exact ht
  | _ => cases h

theorem readReg_of_writeOnly {r : Reg} (h : r.rights = .writeOnly) (s : State) : readReg s r = 0#32 := by
  cases r with
  | cmd | bufClr | inPush | symPush | bitPush | bytePush => rfl
  | _ => cases h

/-- Settles O33: a register's access rights say which access has no effect, and no register lies at a reserved
offset. -/
theorem ignoredWritesAndZeroReads : Obligations.IgnoredWritesAndZeroReads := by
  refine ⟨fun s r v h => ?_, fun s r h => ?_, fun s off v h => ⟨?_, ?_⟩⟩
  · rw [writeOffset_offset, writeReg_of_readOnly h]
  · rw [readOffset_offset, readReg_of_writeOnly h]
  · exact readOffset_of_reservedOffset h s
  · exact writeOffset_of_reservedOffset h v s

end Sys2Proof.Machine
end

section
/-! PROOFS. An illegal command word (rule R103): a word outside the opcode map does not decode, so the write to `CMD`
only reports it. -/

namespace Sys2Proof.Machine

/-- The words of the opcode map (rule R101). -/
theorem toNat_encode_mem (i : Instr) : (encode i).toNat ∈ [0x01, 0x02, 0x03, 0x04, 0x05, 0x0F] := by
  cases i <;> decide

/-- A word outside the opcode map is illegal: a word that decodes is its command's own word (rules R102, R103). -/
theorem decode_error_of_not_mem {c : Word} (hc : c.toNat ∉ [0x01, 0x02, 0x03, 0x04, 0x05, 0x0F]) :
    ∃ e, decode c = .error e := by
  cases h : decode c with
  | error e => exact ⟨e, rfl⟩
  | ok i => exact absurd (word_of_decode h ▸ toNat_encode_mem i) hc

/-- A step performs the access at the head of the host's queue (rule R80). -/
theorem step_of_pending {s : State} {a : Access} {rest : List Access} (h : s.pending = a :: rest) :
    step s = serve a (takeAccess rest s) := by
  simp only [step_def, serveNext, h]

/-- A write of an illegal word to `CMD` raises `IllegalCommand` with the word (rules R103, R297). -/
theorem runCommand_of_error {c : Word} {e : IllegalWord} (h : decode c = .error e) (s : State) :
    runCommand c s = .next (raise .illegalCommand c s) := by
  simp only [runCommand, h]

/-- Settles O5: the word does not decode, so the step is `raise` on the state without the access. -/
theorem illegalWordOnlyReportsItself : Obligations.IllegalWordOnlyReportsItself := by
  intro s rest c hc hp
  obtain ⟨e, he⟩ := decode_error_of_not_mem hc
  calc step s
      = serve (wr .cmd c) (takeAccess rest s) := step_of_pending hp
    _ = runCommand c (takeAccess rest s) := serve_wr .cmd c _
    _ = .next (raise .illegalCommand c (takeAccess rest s)) := runCommand_of_error he _

end Sys2Proof.Machine
end

section
/-! PROOFS. The token `TOK_IDX` selects, read through `TOK_DATA` (rules R33, R104, R105). -/

namespace Sys2Proof.Machine

/-- `TOK_DATA` is the word of the selected token (rule R33). -/
theorem readReg_tokData {s : State} {t : Token} (h : s.tok[s.tokIdx.toNat]? = some t) :
    readReg s .tokData = t.asWord := by
  simp only [readReg, tokDataWord, h]

/-- Settles O39: `TOK_DATA` reads the selected token's word, whose value and decoding are `Token.asWord_toNat` and
`Token.ofWord_asWord`. -/
theorem tokenWordHoldsTheToken : Obligations.TokenWordHoldsTheToken := by
  intro s t ht hoff hlen
  have hread : readOffset s 0x44 = t.asWord := (readOffset_offset .tokData s).trans (readReg_tokData ht)
  rw [hread]
  exact ⟨t.asWord_toNat hoff hlen, t.ofWord_asWord hoff hlen⟩

end Sys2Proof.Machine
end

section
/-! PROOFS. What `LZMATCH` leaves behind on a non-empty input (rules R134 to R145): its tokens are a parse of the input,
and replay, bounds, sentinel, cursor and count are facts about a parse. -/

namespace Sys2Proof.Machine

/-! ### The literal of a token (rule R137) -/

section

variable {inp : List Byte} {p : Nat} {lit : Literal}

theorem IsLiteralAt.exists_byte (h : IsLiteralAt inp p lit) (hp : p < inp.length) : ∃ b, lit = .byte b :=
  ⟨inp[p], h.1 _ (List.getElem?_eq_getElem hp)⟩

theorem IsLiteralAt.eq_sentinel_iff (h : IsLiteralAt inp p lit) : lit = .sentinel ↔ inp.length ≤ p := by
  refine ⟨fun hs => ?_, h.2⟩
  by_contra hp
  obtain ⟨b, hb⟩ := h.exists_byte (not_le.1 hp)
  rw [hs] at hb
  cases hb

end

/-! ### Facts about a parse -/

section

variable {inp : List Byte} {w l i last : Nat} {ts : List Token}

/-- A match of at least one byte repeats an earlier byte (rules R133, R134). -/
theorem IsBestMatch.length_eq_zero_of_nodup {off len : Nat} (h : IsBestMatch inp w l i off len) (hn : inp.Nodup) :
    len = 0 := by
  by_contra hlen
  obtain ⟨j, ⟨-, hj⟩, -, hagrees, -⟩ := h.2.2 (Nat.pos_of_ne_zero hlen)
  obtain ⟨-, -, hi, heq⟩ := hagrees 0 (Nat.pos_of_ne_zero hlen)
  exact hj.ne ((List.getElem?_inj (hj.trans (by omega)) hn).1 heq)

theorem ParsedFrom.ne_nil (h : ParsedFrom inp w l 0 ts last) (hne : inp ≠ []) : ts ≠ [] :=
  fun hts => hne (List.length_eq_zero_iff.1 (Nat.le_zero.1 (h.eq_nil_iff.1 hts)))

/-- The bounds of a token at the position it was emitted (rules R139 to R141). -/
theorem ParsedFrom.bounds_at {before after : List Token} {x : Token}
    (h : ParsedFrom inp w l i (before ++ x :: after) last) :
    x.length ≤ l ∧ x.length ≤ x.offset ∧ x.offset ≤ min w (i + consumed before) ∧
    (x.length = 0 ↔ x.offset = 0) ∧ (x.length = 0 → ∃ b, x.lit = .byte b) := by
  obtain ⟨hpos, hbest, hlit, -⟩ := h.at_token before x after rfl
  obtain ⟨hlen, hlenOff, hoff, hzero⟩ := hbest.bounds
  exact ⟨hlen, hlenOff, hoff, hzero, fun h0 => hlit.exists_byte (by omega)⟩

/-- A match that leaves the sentinel as its literal ends where the input does (rules R137, R142). -/
theorem ParsedFrom.sentinel_iff {before after : List Token} {x : Token}
    (h : ParsedFrom inp w l i (before ++ x :: after) last) :
    x.lit = .sentinel ↔ i + consumed before + x.length = inp.length := by
  obtain ⟨hpos, hbest, hlit, -⟩ := h.at_token before x after rfl
  have hinside := hbest.inside hpos
  rw [hlit.eq_sentinel_iff]
  omega

/-- The token with the sentinel is the last one and copies at least one byte (rules R141, R142). -/
theorem ParsedFrom.last_of_sentinel {before after : List Token} {x : Token}
    (h : ParsedFrom inp w l i (before ++ x :: after) last) (hs : x.lit = .sentinel) : after = [] ∧ 1 ≤ x.length := by
  obtain ⟨hpos, -, -, hrest⟩ := h.at_token before x after rfl
  have hend := h.sentinel_iff.1 hs
  exact ⟨hrest.eq_nil_iff.2 (by omega), by omega⟩

/-- The cursor ends one past the input after a sentinel and at its end otherwise (rule R143). -/
theorem ParsedFrom.last_eq_of_concat {before : List Token} {x : Token}
    (h : ParsedFrom inp w l i (before ++ [x]) last) :
    last = if x.lit = .sentinel then inp.length + 1 else inp.length := by
  obtain ⟨hpos, hbest, -, hrest⟩ := h.at_token before x [] rfl
  have hinside := hbest.inside hpos
  have hlast : last = i + consumed before + x.length + 1 := hrest.last_eq
  have hcovered := hrest.eq_nil_iff.1 rfl
  simp only [h.sentinel_iff]
  split <;> omega

theorem consumed_le_of_length_le {m : Nat} (h : ∀ t ∈ ts, t.length ≤ m) : consumed ts ≤ ts.length * (m + 1) := by
  have hsum : consumed ts ≤ (ts.map fun t => t.length + 1).length * (m + 1) :=
    List.sum_le_card_nsmul _ _ (by simpa using h)
  rwa [List.length_map] at hsum

/-- Every byte of the input is consumed, at most `l + 1` of them by a token (rule R145). -/
theorem ParsedFrom.length_le_count_mul (h : ParsedFrom inp w l 0 ts last) : inp.length ≤ ts.length * (l + 1) :=
  calc inp.length
      ≤ last := (h.last_bounds (Nat.zero_le _)).1
    _ = consumed ts := by rw [h.last_eq, Nat.zero_add]
    _ ≤ ts.length * (l + 1) := consumed_le_of_length_le fun t ht => (h.token_bounds t ht).2

/-- Without a repetition every token is a single literal (rule R145). -/
theorem ParsedFrom.length_eq_zero_of_nodup (h : ParsedFrom inp w l i ts last) (hn : inp.Nodup) :
    ∀ t ∈ ts, t.length = 0 := by
  intro t ht
  obtain ⟨before, after, he⟩ := List.append_of_mem ht
  exact (h.at_token before t after he).2.1.length_eq_zero_of_nodup hn

/-- Without a repetition there are as many tokens as bytes (rule R145). -/
theorem ParsedFrom.count_eq_of_nodup (h : ParsedFrom inp w l 0 ts last) (hn : inp.Nodup) : ts.length = inp.length := by
  refine Nat.le_antisymm h.count_le ?_
  calc inp.length
      ≤ last := (h.last_bounds (Nat.zero_le _)).1
    _ = consumed ts := by rw [h.last_eq, Nat.zero_add]
    _ ≤ ts.length * (0 + 1) := consumed_le_of_length_le fun t ht => (h.length_eq_zero_of_nodup hn t ht).le
    _ = ts.length := Nat.mul_one _

end

/-! ### The command -/

/-- `LZMATCH` on a non-empty input completes and stores the tokens of its steps (rules R130, R138). -/
theorem exec_lzmatch_of_ne_nil {s : State} (h : s.inBuf ≠ []) :
    exec .lzmatch s = .next (endDone (storeTokens (lzTokens s.inBuf s.cfg.w s.cfg.l) (emptyTokens s))) := by
  simp only [exec, execLzmatch, List.length_eq_zero_iff, if_neg h]

/-- `LZMATCH` on a non-empty input completes with a parse of it (rules R130, R132, R138). -/
theorem exec_lzmatch_parsed {s : State} (h : s.inBuf ≠ []) :
    ∃ t, exec .lzmatch s = .next t ∧ ParsedFrom s.inBuf s.cfg.w s.cfg.l 0 t.tok t.lzPos :=
  ⟨_, exec_lzmatch_of_ne_nil h, lzTokens_parsed⟩

/-- Settles O8: replay of a parse from position 0 gives the input (`ParsedFrom.replays`, by induction on the parse). -/
theorem replayOfTokensIsTheInput : Obligations.ReplayOfTokensIsTheInput := by
  intro s hne
  obtain ⟨t, hexec, hparse⟩ := exec_lzmatch_parsed hne
  exact ⟨t, hexec, hparse.replays⟩

/-- Settles O6: the steps of the matcher are the greedy parse (`lzTokens_parsed`). -/
theorem lzmatchParsesTheInput : Obligations.LzmatchParsesTheInput := by
  intro s hne
  exact ⟨_, _, lzTokens_parsed, exec_lzmatch_of_ne_nil hne⟩

/-- Settles O9: each token is the best match at the position it was emitted. -/
theorem tokenOffsetsAndLengthsBounded : Obligations.TokenOffsetsAndLengthsBounded := by
  intro s hne
  obtain ⟨t, hexec, hparse⟩ := exec_lzmatch_parsed hne
  refine ⟨t, hexec, fun before x after htok => ?_⟩
  rw [htok] at hparse
  simpa only [Nat.zero_add] using hparse.bounds_at

/-- Settles O10: the sentinel's token ends the input, so the parse ends with it. -/
theorem sentinelOnlyLastAndCursorAtEnd : Obligations.SentinelOnlyLastAndCursorAtEnd := by
  intro s hne
  obtain ⟨t, hexec, hparse⟩ := exec_lzmatch_parsed hne
  refine ⟨t, hexec, fun before x after htok => ?_, by rw [hparse.last_eq, Nat.zero_add], ?_⟩
  · rw [htok] at hparse
    exact ⟨hparse.last_of_sentinel, by simpa only [Nat.zero_add] using hparse.sentinel_iff⟩
  · obtain ⟨before, x, htok⟩ := (List.eq_nil_or_concat' t.tok).resolve_left (hparse.ne_nil hne)
    rw [htok] at hparse
    exact ⟨before, x, htok, hparse.last_eq_of_concat⟩

/-- Settles O11: a token consumes between 1 and `L + 1` positions, and exactly 1 when nothing repeats. -/
theorem tokenCountBounds : Obligations.TokenCountBounds := by
  intro s hne
  obtain ⟨t, hexec, hparse⟩ := exec_lzmatch_parsed hne
  exact ⟨t, hexec, List.length_pos_iff.2 (hparse.ne_nil hne), hparse.count_le, hparse.length_le_count_mul,
    hparse.count_eq_of_nodup⟩

end Sys2Proof.Machine
end

section
/-! PROOFS. What `HTREE` leaves behind (rules R161 to R175): an arena that is a finished merging of the leaves of the
counts, and a node's frequency counts the leaves below it. -/

namespace Sys2Proof.Machine

/-! ### The command -/

/-- `HTREE` on an empty `SYM` reports the emptied state (rule R162). -/
theorem exec_htree_of_nil {s : State} (h : s.sym = []) :
    exec .htree s = .next (raise .emptyInput 0#32 (emptyTree s)) := by
  simp only [exec, execHtree, h, List.length_nil, if_true]

/-- `HTREE` on a non-empty `SYM` completes and stores the tree of the counts (rules R163, R170). -/
theorem exec_htree_of_ne_nil {s : State} (h : s.sym ≠ []) :
    exec .htree s = .next (endDone (storeTree (countSymbols s.sym) (emptyTree s))) := by
  simp only [exec, execHtree, List.length_eq_zero_iff, if_neg h]

/-- The tree `HTREE` stores is one for the counts of `SYM` (rule R173). -/
theorem isTree_countSymbols {sym : List Byte} (h : sym ≠ []) :
    IsTree (countSymbols sym) (buildArena (countSymbols sym)).1 (leavesOf (countSymbols sym)).length
      (rootOf (buildArena (countSymbols sym))) :=
  isTree_buildArena (leaves_pos h)

/-! ### The frequency of a node (rule R175) -/

theorem freqAt_of_getElem? {nodes : List Node} {x : Nat} {n : Node} (h : nodes[x]? = some n) :
    freqAt nodes x = n.freq := by
  simp only [freqAt, h]

/-- When no element meets both conditions, those that meet either are counted by the two counts together. -/
theorem countP_or_of_disjoint {α : Type} {p q : α → Bool} (h : ∀ a, p a = true → q a = true → False) (l : List α) :
    l.countP (fun a => p a || q a) = l.countP p + l.countP q := by
  induction l with
  | nil => rfl
  | cons a l ih =>
    simp only [List.countP_cons, ih]
    cases hp : p a with
    | false => simp [Nat.add_assoc]
    | true =>
      have hq : q a = false := Bool.eq_false_iff.2 (h a hp)
      simp [hq, Nat.add_right_comm]

/-- `x` has the frequency of the positions of `sym` that hold a symbol of a leaf at or below it (rule R175). -/
def CountsLeavesBelow (nodes : List Node) (sym : List Byte) (x : Nat) : Prop :=
  ∃ below : Byte → Bool, (∀ b, below b = true ↔ LeafBelow nodes x b) ∧ freqAt nodes x = sym.countP below

section

variable {nodes : List Node} {sym : List Byte} {nsym root x : Nat}

/-- The only leaf at or below a leaf is itself. -/
theorem IsTree.countsLeavesBelow_leaf (h : IsTree (countSymbols sym) nodes nsym root) {b : Byte} {f : Nat}
    (hx : nodes[x]? = some (.leaf b f)) : CountsLeavesBelow nodes sym x := by
  obtain ⟨-, hf, -⟩ := h.leafIndex hx
  refine ⟨(· == b), fun c => ?_, ?_⟩
  · rw [leafBelow_leaf hx, beq_iff_eq]
  · calc freqAt nodes x
        = f := freqAt_of_getElem? hx
      _ = sym.count b := by rw [hf, entry_countSymbols]

/-- The leaves below an internal node are those of its children, which share none. -/
theorem IsTree.countsLeavesBelow_internal (h : IsTree (countSymbols sym) nodes nsym root) {f l r : Nat}
    (hx : nodes[x]? = some (.internal f l r)) (hl : CountsLeavesBelow nodes sym l)
    (hr : CountsLeavesBelow nodes sym r) : CountsLeavesBelow nodes sym x := by
  obtain ⟨belowL, hbl, hfl⟩ := hl
  obtain ⟨belowR, hbr, hfr⟩ := hr
  have disjoint : ∀ b, belowL b = true → belowR b = true → False := fun b h1 h2 =>
    h.leafBelow_disjoint hx ((hbl b).1 h1) ((hbr b).1 h2)
  refine ⟨fun b => belowL b || belowR b, fun b => ?_, ?_⟩
  · rw [leafBelow_internal hx, Bool.or_eq_true, hbl, hbr]
  · calc freqAt nodes x
        = f := freqAt_of_getElem? hx
      _ = freqAt nodes l + freqAt nodes r := h.kid_freq hx
      _ = sym.countP belowL + sym.countP belowR := by rw [hfl, hfr]
      _ = sym.countP fun b => belowL b || belowR b := (countP_or_of_disjoint disjoint sym).symm

/-- By induction on the index: children stand below their parent (rule R173). -/
theorem IsTree.countsLeavesBelow (h : IsTree (countSymbols sym) nodes nsym root) (hx : x < nodes.length) :
    CountsLeavesBelow nodes sym x := by
  induction x using Nat.strong_induction_on with
  | _ x ih =>
    have hn := List.getElem?_eq_getElem hx
    cases he : nodes[x] with
    | leaf b f => exact h.countsLeavesBelow_leaf (hn.trans (congrArg some he))
    | internal f l r =>
      rw [he] at hn
      obtain ⟨-, hl, hr, -⟩ := h.kids hn
      exact h.countsLeavesBelow_internal hn (ih l hl (hl.trans hx)) (ih r hr (hr.trans hx))

end

/-! ### The obligations -/

/-- Settles O12: the counts and the merging of their leaves, a tree by `isTree_buildArena`. -/
theorem htreeBuildsATree : Obligations.HtreeBuildsATree := by
  intro s hne
  exact ⟨_, _, _, _, entry_countSymbols s.sym, freqTotal_countSymbols s.sym, isTree_countSymbols hne,
    exec_htree_of_ne_nil hne⟩

/-- Settles O14: every node of a merging from `NSYM` on is the merge of the two least waiting nodes (`Merging.inner`,
kept by every merge). -/
theorem htreeMergesTheTwoLeast : Obligations.HtreeMergesTheTwoLeast := by
  intro s hne
  obtain ⟨hmerging, -⟩ := buildArena_merging (leaves_pos hne)
  exact ⟨_, exec_htree_of_ne_nil hne, (isTree_countSymbols hne).nodeCount, hmerging.inner⟩

/-- Settles O15: the root's frequency is the sum of all counts, and that of each node counts the leaves below it. -/
theorem nodeFrequencyCountsItsLeaves : Obligations.NodeFrequencyCountsItsLeaves := by
  intro s hne
  have htree := isTree_countSymbols hne
  exact ⟨_, exec_htree_of_ne_nil hne, htree.rootFreq.trans (freqTotal_countSymbols s.sym),
    fun x hx => htree.countsLeavesBelow hx⟩

/-- Settles O17: the command raises `EmptyInput` on the emptied state. -/
theorem htreeOnEmptyInputFails : Obligations.HtreeOnEmptyInputFails := by
  intro s hnil
  exact exec_htree_of_nil hnil

end Sys2Proof.Machine
end

section
/-! PROOFS. What `HCODE` leaves behind (rules R190 to R198): the code of each symbol is the path from the root to its leaf,
and these codes are neither empty nor too long, and none is a prefix of another. -/

namespace Sys2Proof.Machine

/-! ### The command -/

/-- With a tree, `HCODE` completes and stores the table of the codes it emits (rules R190, R195). -/
theorem exec_hcode_of_treeV {s : State} (h : s.status.treeV = true) :
    exec .hcode s = .next (endDone (storeCodes (codeTable (emittedCodes s.node s.root)) (emptyCodes s))) := by
  simp only [exec, execHcode, if_pos h]

/-! ### The codes of a tree -/

section

variable {freq : Vector Nat 256} {nodes : List Node} {nsym root : Nat}

/-- The root is a leaf or an internal node: the two cases of a code (rules R192, R193). -/
theorem IsTree.root_cases (h : IsTree freq nodes nsym root) :
    (∃ b f, nodes[root]? = some (.leaf b f)) ∨ ∃ f l r, nodes[root]? = some (.internal f l r) := by
  rw [List.getElem?_eq_getElem h.root_lt]
  cases nodes[root]'h.root_lt with
  | leaf b f => exact .inl ⟨b, f, rfl⟩
  | internal f l r => exact .inr ⟨f, l, r, rfl⟩

/-- A path that goes on from the path to a leaf ends at that leaf. -/
theorem follow_eq_of_prefix {n j k f : Nat} {b : Byte} {p q : BitString} (hp : follow nodes n p = some j)
    (hj : nodes[j]? = some (.leaf b f)) (hq : follow nodes n q = some k) (hpq : p <+: q) : k = j := by
  obtain ⟨t, rfl⟩ := hpq
  rw [follow_append hp] at hq
  rw [follow_leaf hj hq, follow_nil, Option.some.injEq] at hq
  exact hq.symm

/-- No code is empty: with an internal root, the empty path does not end at a leaf (rules R193, R196). -/
theorem IsTree.code_ne_nil (h : IsTree freq nodes nsym root) {b : Byte} {c : BitString}
    (hc : IsCodeOf nodes root b c) : c ≠ [] := by
  obtain ⟨b', f, hn⟩ | ⟨f, l, r, hn⟩ := h.root_cases
  · obtain ⟨-, rfl⟩ := (isCodeOf_leaf hn).1 hc
    exact List.cons_ne_nil _ _
  · rintro rfl
    obtain ⟨k, g, hk, hleaf⟩ := (isCodeOf_internal hn).1 hc
    rw [follow_nil, Option.some.injEq] at hk
    subst hk
    simp [hn] at hleaf

/-- A code has at most as many bits as there are internal nodes, or the one bit of a lone leaf (rules R176, R198). -/
theorem IsTree.code_length_le_max (h : IsTree freq nodes nsym root) {b : Byte} {c : BitString}
    (hc : IsCodeOf nodes root b c) : c.length ≤ max 1 (nsym - 1) := by
  obtain ⟨b', f, hn⟩ | ⟨f, l, r, hn⟩ := h.root_cases
  · obtain ⟨-, rfl⟩ := (isCodeOf_leaf hn).1 hc
    exact Nat.le_max_left _ _
  · obtain ⟨k, g, hk, -⟩ := (isCodeOf_internal hn).1 hc
    have hlength := h.follow_length hk
    have hroot := h.rootLast
    have hcount := h.nodeCount
    omega

/-- A code that is a prefix of another is the code of the same symbol (rule R196). -/
theorem IsTree.symbol_eq_of_code_prefix (h : IsTree freq nodes nsym root) {b b' : Byte} {c c' : BitString}
    (hc : IsCodeOf nodes root b c) (hc' : IsCodeOf nodes root b' c') (hp : c <+: c') : b = b' := by
  obtain ⟨b₀, f, hn⟩ | ⟨f, l, r, hn⟩ := h.root_cases
  · obtain ⟨rfl, -⟩ := (isCodeOf_leaf hn).1 hc
    obtain ⟨rfl, -⟩ := (isCodeOf_leaf hn).1 hc'
    rfl
  · obtain ⟨j, g, hj, hleaf⟩ := (isCodeOf_internal hn).1 hc
    obtain ⟨k, g', hk, hleaf'⟩ := (isCodeOf_internal hn).1 hc'
    obtain rfl := follow_eq_of_prefix hj hleaf hk hp
    rw [hleaf, Option.some.injEq, Node.leaf.injEq] at hleaf'
    exact hleaf'.1

end

/-! ### The obligations -/

/-- Settles O18: the table the command stores meets the clause of `CoreInv` on codes, which says that its codes are the
paths and which symbols have one. -/
theorem hcodeReadsOffThePaths : Obligations.HcodeReadsOffThePaths := by
  intro s h htree
  obtain ⟨-, hsome, hcode⟩ := (h.storeCodes htree).codes rfl
  exact ⟨_, hcode, hsome, exec_hcode_of_treeV htree⟩

/-- Settles O20: the table holds the codes of a tree, and each bound and prefix-freeness holds of those. -/
theorem codesArePrefixFree : Obligations.CodesArePrefixFree := by
  intro s h hcodes
  obtain ⟨htreeV, -, hcode⟩ := h.codes hcodes
  have htree := h.tree htreeV
  constructor
  · intro b c hc
    have hpath := (hcode b c).1 hc
    exact ⟨List.length_pos_iff.2 (htree.code_ne_nil hpath), htree.code_length_le_max hpath, htree.code_length_le hpath⟩
  · intro b b' c c' hne hc hc' hp
    exact hne (htree.symbol_eq_of_code_prefix ((hcode b c).1 hc) ((hcode b' c').1 hc') hp)

end Sys2Proof.Machine
end

section
/-! PROOFS. What `BPACK` and `BUNPACK` leave behind (rules R210 to R222): the bits of packed bytes are the bit string
padded with zeroes, so each command undoes the other up to the padding. -/

namespace Sys2Proof.Machine

/-! ### The commands -/

/-- A number below `2^32` is read back from its word (rule R9). -/
theorem toNat_asWord {n : Nat} (h : n < 2 ^ 32) : (asWord n).toNat = n := by
  rw [asWord, BitVec.toNat_ofNat, Nat.mod_eq_of_lt h]

/-- The number of a word gives the word back (rule R9). -/
theorem asWord_toNat (v : Word) : asWord v.toNat = v :=
  BitVec.eq_of_toNat_eq (toNat_asWord v.isLt)

/-- `BPACK` always completes and stores the packing of `BITS` (rules R210, R214). -/
theorem exec_bpack (s : State) : exec .bpack s = .next (endDone (storePacked s)) := by
  simp only [exec, execBpack]

/-- `BUNPACK` completes when the bytes hold `VBC` bits (rules R216, R219). -/
theorem exec_bunpack_of_le {s : State} (h : s.vbc.toNat ≤ 8 * s.bytes.length) :
    exec .bunpack s = .next (endDone (storeUnpacked (emptyBits s))) := by
  simp only [exec, execBunpack, if_neg h.not_gt]

/-- `BUNPACK` reports a count of more bits than the bytes hold (rules R217, R218). -/
theorem exec_bunpack_of_lt {s : State} (h : 8 * s.bytes.length < s.vbc.toNat) :
    exec .bunpack s = .next (raise .malformed s.vbc (emptyBits s)) := by
  simp only [exec, execBunpack, if_pos h]

/-! ### Bits of bytes -/

section

variable {bs : BitString} {bytes : List Byte} {n p q r : Nat}

/-- Bit `8 * q + r` of the expansion is bit `7 - r` of byte `q` (rule R108). -/
theorem expandedBit_mul_add (hr : r < 8) : expandedBit bytes (8 * q + r) = (bytes.getD q 0#8).getLsbD (7 - r) := by
  have hdiv : (8 * q + r) / 8 = q := by omega
  have hmod : (8 * q + r) % 8 = r := by omega
  rw [expandedBit, hdiv, hmod]

/-- Bit `7 - r` of byte `q` of a packing is bit `8 * q + r` of the bit string, 0 in the padding (rules R210, R212). -/
theorem packBits_getLsbD (hq : q < (packBits bs).length) (hr : r < 8) :
    ((packBits bs).getD q 0#8).getLsbD (7 - r) = bs.getD (8 * q + r) false := by
  rw [← expandedBit_mul_add hr, expandedBit_packBits bs _ (by omega)]

/-- An unpacking holds the bits of the expansion below the bit count and no others (rule R216). -/
theorem unpackBits_getD : (unpackBits bytes n).getD p false = (decide (p < n) && expandedBit bytes p) := by
  rw [List.getD_eq_getElem?_getD]
  by_cases hp : p < n
  · rw [unpackBits_getElem? _ _ _ hp, decide_eq_true hp, Bool.true_and, Option.getD_some]
  · rw [List.getElem?_eq_none (by rw [length_unpackBits]; omega), decide_eq_false hp, Bool.false_and, Option.getD_none]

/-- Every bit read from the expansion stands in one of the bytes (rule R216). -/
theorem exists_byte_of_expandedBit (h : p < 8 * bytes.length) :
    ∃ b, bytes[p / 8]? = some b ∧ expandedBit bytes p = b.getLsbD (7 - p % 8) := by
  have hq : p / 8 < bytes.length := by omega
  refine ⟨bytes[p / 8], List.getElem?_eq_getElem hq, ?_⟩
  rw [expandedBit, List.getD_eq_getElem _ _ hq]

/-- Byte sequences of one length are equal when their bits are. -/
theorem bytes_eq_of_bits {a b : List Byte} (hlen : a.length = b.length)
    (h : ∀ q r, q < a.length → r < 8 → (a.getD q 0#8).getLsbD (7 - r) = (b.getD q 0#8).getLsbD (7 - r)) : a = b := by
  refine List.ext_getElem hlen fun q ha hb => byte_eq_of_bits fun r hr => ?_
  simpa only [List.getD_eq_getElem _ _ ha, List.getD_eq_getElem _ _ hb] using h q r ha hr

/-! ### Packing what was unpacked (rule R222) -/

theorem length_packBits_unpackBits : (packBits (unpackBits bytes n)).length = (n + 7) / 8 := by
  rw [length_packBits, length_unpackBits]

/-- Packing the first `n` bits of the expansion keeps these bits and zeroes the padding. -/
theorem packBits_unpackBits_getLsbD (hq : q < (packBits (unpackBits bytes n)).length) (hr : r < 8) :
    ((packBits (unpackBits bytes n)).getD q 0#8).getLsbD (7 - r) =
      (decide (8 * q + r < n) && (bytes.getD q 0#8).getLsbD (7 - r)) := by
  rw [packBits_getLsbD hq hr, unpackBits_getD, expandedBit_mul_add hr]

/-- Packing the unpacked bits is the identity when there are no surplus bytes and the padding is 0, and only then. -/
theorem packBits_unpackBits_eq_iff :
    packBits (unpackBits bytes n) = bytes ↔ bytes.length = (n + 7) / 8 ∧
      ∀ q r, q < bytes.length → r < 8 → n ≤ 8 * q + r → (bytes.getD q 0#8).getLsbD (7 - r) = false := by
  have hpacked : (packBits (unpackBits bytes n)).length = (n + 7) / 8 := length_packBits_unpackBits
  constructor
  · intro heq
    refine ⟨by rwa [heq] at hpacked, fun q r hq hr hpad => ?_⟩
    have hbit := packBits_unpackBits_getLsbD (bytes := bytes) (n := n) (by rwa [heq]) hr
    rwa [heq, decide_eq_false hpad.not_gt, Bool.false_and] at hbit
  · rintro ⟨hlen, hpad⟩
    have hlen' : (packBits (unpackBits bytes n)).length = bytes.length := hpacked.trans hlen.symm
    refine bytes_eq_of_bits hlen' fun q r hq hr => ?_
    rw [packBits_unpackBits_getLsbD hq hr]
    by_cases hp : 8 * q + r < n
    · rw [decide_eq_true hp, Bool.true_and]
    · rw [decide_eq_false hp, Bool.false_and, hpad q r (hlen' ▸ hq) hr (not_lt.1 hp)]

end

/-! ### The obligations -/

/-- Settles O25: `BIT_CAP` fits `VBC`, so `BUNPACK` expands as many bits as `BPACK` packed (`unpackBits_packBits`). -/
theorem packThenUnpackIsIdentity : Obligations.PackThenUnpackIsIdentity := by
  intro s hvalid hcap
  have hvbc : (asWord s.bits.length).toNat = s.bits.length := toNat_asWord (by have := hvalid.bitCap_lt; omega)
  have hfits : (endDone (storePacked s)).vbc.toNat ≤ 8 * (endDone (storePacked s)).bytes.length := by
    simp only [endDone_vbc, storePacked_vbc, endDone_bytes, storePacked_bytes, length_packBits, hvbc]
    omega
  refine ⟨_, _, exec_bpack s, exec_bunpack_of_le hfits, ?_, rfl⟩
  calc unpackBits (packBits s.bits) (asWord s.bits.length).toNat
      = unpackBits (packBits s.bits) s.bits.length := by rw [hvbc]
    _ = s.bits := unpackBits_packBits s.bits

/-- Settles O26: `BYTES` is the packing of the unpacked bits, whose bits are known one by one. -/
theorem unpackThenPackZeroesThePadding : Obligations.UnpackThenPackZeroesThePadding := by
  intro s hfits
  refine ⟨_, _, exec_bunpack_of_le hfits, exec_bpack _, ?_, length_packBits_unpackBits, fun q r hq hr => ?_,
    packBits_unpackBits_eq_iff⟩
  · calc asWord (unpackBits s.bytes s.vbc.toNat).length
        = asWord s.vbc.toNat := by rw [length_unpackBits]
      _ = s.vbc := asWord_toNat s.vbc
  · exact packBits_unpackBits_getLsbD hq hr

/-- Settles O22: the bits of the packing are those of `BITS`, and the bit count fits `VBC`. -/
theorem bpackPacksTheBits : Obligations.BpackPacksTheBits := by
  intro s hlen
  exact ⟨_, _, length_packBits s.bits, toNat_asWord hlen, fun q r hq hr => packBits_getLsbD hq hr, exec_bpack s⟩

/-- Settles O23: each bit of the unpacking is one of the expansion, which lies inside the bytes. -/
theorem bunpackExpandsTheBytes : Obligations.BunpackExpandsTheBytes := by
  intro s hfits
  refine ⟨_, length_unpackBits s.bytes s.vbc.toNat, fun p hp => ?_, exec_bunpack_of_le hfits⟩
  obtain ⟨b, hb, hbit⟩ := exists_byte_of_expandedBit (hp.trans_le hfits)
  exact ⟨b, hb, by rw [unpackBits_getElem? _ _ _ hp, hbit]⟩

/-- Settles O24: the command raises `Malformed` on the state with `BITS` emptied. -/
theorem bunpackOfTooFewBytesFails : Obligations.BunpackOfTooFewBytesFails := by
  intro s hmore
  exact exec_bunpack_of_lt hmore

end Sys2Proof.Machine
end

section
/-! PROOFS. What a write to `BUF_CLR` does (rule R237): it empties the host-loaded buffers that bits 3:0 select and
leaves everything else as it was. -/

namespace Sys2Proof.Machine

/-- A write to `BUF_CLR` always completes (rule R237). -/
theorem writeReg_bufClr (v : Word) (s : State) : writeReg .bufClr v s = .next (clearBuffers v s) := rfl

/-- The frame of a write to `BUF_CLR`: only the four host-loaded buffers can change (rule R237). -/
theorem clearBuffers_frame (v : Word) (s : State) :
    clearBuffers v s = { s with
      inBuf := (clearBuffers v s).inBuf, sym := (clearBuffers v s).sym,
      bits := (clearBuffers v s).bits, bytes := (clearBuffers v s).bytes } := rfl

/-- Settles O37: `BUF_CLR` stands at offset `0x28`, and the value of each of the four buffers is a rule of
`clearBuffers`. -/
theorem bufClrEmptiesTheSelectedBuffers : Obligations.BufClrEmptiesTheSelectedBuffers := by
  intro s v
  have hwrite : writeOffset 0x28 v s = .next (clearBuffers v s) :=
    (writeOffset_offset .bufClr v s).trans (writeReg_bufClr v s)
  simp only [BitVec.testBit_toNat]
  exact ⟨_, hwrite, clearBuffers_frame v s, clearBuffers_inBuf s v, clearBuffers_sym s v, clearBuffers_bits s v,
    clearBuffers_bytes s v⟩

end Sys2Proof.Machine
end

section
/-! PROOFS. The length of an encoding (rules R256, R257): it is summed over the bytes of the text, and grouping equal
bytes makes it the sum over the symbols weighted by their counts. -/

namespace Sys2Proof.Machine

/-- A text is encoded code by code: the code of its first byte, then the encoding of the rest (rule R256). -/
theorem encodeBytes_cons_eq_some {code : Byte → Option BitString} {x : Byte} {text : List Byte} {bs : BitString} :
    encodeBytes code (x :: text) = some bs ↔
      ∃ c rest, code x = some c ∧ encodeBytes code text = some rest ∧ bs = c ++ rest := by
  cases hcode : code x <;> cases htext : text.mapM code <;> simp [encodeBytes, hcode, htext, eq_comm]

/-- The length of an encoding is the sum of the code lengths over the bytes of the text (rule R256). -/
theorem length_encodeBytes {code : Byte → Option BitString} {text : List Byte} {bs : BitString}
    (henc : encodeBytes code text = some bs) :
    bs.length = (text.map fun x => ((code x).getD []).length).sum := by
  induction text generalizing bs with
  | nil =>
    obtain rfl : [] = bs := Option.some.inj henc
    rfl
  | cons x text ih =>
    obtain ⟨c, rest, hcode, hrest, rfl⟩ := encodeBytes_cons_eq_some.1 henc
    simp [hcode, ih hrest]

/-- When `FREQ` counts a text, the sum over the symbols is the sum of the code lengths over the text (rule R257). -/
theorem encodedLength_eq_sum_text {freq : Vector Nat 256} {text : List Byte}
    (hcount : ∀ b, entry freq b = text.count b) (code : Vector (Option BitString) 256) :
    encodedLength freq code = (text.map fun x => ((entry code x).getD []).length).sum := by
  have hone (x : Byte) : symbols.count x = 1 := List.count_eq_one_of_mem symbols_nodup (mem_symbols x)
  simp only [encodedLength, hcount]
  rw [sum_count_mul (fun b => ((entry code b).getD []).length)]
  simp only [hone, Nat.one_mul]

/-- A text of one byte whose code is `"0"` is encoded in one bit per byte (rule R257). -/
theorem length_encodeBytes_of_single {code : Byte → Option BitString} {text : List Byte} {bs : BitString} {b : Byte}
    (henc : encodeBytes code text = some bs) (hsame : ∀ x ∈ text, x = b) (hcode : code b = some [false]) :
    bs.length = text.length := by
  have hbit : ∀ x ∈ text, ((code x).getD []).length = 1 := fun x hx => by rw [hsame x hx, hcode]; rfl
  calc bs.length = (text.map fun x => ((code x).getD []).length).sum := length_encodeBytes henc
    _ = (text.map fun _ => 1).sum := by rw [List.map_congr_left hbit]
    _ = text.length := by simp

/-- Settles O55: both sides are the sum of the code lengths over the text. -/
theorem encodedLengthIsTheWeightedSum : Obligations.EncodedLengthIsTheWeightedSum := by
  intro freq code text bs hcount henc
  exact ⟨(length_encodeBytes henc).trans (encodedLength_eq_sum_text hcount code).symm,
    fun ⟨_, hsame, hcode⟩ => length_encodeBytes_of_single henc hsame hcode⟩

end Sys2Proof.Machine
end

section
/-! PROOFS. The invariants of rule R44 along the machine's runs: every step is one access or none, every access keeps
them, and so they hold in every reachable state. -/

namespace Sys2Proof.Machine

/-- With no access waiting the core waits (rule R80). -/
theorem step_of_pending_nil {s : State} (h : s.pending = []) : step s = .next s := by
  simp only [step_def, serveNext, h]

/-- A step is one access, which keeps the invariants, or none (rules R44, R80). -/
theorem CoreInv.step {s t : State} (h : CoreInv s) (hstep : step s = .next t) : CoreInv t := by
  cases hp : s.pending with
  | nil =>
    rw [step_of_pending_nil hp, Host.Outcome.next.injEq] at hstep
    exact hstep ▸ h
  | cons a rest =>
    rw [step_of_pending hp] at hstep
    exact (h.takeAccess rest).serve hstep

/-- Issuing an access moves the host's queue only (rule R80). -/
theorem CoreInv.issue {s : State} (h : CoreInv s) (a : Access) : CoreInv { s with pending := s.pending ++ [a] } :=
  h.of_same rfl rfl

/-- Settles O46: a step keeps the invariants because the access it performs does. -/
theorem everyStepKeepsTheInvariants : Obligations.EveryStepKeepsTheInvariants := by
  intro s t h hstep
  exact h.step hstep

/-- Settles O47, by induction on how the state is reached. -/
theorem reachableStatesMeetTheInvariants : Obligations.ReachableStatesMeetTheInvariants := by
  intro c s hvalid hreach
  induction hreach with
  | reset => exact coreInv_resetWith hvalid
  | issue a s _ ih => exact ih.issue a
  | step s t _ hstep ih => exact ih.step hstep

/-- Settles O45: the hardware's parameters are valid whatever the free ones are. -/
theorem invariantsHoldAtReset : Obligations.InvariantsHoldAtReset :=
  coreInv_resetWith Config.hardware_valid

end Sys2Proof.Machine
end

section
/-! PROOFS. The code table of a core whose codes are valid (rules R196 to R198, R256 to R259): its entries are the codes
`HCODE` emits for the tree, so their weights sum to 1 (rule R197), and they are prefix-free, so the tree rebuilt from
them decodes what they encode. -/

namespace Sys2Proof.Machine

section

variable {freq : Vector Nat 256} {nodes : List Node} {nsym root : Nat}

/-- With two or more symbols the root is an internal node (rule R192). -/
theorem IsTree.root_internal (h : IsTree freq nodes nsym root) (h2 : 2 ≤ nsym) :
    ∃ f l r, nodes[root]? = some (.internal f l r) := by
  refine h.root_cases.resolve_left ?_
  rintro ⟨b, f, hleaf⟩
  have hlt := (h.leafIndex hleaf).1
  have hroot := h.rootLast
  have hcount := h.nodeCount
  omega

/-- The codes emitted for an internal root are those of its subtrees (rule R190). -/
theorem emittedCodes_internal {f l r : Nat} (h : nodes[root]? = some (.internal f l r)) :
    emittedCodes nodes root = genCodes nodes nodes.length root [] := by
  simp only [emittedCodes, h]

/-- The weights of all codes of a tree with two or more leaves sum to 1, here `2^255` (rule R197). -/
theorem IsTree.emittedCodes_weight (h : IsTree freq nodes nsym root) (h2 : 2 ≤ nsym) :
    ((emittedCodes nodes root).map fun e => 2 ^ (255 - e.2.length)).sum = 2 ^ 255 := by
  obtain ⟨f, l, r, hn⟩ := h.root_internal h2
  have hdepth : ([] : BitString).length + (root + 1 - nsym) ≤ 255 := by
    have hroot := h.rootLast
    have hcount := h.nodeCount
    have hsyms := h.someSymbol
    rw [List.length_nil]
    omega
  rw [emittedCodes_internal hn, h.genCodes_weight h.root_lt h.root_lt hdepth, List.length_nil, Nat.sub_zero]

end

/-- The entries of the code table are the codes emitted for the tree, in another order (rules R44 (d), R190). -/
theorem CoreInv.codeEntries_perm {s : State} (h : CoreInv s) (hcodes : s.status.codeV = true) :
    (codeEntries s.code).Perm (emittedCodes s.node s.root) := by
  obtain ⟨htreeV, -, hcode⟩ := h.codes hcodes
  refine (List.perm_ext_iff_of_nodup (codeEntries_nodup s.code) emittedCodes_nodup).2 ?_
  rintro ⟨b, c⟩
  rw [mem_codeEntries, hcode, (h.tree htreeV).mem_emittedCodes]

/-- The entries of the code table are prefix-free (rules R196, R197). -/
theorem CoreInv.prefixFree_codeEntries {s : State} (h : CoreInv s) (hcodes : s.status.codeV = true) :
    PrefixFree (codeEntries s.code) := by
  obtain ⟨hbounds, hprefix⟩ := codesArePrefixFree s h hcodes
  have symbol_ne : ∀ x ∈ codeEntries s.code, ∀ y ∈ codeEntries s.code, x ≠ y → x.1 ≠ y.1 := by
    rintro ⟨b, c⟩ hx ⟨b', c'⟩ hy hne rfl
    have hcc : some c = some c' := (mem_codeEntries.1 hx).symm.trans (mem_codeEntries.1 hy)
    exact hne (by rw [Option.some.inj hcc])
  constructor
  · rintro ⟨b, c⟩ hx
    exact List.length_pos_iff.1 (hbounds b c (mem_codeEntries.1 hx)).1
  · refine (codeEntries_nodup s.code).imp_of_mem fun {x y} hx hy hne => ?_
    have hsym := symbol_ne x hx y hy hne
    exact ⟨hprefix _ _ _ _ hsym (mem_codeEntries.1 hx) (mem_codeEntries.1 hy),
      hprefix _ _ _ _ hsym.symm (mem_codeEntries.1 hy) (mem_codeEntries.1 hx)⟩

/-- However a prefix-free code table is ordered, the tree rebuilt from it decodes what the table encodes (rules R258,
R259). -/
theorem exists_rebuildTree_decodes {code : Vector (Option BitString) 256} {table : List (Byte × BitString)}
    (hfree : PrefixFree (codeEntries code)) (hperm : table.Perm (codeEntries code)) :
    ∃ tree, rebuildTree table = some tree ∧
      ∀ text bs, encodeBytes (entry code) text = some bs → decodeBits tree bs = some text := by
  have hfree' : PrefixFree table := hfree.perm hperm
  obtain ⟨tree, hrebuild, hholds⟩ := rebuildTree_spec hfree'
  exact ⟨tree, hrebuild, decodeBits_encode hfree' hholds fun _ _ hc => hperm.mem_iff.2 (mem_codeEntries.2 hc)⟩

/-- Settles O21: the weights of the table are those of the codes emitted for the tree, which sum to 1 by induction over
it. -/
theorem codesFillTheTree : Obligations.CodesFillTheTree := by
  intro s h hcodes h2
  calc (symbols.map fun b => codeWeight (entry s.code b)).sum
      = ((codeEntries s.code).map fun e => 2 ^ (255 - e.2.length)).sum := sum_codeWeight s.code
    _ = ((emittedCodes s.node s.root).map fun e => 2 ^ (255 - e.2.length)).sum :=
        ((h.codeEntries_perm hcodes).map _).sum_eq
    _ = 2 ^ 255 := (h.tree (h.codes hcodes).1).emittedCodes_weight h2

/-- Settles O56: the code table is prefix-free, and the tree rebuilt from such a table decodes what it encodes. -/
theorem rebuiltTreeDecodesTheEncoding : Obligations.RebuiltTreeDecodesTheEncoding := by
  intro s h hcodes
  exact exists_rebuildTree_decodes (h.prefixFree_codeEntries hcodes) (.refl _)

end Sys2Proof.Machine
end

section
/-! PROOFS. The formats of the host software read back what they write (rules R251 to R254, R270 to R272): the legacy
token text but for two literals, and the container. -/

namespace Sys2Proof.Machine

/-! ### The legacy token text -/

/-- The legacy format can carry the literal under the policy `nul`: it is neither the byte that ends a record nor the byte
that stands for the sentinel (rules R253, R254). -/
abbrev Literal.Carried (lit : Literal) : Prop := lit ≠ .byte semicolon ∧ lit ≠ .byte 0#8

/-- The text of a token up to the semicolon that ends it (rule R251). -/
def recordText (p : SentinelPolicy) (t : Token) : List Byte :=
  decimalText t.offset ++ comma :: (decimalText t.length ++ comma :: literalText p t.lit)

theorem tokenText_eq (p : SentinelPolicy) (t : Token) : tokenText p t = recordText p t ++ [semicolon] := by
  simp only [tokenText, recordText, List.append_assoc, List.cons_append, List.nil_append]

theorem parseLiteral_literalText {lit : Literal} (h : lit.Carried) :
    parseLiteral .nul (literalText .nul lit) = some lit := by
  cases lit with
  | sentinel => rfl
  | byte b =>
    have hne : [b] ≠ SentinelPolicy.nul.endBytes := fun he => h.2 (congrArg Literal.byte (List.cons.inj he).1)
    rw [literalText, parseLiteral, if_neg hne]

theorem semicolon_notMem_literalText {lit : Literal} (h : lit.Carried) : semicolon ∉ literalText .nul lit := by
  cases lit with
  | sentinel => decide
  | byte b =>
    intro hmem
    exact h.1 (congrArg Literal.byte (List.mem_singleton.1 hmem).symm)

/-- No semicolon stands inside a record (rules R251, R253). -/
theorem semicolon_notMem_recordText {t : Token} (h : t.lit.Carried) : semicolon ∉ recordText .nul t := by
  have hcomma : semicolon ≠ comma := by decide
  simp only [recordText, List.mem_append, List.mem_cons, not_or]
  exact ⟨(decimal_not t.offset).2, hcomma, (decimal_not t.length).2, hcomma, semicolon_notMem_literalText h⟩

/-- A record reads back as its token: its first two commas are those between its fields (rule R252). -/
theorem parseRecord_recordText {t : Token} (h : t.lit.Carried) : parseRecord .nul (recordText .nul t) = some t := by
  simp only [parseRecord, recordText, splitFirst_append _ _ _ (decimal_not _).1, parse_decimalText,
    parseLiteral_literalText h, Option.bind_eq_bind, Option.bind_some, Option.pure_def]

/-- The records of a token text are those of its tokens (rules R251, R252). -/
theorem splitRecords_tokensText {ts : List Token} (h : ∀ t ∈ ts, t.lit.Carried) :
    splitRecords (tokensText .nul ts) = some (ts.map (recordText .nul)) := by
  induction ts with
  | nil => rfl
  | cons t ts ih =>
    have hsplit := splitRecords_append (recordText .nul t) (tokensText .nul ts)
      (semicolon_notMem_recordText (h t List.mem_cons_self))
    rw [ih fun x hx => h x (List.mem_cons_of_mem _ hx)] at hsplit
    simpa only [tokensText, List.flatMap_cons, tokenText_eq, List.append_assoc, List.cons_append, List.nil_append,
      List.map_cons, Option.map_some] using hsplit

theorem mapM_parseRecord_recordText {ts : List Token} (h : ∀ t ∈ ts, t.lit.Carried) :
    (ts.map (recordText .nul)).mapM (parseRecord .nul) = some ts := by
  induction ts with
  | nil => rfl
  | cons t ts ih =>
    rw [List.map_cons, List.mapM_cons, parseRecord_recordText (h t List.mem_cons_self),
      ih fun x hx => h x (List.mem_cons_of_mem _ hx)]
    rfl

/-- Settles O57: the text splits into the records of the tokens, and each record reads back. -/
theorem legacyTokenTextReadsBack : Obligations.LegacyTokenTextReadsBack := by
  intro ts h
  rw [parseTokens, splitRecords_tokensText h]
  exact mapM_parseRecord_recordText h

/-! ### The container -/

/-- A container whose counts are `int32` numbers reads back (rules R270, R272). -/
theorem parseContainer_containerBytes {c : Container} (hvbc : c.validBitCount < 2 ^ 31)
    (htable : c.codeTable.length < 2 ^ 31) (hpayload : c.payload.length < 2 ^ 31)
    (hcodes : ∀ e ∈ c.codeTable, e.2.length < 2 ^ 31) : parseContainer (containerBytes c) = some c := by
  have hlast : takeBytes c.payload.length c.payload = some (c.payload, []) := by
    simpa only [List.append_nil] using take_bytes c.payload []
  simp only [parseContainer, containerBytes, List.append_assoc, take_int32 _ hvbc, take_int32 _ htable,
    take_entries _ hcodes, take_int32 _ hpayload, hlast, Option.bind_eq_bind, Option.bind_some, Option.pure_def]

@[simp] theorem length_int32Bytes (n : Nat) : (int32Bytes n).length = 4 := rfl

theorem length_entryBytes (e : Byte × BitString) : (entryBytes e).length = 1 + 4 + e.2.length := by
  simp only [entryBytes, codeChars, List.length_cons, List.length_append, List.length_map, length_int32Bytes]
  omega

/-- The size formula of rule R271. -/
theorem length_containerBytes (c : Container) : (containerBytes c).length = containerSize c := by
  simp only [containerBytes, containerSize, List.length_append, List.length_flatMap, length_int32Bytes,
    length_entryBytes]

/-- Settles O58: each field of a container reads back off the front of what follows it. -/
theorem containerReadsBack : Obligations.ContainerReadsBack := by
  intro c hvbc htable hpayload hcodes
  exact ⟨parseContainer_containerBytes hvbc htable hpayload hcodes, length_containerBytes c⟩

end Sys2Proof.Machine
end

section
/-! PROOFS. The numbers of a core that meets its invariants (rules R9, R90, R104 to R107, R198): each is below `2^32`, and
each fits the field of the port word that shows it. -/

namespace Sys2Proof.Machine

section

variable {s : State} (h : CoreInv s)
include h

/-- The tree builder's outputs are a tree or empty (rule R44 (b), (c)). -/
theorem CoreInv.tree_cases :
    IsTree s.freq s.node s.nsym s.root ∨ (s.nsym = 0 ∧ s.node = [] ∧ s.root = 0 ∧ ∀ b, entry s.freq b = 0) := by
  cases htree : s.status.treeV with
  | true => exact .inl (h.tree htree)
  | false =>
    obtain ⟨hnsym, hnode, hroot, hfreq, -⟩ := h.noTree htree
    exact .inr ⟨hnsym, hnode, hroot, hfreq⟩

/-! ### The parameters, the stores and the cursor -/

/-- A count bounded by the capacity of `IN` or one more is below `2^31` (rule R10). -/
theorem CoreInv.inCap_lt : s.cfg.inCap + 1 < 2 ^ 31 := by
  obtain ⟨-, -, ⟨-, hin⟩, -⟩ := h.cfg
  omega

theorem CoreInv.symCap_lt : s.cfg.symCap < 2 ^ 31 := by
  obtain ⟨-, -, -, ⟨-, hsym⟩, -⟩ := h.cfg
  omega

theorem CoreInv.byteCap_lt : s.cfg.byteCap < 2 ^ 28 := by
  obtain ⟨-, -, -, -, ⟨-, hbyte⟩, -⟩ := h.cfg
  omega

theorem CoreInv.length_inBuf_lt : s.inBuf.length < 2 ^ 32 := by
  have := h.capacity.inLen
  have := h.inCap_lt
  omega

theorem CoreInv.length_tok_lt : s.tok.length < 2 ^ 32 := by
  have := h.capacity.tokCnt
  have := h.inCap_lt
  omega

theorem CoreInv.lzPos_lt : s.lzPos < 2 ^ 32 := by
  have := h.capacity.cursor
  have := h.inCap_lt
  omega

theorem CoreInv.length_sym_lt : s.sym.length < 2 ^ 32 := by
  have := h.capacity.symLen
  have := h.symCap_lt
  omega

theorem CoreInv.length_bits_lt : s.bits.length < 2 ^ 31 := h.capacity.bitLen.trans_lt h.cfg.bitCap_lt

theorem CoreInv.length_bytes_lt : s.bytes.length < 2 ^ 28 := h.capacity.byteLen.trans_lt h.byteCap_lt

/-- A token's fields are bounded by `W` and `L`, which fit the token word (rules R7, R104). -/
theorem CoreInv.token_fields_le : ∀ t ∈ s.tok, t.offset ≤ 8191 ∧ t.length ≤ 31 := by
  intro t ht
  obtain ⟨⟨-, hw⟩, hl, -⟩ := h.cfg
  obtain ⟨hoff, hlen⟩ := h.tokens t ht
  exact ⟨hoff.trans hw, hlen.trans hl⟩

/-! ### The tree -/

theorem CoreInv.nsym_le : s.nsym ≤ 256 := by
  obtain htree | ⟨hnsym, -⟩ := h.tree_cases
  · exact htree.someSymbol.2
  · omega

/-- The arena has at most 256 leaves and 255 internal nodes (rule R36). -/
theorem CoreInv.length_node_le : s.node.length ≤ 511 := by
  obtain htree | ⟨-, hnode, -⟩ := h.tree_cases
  · have := htree.nodeCount
    have := htree.someSymbol
    omega
  · simp [hnode]

theorem CoreInv.root_le : s.root ≤ 510 := by
  obtain htree | ⟨-, -, hroot, -⟩ := h.tree_cases
  · have := htree.rootLast
    have := h.length_node_le
    omega
  · omega

/-- A count is at most the sum of the counts, which the capacity of `SYM` bounds (rule R35). -/
theorem CoreInv.freq_lt (b : Byte) : entry s.freq b < 2 ^ 31 :=
  ((entry_le_freqTotal s.freq b).trans h.capacity.counted).trans_lt h.symCap_lt

/-- A node's frequency is at most the root's, the sum of the counts (rules R90, R175). -/
theorem CoreInv.node_freq_lt : ∀ n ∈ s.node, n.freq < 2 ^ 31 := by
  intro n hn
  obtain htree | ⟨-, hnode, -⟩ := h.tree_cases
  · obtain ⟨k, hk, rfl⟩ := List.getElem_of_mem hn
    calc s.node[k].freq
        = freqAt s.node k := (freqAt_of_getElem? (List.getElem?_eq_getElem hk)).symm
      _ ≤ freqTotal s.freq := htree.freq_le hk
      _ ≤ s.cfg.symCap := h.capacity.counted
      _ < 2 ^ 31 := h.symCap_lt
  · simp [hnode] at hn

/-- Children stand below their parent in an arena of at most 511 nodes (rules R106, R173). -/
theorem CoreInv.kids_lt (k f l r : Nat) (hk : s.node[k]? = some (.internal f l r)) : l < 512 ∧ r < 512 := by
  have hlt := (List.getElem?_eq_some_iff.1 hk).1
  obtain htree | ⟨-, hnode, -⟩ := h.tree_cases
  · have hnodes := h.length_node_le
    obtain ⟨-, hl, hr, -⟩ := htree.kids hk
    omega
  · simp [hnode] at hlt

/-- A code has at most 255 bits (rule R198); without valid codes there is none. -/
theorem CoreInv.code_length_le (b : Byte) (c : BitString) (hc : entry s.code b = some c) : c.length ≤ 255 := by
  cases hcodes : s.status.codeV with
  | true =>
    obtain ⟨htree, -, hcode⟩ := h.codes hcodes
    exact (h.tree htree).code_length_le ((hcode b c).1 hc)
  | false =>
    rw [h.noCodes hcodes b] at hc
    cases hc

end

/-- Settles O48: the capacities bound the stores, the sum of the counts every frequency, and the shape of the tree its
indices and codes. -/
theorem everyNumberFitsItsRegister : Obligations.EveryNumberFitsItsRegister := by
  intro s h
  exact ⟨h.length_inBuf_lt, h.length_tok_lt, h.lzPos_lt, h.length_sym_lt, h.nsym_le, h.length_node_le, h.root_le,
    h.length_bits_lt, h.length_bytes_lt, h.freq_lt, h.node_freq_lt, h.token_fields_le, h.code_length_le, h.kids_lt⟩

end Sys2Proof.Machine
end

section
/-! PROOFS. The round trip of the host software on the core (rules R265 to R268, R277): what each stage of `compress`
leaves in the core, and that `decompress` undoes the stages one by one. -/

namespace Sys2Proof.Machine

/-! ### The stages of `compress` -/

section

variable {s t : State}

theorem CoreInv.hostDo {as : List Access} (h : CoreInv s) (hrun : hostDo as s = .ok t) : CoreInv t :=
  h.hostRun (hostDo_ok.1 hrun)

/-- A host command that succeeds keeps the invariants: it is one command between two reads. -/
theorem CoreInv.hostCommand {i : Instr} (h : CoreInv s) (hrun : hostCommand i s = .ok t) : CoreInv t := by
  obtain ⟨-, r, r', u, hexec, -, rfl⟩ := hostCommand_ok hrun
  have hs : CoreInv { s with replies := r } := h.of_same rfl rfl
  exact (hs.exec hexec).of_same rfl rfl

/-- `CLEAR` and the pushes of an input that fits load it into the reset core (rules R265, R321). -/
theorem hostDo_clear_pushIn {input : List Byte} (hvalid : s.cfg.Valid)
    (hrun : hostDo (cmdAccess .clear :: pushBytes .inPush input) s = .ok t) (hherr : t.status.herr = false) :
    CoreInv t ∧ t.inBuf = input ∧ t.bits = [] := by
  have hpush : hostRun (pushBytes .inPush input) (resetCore s) = .next t := by
    simpa only [hostRun, serve_cmdAccess, exec, execClear] using hostDo_ok.1 hrun
  refine ⟨(coreInv_resetCore hvalid).hostRun hpush, ?_⟩
  obtain ⟨t', hrun', hfits⟩ := run_pushIn input (resetCore s)
  obtain rfl : t = t' := Host.Outcome.next.inj (hpush.symm.trans hrun')
  rw [hfits hherr]
  exact ⟨rfl, rfl⟩

/-- Symbols that were all pushed touch no other buffer (rules R235, R266). -/
theorem hostDo_pushSym {text : List Byte} (hrun : hostDo (pushBytes .symPush text) s = .ok t)
    (hherr : t.status.herr = false) : t.bits = s.bits := by
  obtain ⟨t', hrun', hfits⟩ := run_pushSym text s
  obtain rfl : t = t' := Host.Outcome.next.inj ((hostDo_ok.1 hrun).symm.trans hrun')
  rw [hfits hherr]

/-- Bits that were all pushed stand behind those there were (rules R235, R266). -/
theorem hostDo_pushBits {bs : BitString} (hrun : hostDo (pushBits bs) s = .ok t) (hherr : t.status.herr = false) :
    t.bits = s.bits ++ bs := by
  obtain ⟨t', hrun', hfits⟩ := run_pushBits bs s
  obtain rfl : t = t' := Host.Outcome.next.inj ((hostDo_ok.1 hrun).symm.trans hrun')
  rw [hfits hherr]

/-- After `LZMATCH` without an error, replaying the tokens gives the input (rule R144). -/
theorem hostCommand_lzmatch (hrun : hostCommand .lzmatch s = .ok t) : replay t.tok = some s.inBuf ∧ t.bits = s.bits := by
  obtain ⟨-, r, r', u, hexec, herr, rfl⟩ := hostCommand_ok hrun
  obtain ⟨-, rfl⟩ | ⟨-, rfl⟩ := execLzmatch_cases hexec
  · cases herr
  · exact ⟨lzTokens_parsed.replays, rfl⟩

theorem hostCommand_htree (hrun : hostCommand .htree s = .ok t) : t.bits = s.bits := by
  obtain ⟨-, r, r', u, hexec, -, rfl⟩ := hostCommand_ok hrun
  obtain ⟨-, rfl⟩ | ⟨-, rfl⟩ := execHtree_cases hexec <;> rfl

/-- After `HCODE` without an error the codes are valid (rule R195). -/
theorem hostCommand_hcode (hrun : hostCommand .hcode s = .ok t) : t.status.codeV = true ∧ t.bits = s.bits := by
  obtain ⟨-, r, r', u, hexec, herr, rfl⟩ := hostCommand_ok hrun
  obtain ⟨-, rfl⟩ | ⟨-, rfl⟩ := execHcode_cases hexec
  · cases herr
  · exact ⟨rfl, rfl⟩

/-- After `BPACK` the bytes hold the bits and `VBC` their number (rules R210, R213). -/
theorem hostCommand_bpack (hrun : hostCommand .bpack s = .ok t) :
    t.bytes = packBits s.bits ∧ t.vbc = asWord s.bits.length ∧ t.bits = s.bits ∧ t.status.herr = false := by
  obtain ⟨hherr, r, r', u, hexec, -, rfl⟩ := hostCommand_ok hrun
  rw [execBpack_next hexec]
  exact ⟨rfl, rfl, rfl, hherr⟩

/-! What the host reads from the core is what the core holds (rules R255, R256). -/

theorem CoreInv.hostTokens_ok (h : CoreInv s) {toks : List Token} (hrun : hostTokens s = .ok (toks, t)) :
    toks = s.tok ∧ Quiet s t := by
  obtain ⟨t', hrun', hquiet⟩ := hostTokens_eq s h.length_tok_lt h.token_fields_le
  obtain ⟨rfl, rfl⟩ := Prod.mk.inj (Except.ok.inj (hrun.symm.trans hrun'))
  exact ⟨rfl, hquiet⟩

theorem CoreInv.hostTable_ok (h : CoreInv s) {table : List (Byte × BitString)}
    (hrun : hostTable symbols s = .ok (table, t)) : table = codeEntries s.code ∧ Quiet s t := by
  obtain ⟨t', hrun', hquiet⟩ := hostTable_eq symbols s h.code_length_le
  obtain ⟨rfl, rfl⟩ := Prod.mk.inj (Except.ok.inj (hrun.symm.trans hrun'))
  exact ⟨rfl, hquiet⟩

theorem CoreInv.hostBytes_ok (h : CoreInv s) {bytes : List Byte} (hrun : hostBytes s = .ok (bytes, t)) :
    bytes = s.bytes ∧ Quiet s t := by
  obtain ⟨t', hrun', hquiet⟩ := hostBytes_eq s (h.length_bytes_lt.trans (by decide))
  obtain ⟨rfl, rfl⟩ := Prod.mk.inj (Except.ok.inj (hrun.symm.trans hrun'))
  exact ⟨rfl, hquiet⟩

end

/-! ### `compress` -/

section

variable {s1 s2 s3 s4 t : State} {input : List Byte} {toks : List Token}

/-- The first stage: the input is loaded and matched, and the host reads tokens that replay to it (rules R265, R266). -/
theorem host_tokens_stage (hvalid : s1.cfg.Valid)
    (hload : hostDo (cmdAccess .clear :: pushBytes .inPush input) s1 = .ok s2) (hlz : hostCommand .lzmatch s2 = .ok s3)
    (htoks : hostTokens s3 = .ok (toks, t)) : CoreInv t ∧ replay toks = some input ∧ t.bits = [] := by
  obtain ⟨inv2, hin, hbits2⟩ := hostDo_clear_pushIn hvalid hload (hostCommand_ok hlz).1
  have inv3 := inv2.hostCommand hlz
  obtain ⟨hreplay, hbits3⟩ := hostCommand_lzmatch hlz
  obtain ⟨rfl, quiet⟩ := inv3.hostTokens_ok htoks
  exact ⟨quiet.inv inv3, hin ▸ hreplay, by rw [quiet.bits, hbits3, hbits2]⟩

/-- The second stage: the tree and the codes of a text are built, and the host reads a valid code table (rule R266). -/
theorem host_codes_stage {text : List Byte} {table : List (Byte × BitString)} (inv : CoreInv s1)
    (hpush : hostDo (pushBytes .symPush text) s1 = .ok s2) (htree : hostCommand .htree s2 = .ok s3)
    (hcode : hostCommand .hcode s3 = .ok s4) (htable : hostTable symbols s4 = .ok (table, t)) :
    CoreInv t ∧ t.status.codeV = true ∧ table = codeEntries t.code ∧ t.bits = s1.bits := by
  have inv4 := ((inv.hostDo hpush).hostCommand htree).hostCommand hcode
  obtain ⟨hcodeV, hbits⟩ := hostCommand_hcode hcode
  obtain ⟨rfl, quiet⟩ := inv4.hostTable_ok htable
  refine ⟨quiet.inv inv4, by rw [quiet.status, hcodeV], by rw [quiet.code], ?_⟩
  rw [quiet.bits, hbits, hostCommand_htree htree, hostDo_pushSym hpush (hostCommand_ok htree).1]

/-- The third stage: the bits are packed, and the host reads their number and the bytes (rule R266). -/
theorem host_pack_stage {bs : BitString} {payload : List Byte} (inv : CoreInv s1) (hempty : s1.bits = [])
    (hpush : hostDo (pushBits bs) s1 = .ok s2) (hpack : hostCommand .bpack s2 = .ok s3)
    (hbytes : hostBytes (reply (readReg s3 .vbc) s3) = .ok (payload, t)) :
    CoreInv t ∧ t.status.herr = false ∧ bs.length ≤ t.cfg.bitCap ∧ (readReg s3 .vbc).toNat = bs.length ∧
      payload = packBits bs := by
  have inv3 := (inv.hostDo hpush).hostCommand hpack
  have hbits2 := hostDo_pushBits hpush (hostCommand_ok hpack).1
  rw [hempty, List.nil_append] at hbits2
  obtain ⟨hbytes3, hvbc3, hbits3, hherr3⟩ := hostCommand_bpack hpack
  rw [hbits2] at hbytes3 hvbc3 hbits3
  have inv3' : CoreInv (reply (readReg s3 .vbc) s3) := inv3.reply _
  obtain ⟨rfl, quiet⟩ := inv3'.hostBytes_ok hbytes
  have hfits : bs.length ≤ s3.cfg.bitCap := hbits3 ▸ inv3.capacity.bitLen
  have hcount : (readReg s3 .vbc).toNat = bs.length :=
    (congrArg BitVec.toNat hvbc3).trans (toNat_asWord (by have := inv3.cfg.bitCap_lt; omega))
  exact ⟨quiet.inv inv3', (congrArg Status.herr quiet.status).trans hherr3, quiet.cfg ▸ hfits, hcount, hbytes3⟩

end

/-- What a `compress` that succeeds has done: the tokens `toks` replay to the input, the core's codes `code` encode their
text as `bs`, and the container holds the number of the bits, the codes and the packed bits. -/
structure Compressed (codec : TokenCodec) (order : List (Byte × BitString) → List (Byte × BitString))
    (input : List Byte) (toks : List Token) (code : Vector (Option BitString) 256) (bs : BitString)
    (container : List Byte) (t : State) : Prop where
  inv        : CoreInv t
  noDrop     : t.status.herr = false
  replays    : replay toks = some input
  prefixFree : PrefixFree (codeEntries code)
  short      : ∀ b c, entry code b = some c → c.length ≤ 255
  encodes    : encodeBytes (entry code) (codec.write toks) = some bs
  fits       : bs.length ≤ t.cfg.bitCap
  contents   : container = containerBytes
    { validBitCount := bs.length, codeTable := order (codeEntries code), payload := packBits bs }

/-- A `compress` that succeeds went through its three stages. -/
theorem compressed_of_compress {codec : TokenCodec} {order : List (Byte × BitString) → List (Byte × BitString)}
    {input container : List Byte} {s t : State} (hvalid : s.cfg.Valid)
    (h : compress codec order input s = .ok (container, t)) :
    ∃ toks code bs, Compressed codec order input toks code bs container t := by
  simp only [compress, except_bind_ok, Prod.exists] at h
  obtain ⟨s1, hload, s2, hlz, toks, s3, htoks, s4, hpush, s5, htree, s6, hcode, table, s7, htable, h⟩ := h
  obtain ⟨inv3, hreplay, hbits3⟩ := host_tokens_stage hvalid hload hlz htoks
  obtain ⟨inv7, hcodeV, rfl, hbits7⟩ := host_codes_stage inv3 hpush htree hcode htable
  split at h
  · cases h
  next bs henc =>
    simp only [except_bind_ok, Prod.exists, hostGet_eq, Except.ok.injEq, Prod.mk.injEq, pure, Except.pure] at h
    obtain ⟨s8, hbits, s9, hpack, vbc, s10, ⟨rfl, rfl⟩, payload, s11, hbytes, rfl, rfl⟩ := h
    obtain ⟨inv11, hherr, hfits, hcount, rfl⟩ := host_pack_stage inv7 (hbits7.trans hbits3) hbits hpack hbytes
    rw [funext (tableCode_codeEntries s7.code)] at henc
    exact ⟨toks, s7.code, bs, {
      inv := inv11
      noDrop := hherr
      replays := hreplay
      prefixFree := inv7.prefixFree_codeEntries hcodeV
      short := inv7.code_length_le
      encodes := henc
      fits := hfits
      contents := by rw [hcount] }⟩

/-! ### `decompress` -/

/-- The container that `compress` writes reads back: its counts are far below `2^31` (rules R10, R198, R270). -/
theorem Compressed.parseContainer_eq {codec : TokenCodec}
    {order : List (Byte × BitString) → List (Byte × BitString)} {input container : List Byte} {toks : List Token}
    {code : Vector (Option BitString) 256} {bs : BitString} {t : State}
    (h : Compressed codec order input toks code bs container t) (horder : ∀ l, (order l).Perm l) :
    parseContainer container =
      some { validBitCount := bs.length, codeTable := order (codeEntries code), payload := packBits bs } := by
  have hcap := h.inv.cfg.bitCap_lt
  have hfits := h.fits
  have hperm := horder (codeEntries code)
  have htable := length_codeEntries_le code
  rw [h.contents]
  refine parseContainer_containerBytes ?_ ?_ ?_ ?_ <;> dsimp only
  · omega
  · rw [hperm.length_eq]; omega
  · rw [length_packBits]; omega
  · rintro ⟨b, c⟩ he
    have hshort := h.short b c (mem_codeEntries.1 (hperm.mem_iff.1 he))
    dsimp only
    omega

/-- The core with a payload and its bit count loaded (rules R267, R329). -/
def withPayload (bytes : List Byte) (vbc : Word) (s : State) : State :=
  { s with bits := [], bytes := bytes, vbc := vbc }

/-- `BUF_CLR` and the pushes of a payload that fits replace `BITS` and `BYTES` (rules R235, R237). -/
theorem hostDo_load_payload {t : State} {bytes : List Byte} (hfits : bytes.length ≤ t.cfg.byteCap) :
    hostDo (wr .bufClr 0xC#32 :: pushBytes .bytePush bytes) t = .ok (withPayload bytes t.vbc t) := by
  have hclear : serve (wr .bufClr 0xC#32) t = .next { t with bits := [], bytes := [] } :=
    (serve_wr .bufClr 0xC#32 t).trans (writeReg_bufClr 0xC#32 t)
  rw [hostDo_ok, hostRun, hclear]
  exact run_pushByte_fits bytes _ (by simpa only [List.length_nil, Nat.zero_add] using hfits)

/-- `BUNPACK` of packed bits, with the count of them in `VBC`, gives the bits back (rules R221, R268). -/
theorem hostCommand_bunpack {t : State} {bs : BitString} (hherr : t.status.herr = false) (hlen : bs.length < 2 ^ 32) :
    ∃ u, hostCommand .bunpack (withPayload (packBits bs) (asWord bs.length) t) = .ok u ∧ u.bits = bs := by
  have hvbc := toNat_asWord hlen
  refine ⟨_, hostCommand_of_exec hherr (exec_bunpack_of_le ?_) rfl, ?_⟩
  · simp only [reply_vbc, reply_bytes, withPayload, hvbc, length_packBits]
    omega
  · calc unpackBits (packBits bs) (asWord bs.length).toNat
        = unpackBits (packBits bs) bs.length := by rw [hvbc]
      _ = bs := unpackBits_packBits bs

/-- Packed bits loaded into the core with their count unpack to the bits the host then reads (rules R221, R268). -/
theorem host_unpack {t : State} {bs : BitString} (hinv : CoreInv t) (hherr : t.status.herr = false)
    (hfits : bs.length ≤ t.cfg.bitCap) :
    ∃ s1 s2 s3 s4, hostDo (wr .bufClr 0xC#32 :: pushBytes .bytePush (packBits bs)) t = .ok s1 ∧
      hostDo [wr .vbc (asWord bs.length)] s1 = .ok s2 ∧ hostCommand .bunpack s2 = .ok s3 ∧
      hostBits s3 = .ok (bs, s4) := by
  have hlen : bs.length < 2 ^ 32 := by have := hinv.cfg.bitCap_lt; omega
  have hbytes : (packBits bs).length ≤ t.cfg.byteCap := by
    rw [Config.bitCap] at hfits
    rw [length_packBits]
    omega
  obtain ⟨s3, hunpack, rfl⟩ := hostCommand_bunpack hherr hlen
  obtain ⟨s4, hread, -⟩ := hostBits_eq s3 hlen
  exact ⟨_, _, s3, s4, hostDo_load_payload hbytes, rfl, hunpack, hread⟩

/-- Settles O59: `decompress` reads the container back, rebuilds the codes, unpacks the bits, decodes the text, reads the
tokens and replays them. -/
theorem decompressOfCompressIsTheInput : Obligations.DecompressOfCompressIsTheInput := by
  intro codec order input container s t hvalid hcodec horder hcompress
  obtain ⟨toks, code, bs, h⟩ := compressed_of_compress hvalid hcompress
  obtain ⟨tree, hrebuild, hdecode⟩ := exists_rebuildTree_decodes h.prefixFree (horder (codeEntries code))
  obtain ⟨s1, s2, s3, s4, hload, hvbc, hunpack, hbits⟩ := host_unpack h.inv h.noDrop h.fits
  refine ⟨s4, ?_⟩
  simp only [decompress, h.parseContainer_eq horder, hrebuild, except_bind_ok, Prod.exists]
  refine ⟨s1, hload, s2, hvbc, s3, hunpack, bs, s4, hbits, ?_⟩
  simp only [hdecode _ _ h.encodes, hcodec toks, h.replays, Option.bind_eq_bind, Option.bind_some]
  rfl

end Sys2Proof.Machine
end

section
/-! PROOFS. The command words (rules R100 to R103): the six opcodes with `ZERO` = 0 are the words that decode, and a word
that decodes is its command's own. -/

namespace Sys2Proof.Machine

/-- Settles O1: each word is the encoding of its command. -/
theorem sixCommandWordsDecode : Obligations.SixCommandWordsDecode :=
  ⟨decode_encode .lzmatch, decode_encode .htree, decode_encode .hcode, decode_encode .bpack, decode_encode .bunpack,
    decode_encode .clear⟩

/-- Settles O2: the decoder undoes the encoder. -/
theorem decodeOfEncodeIsTheCommand : Obligations.DecodeOfEncodeIsTheCommand := by
  intro i _
  exact decode_encode i

/-- Every word of the opcode map is the word of a command (rule R101). -/
theorem exists_encode_of_mem {c : Word} (h : c.toNat ∈ [0x01, 0x02, 0x03, 0x04, 0x05, 0x0F]) : ∃ i, encode i = c := by
  simp only [List.mem_cons, List.not_mem_nil, or_false] at h
  obtain h | h | h | h | h | h := h
  · exact ⟨.lzmatch, BitVec.eq_of_toNat_eq h.symm⟩
  · exact ⟨.htree, BitVec.eq_of_toNat_eq h.symm⟩
  · exact ⟨.hcode, BitVec.eq_of_toNat_eq h.symm⟩
  · exact ⟨.bpack, BitVec.eq_of_toNat_eq h.symm⟩
  · exact ⟨.bunpack, BitVec.eq_of_toNat_eq h.symm⟩
  · exact ⟨.clear, BitVec.eq_of_toNat_eq h.symm⟩

/-- The legal words are the six of the opcode map (rules R101, R102). -/
theorem exists_decode_iff (c : Word) : (∃ i, decode c = .ok i) ↔ c.toNat ∈ [0x01, 0x02, 0x03, 0x04, 0x05, 0x0F] := by
  constructor
  · rintro ⟨i, hi⟩
    exact word_of_decode hi ▸ toNat_encode_mem i
  · intro h
    obtain ⟨i, rfl⟩ := exists_encode_of_mem h
    exact ⟨i, decode_encode i⟩

/-- Settles O3: the six words are below 256, so `ZERO` is 0 and `OP` the whole word. -/
theorem legalWordsAreExactlyTheSix : Obligations.LegalWordsAreExactlyTheSix := by
  refine ⟨fun c => (exists_decode_iff c).trans ?_, fun c i => word_of_decode⟩
  simp only [List.mem_cons, List.not_mem_nil, or_false]
  omega

end Sys2Proof.Machine
end

section
/-! PROOFS. How a command ends (rules R293 to R297): with success, or in one of four errors, each on the state with the
command's outputs emptied. -/

namespace Sys2Proof.Machine

/-! ### The commands that need no inversion -/

/-- `LZMATCH` on an empty `IN` reports the emptied state (rule R147). -/
theorem exec_lzmatch_of_nil {s : State} (h : s.inBuf = []) :
    exec .lzmatch s = .next (raise .emptyInput 0#32 (emptyTokens s)) := by
  simp only [exec, execLzmatch, h, List.length_nil, if_true]

/-- `HCODE` without a tree reports the state without codes (rules R194, R199). -/
theorem exec_hcode_of_not_treeV {s : State} (h : s.status.treeV = false) :
    exec .hcode s = .next (raise .sequenceError 3#32 (emptyCodes s)) := by
  simp only [exec, execHcode, h, Bool.false_eq_true, if_false]

theorem exec_clear (s : State) : exec .clear s = .next (resetCore s) := by
  simp only [exec, execClear]

/-- Settles O7: the command raises `EmptyInput` on the emptied state. -/
theorem lzmatchOnEmptyInputFails : Obligations.LzmatchOnEmptyInputFails := by
  intro s hnil
  exact exec_lzmatch_of_nil hnil

/-- Settles O19: the command raises `SequenceError` on the state without codes. -/
theorem hcodeWithoutTreeFails : Obligations.HcodeWithoutTreeFails := by
  intro s htree
  exact exec_hcode_of_not_treeV htree

/-- Settles O27: `CLEAR` and a reset are both `resetCore`. -/
theorem clearGivesTheResetState : Obligations.ClearGivesTheResetState := by
  intro s
  have hreset : serve .reset s = .next (resetCore s) := by simp only [serve]
  exact ⟨exec_clear s, hreset.trans (exec_clear s).symm⟩

/-! ### The ways to end -/

/-- The four ways a command ends in an error, with the state it leaves (rule R293). -/
inductive FailedEnd (s : State) : Instr → State → Prop where
  | lzmatch : FailedEnd s .lzmatch (raise .emptyInput 0#32 (emptyTokens s))
  | htree : FailedEnd s .htree (raise .emptyInput 0#32 (emptyTree s))
  | hcode : FailedEnd s .hcode (raise .sequenceError 3#32 (emptyCodes s))
  | bunpack : FailedEnd s .bunpack (raise .malformed s.vbc (emptyBits s))

/-- A command ends with success, which for `CLEAR` is the reset state, or in one of the four errors (rules R293 to R296). -/
theorem exec_end {i : Instr} {s t : State} (h : exec i s = .next t) :
    (t.err = .ok ∧ (t.status.state = .done ∨ i = .clear ∧ t.status.state = .idle)) ∨ FailedEnd s i t := by
  cases i with
  | lzmatch =>
    obtain ⟨-, rfl⟩ | ⟨-, rfl⟩ := execLzmatch_cases h
    · exact .inr .lzmatch
    · exact .inl ⟨rfl, .inl rfl⟩
  | htree =>
    obtain ⟨-, rfl⟩ | ⟨-, rfl⟩ := execHtree_cases h
    · exact .inr .htree
    · exact .inl ⟨rfl, .inl rfl⟩
  | hcode =>
    obtain ⟨-, rfl⟩ | ⟨-, rfl⟩ := execHcode_cases h
    · exact .inr .hcode
    · exact .inl ⟨rfl, .inl rfl⟩
  | bpack =>
    rw [execBpack_next h]
    exact .inl ⟨rfl, .inl rfl⟩
  | bunpack =>
    obtain ⟨-, rfl⟩ | ⟨-, rfl⟩ := execBunpack_cases h
    · exact .inr .bunpack
    · exact .inl ⟨rfl, .inl rfl⟩
  | clear =>
    rw [execClear_next h]
    exact .inl ⟨rfl, .inr ⟨rfl, rfl⟩⟩

/-- Settles O53: the error of each of the four failing ends is the one listed for its command. -/
theorem commandsEndAsListed : Obligations.CommandsEndAsListed := by
  intro i s t h
  obtain hdone | hfailed := exec_end h
  · exact .inl hdone
  · cases hfailed with
    | lzmatch => exact .inr ⟨rfl, rfl, .inl ⟨rfl, .inl rfl⟩⟩
    | htree => exact .inr ⟨rfl, rfl, .inl ⟨rfl, .inr rfl⟩⟩
    | hcode => exact .inr ⟨rfl, rfl, .inr (.inl ⟨rfl, rfl⟩)⟩
    | bunpack => exact .inr ⟨rfl, rfl, .inr (.inr ⟨rfl, rfl⟩)⟩

/-- Settles O54: each of the four failing ends is `raise` on the state with the command's outputs emptied, and the rules
of these two updates say what they leave. -/
theorem errorsLeaveNoPartialOutput : Obligations.ErrorsLeaveNoPartialOutput := by
  intro i s t h herr
  obtain ⟨hok, -⟩ | hfailed := exec_end h
  · exact absurd hok herr
  · cases hfailed with
    | lzmatch => simp
    | htree => simp
    | hcode => simp
    | bunpack => simp

end Sys2Proof.Machine
end

section
/-! PROOFS. The leaves of `HTREE` (rules R163, R164): the symbols that occur, ascending, each with its count; the counts
are all the tree depends on. -/

namespace Sys2Proof.Machine

/-- The leaves stand first in the arena (rule R164). -/
theorem take_buildArena {freq : Vector Nat 256} (h : 1 ≤ (leavesOf freq).length) :
    (buildArena freq).1.take (leavesOf freq).length = leavesOf freq := by
  obtain ⟨hmerging, -⟩ := buildArena_merging h
  obtain ⟨hle, hleafs⟩ := hmerging.leafs
  refine List.ext_getElem? fun k => ?_
  by_cases hk : k < (leavesOf freq).length
  · rw [List.getElem?_take_of_lt hk, hleafs k hk]
  · rw [List.getElem?_eq_none (by rw [List.length_take]; omega), List.getElem?_eq_none (by omega)]

/-- The leaves of a count are the symbols that occur, ascending (rules R163, R164). -/
theorem leavesOf_countSymbols (sym : List Byte) :
    leavesOf (countSymbols sym) =
      (symbols.filter fun b => decide (b ∈ sym)).map fun b => .leaf b (sym.count b) := by
  simp only [leavesOf_eq, entry_countSymbols, List.count_pos_iff]

/-- There are as many leaves as distinct bytes (rule R164). -/
theorem length_leavesOf_countSymbols (sym : List Byte) : (leavesOf (countSymbols sym)).length = sym.dedup.length := by
  have hperm : (symbols.filter fun b => decide (b ∈ sym)).Perm sym.dedup := by
    refine (List.perm_ext_iff_of_nodup (symbols_nodup.filter _) (List.nodup_dedup sym)).2 fun b => ?_
    simp only [List.mem_filter, mem_symbols, true_and, decide_eq_true_eq, List.mem_dedup]
  rw [leavesOf_countSymbols, List.length_map, hperm.length_eq]

/-- The count does not depend on the order of the symbols (rule R163). -/
theorem countSymbols_perm {l sym : List Byte} (h : l.Perm sym) : countSymbols l = countSymbols sym :=
  table_ext fun b => by rw [entry_countSymbols, entry_countSymbols, h.count_eq b]

/-- Settles O13: the arena begins with the leaves of the count. -/
theorem htreeLeavesAscend : Obligations.HtreeLeavesAscend := by
  intro s hne
  refine ⟨_, exec_htree_of_ne_nil hne, ?_, length_leavesOf_countSymbols s.sym⟩
  exact (take_buildArena (leaves_pos hne)).trans (leavesOf_countSymbols s.sym)

/-- Settles O16: the command stores the tree of the count, and the count ignores the order. -/
theorem htreeIgnoresTheOrderOfSymbols : Obligations.HtreeIgnoresTheOrderOfSymbols := by
  intro s l hne hperm
  have hl : l ≠ [] := fun hnil => hne (List.nil_perm.1 (hnil ▸ hperm))
  refine ⟨_, exec_htree_of_ne_nil hne, ?_⟩
  rw [exec_htree_of_ne_nil (s := { s with sym := l }) hl, ← countSymbols_perm hperm]
  rfl

end Sys2Proof.Machine
end

section
/-! PROOFS. The bus and the host's queue (rules R70 to R75, R80, R233 to R236): which accesses have a meaning, and what
each write does. -/

namespace Sys2Proof.Machine

/-! ### Supported and refused accesses (rules R71, R72) -/

theorem serve_write_word {off : Nat} (hlt : off < 256) (halign : off % 4 = 0) (v : Word) (s : State) :
    serve (.write .word off v) s = writeOffset off v s := by
  simp only [serve, (busRefusal_eq_none_iff .word off).2 ⟨rfl, hlt, halign⟩]

theorem serve_read_word {off : Nat} (hlt : off < 256) (halign : off % 4 = 0) (s : State) :
    serve (.read .word off) s = .next (reply (readOffset s off) s) := by
  simp only [serve, (busRefusal_eq_none_iff .word off).2 ⟨rfl, hlt, halign⟩]

/-- A supported access always completes (rules R294, R308). -/
theorem serve_of_supported {a : Access} (h : a.Supported) (s : State) : ∃ t, serve a s = .next t := by
  cases a with
  | read w off =>
    obtain ⟨rfl, hlt, halign⟩ := h
    exact ⟨_, serve_read_word hlt halign s⟩
  | write w off v =>
    obtain ⟨rfl, hlt, halign⟩ := h
    rw [serve_write_word hlt halign]
    exact writeOffset_next off v s
  | reset => exact ⟨resetCore s, rfl⟩

theorem serve_of_not_supported {a : Access} (h : ¬ a.Supported) (s : State) : ∃ r, serve a s = .refused r := by
  have refusal : ∀ w off, ¬ (w = .word ∧ off < 256 ∧ off % 4 = 0) → ∃ r, busRefusal w off = some r := fun w off hn =>
    Option.ne_none_iff_exists'.1 (mt (busRefusal_eq_none_iff w off).1 hn)
  cases a with
  | read w off =>
    obtain ⟨r, hr⟩ := refusal w off h
    exact ⟨r, by simp only [serve, hr]⟩
  | write w off v =>
    obtain ⟨r, hr⟩ := refusal w off h
    exact ⟨r, by simp only [serve, hr]⟩
  | reset => exact absurd trivial h

theorem readOffset_takeAccess (rest : List Access) (s : State) (off : Nat) :
    readOffset (takeAccess rest s) off = readOffset s off := by
  unfold readOffset
  split
  · next r _ => cases r <;> rfl
  · rfl

/-- Settles O30: a supported access completes, any other is refused. -/
theorem busRefusesExactlyTheUnsupported : Obligations.BusRefusesExactlyTheUnsupported := by
  intro s a rest hp
  rw [step_of_pending hp]
  refine ⟨?_, fun h => serve_of_not_supported h _⟩
  rintro ⟨r, hr⟩ hsupported
  obtain ⟨t, ht⟩ := serve_of_supported hsupported (takeAccess rest s)
  cases hr.symm.trans ht

/-- Settles O31: the core waits, or serves the next access, which is supported. -/
theorem everySupportedStepCompletes : Obligations.EverySupportedStepCompletes := by
  intro s h
  cases hp : s.pending with
  | nil => exact ⟨s, step_of_pending_nil hp⟩
  | cons a rest =>
    rw [step_of_pending hp]
    exact serve_of_supported (h a (by rw [hp]; rfl)) _

/-- Settles O4: a step serves the access at the head of the queue, and a write to `CMD` runs the decoded command. -/
theorem stepRunsTheDecodedCommand : Obligations.StepRunsTheDecodedCommand := by
  refine ⟨fun s rest c i hdecode hp => ?_, fun s rest off v hlt halign hp => ?_, fun s => step_of_pending_nil⟩
  · calc step s
        = serve (wr .cmd c) (takeAccess rest s) := step_of_pending hp
      _ = runCommand c (takeAccess rest s) := serve_wr .cmd c _
      _ = exec i (takeAccess rest s) := by simp only [runCommand, hdecode]
  · exact (step_of_pending hp).trans (serve_write_word hlt halign v _)

/-- Settles O32: the step replies with what the register reads, which the host's queue does not change. -/
theorem readsChangeNoState : Obligations.ReadsChangeNoState := by
  intro s off rest hlt halign hp
  rw [step_of_pending hp, serve_read_word hlt halign, readOffset_takeAccess]
  rfl

/-- Settles O44: the offset is the distance from `BASE`. -/
theorem blockLiesAtBase : Obligations.BlockLiesAtBase := by
  intro c addr off
  simp only [blockOffset, Option.ite_none_right_eq_some, Option.some.injEq]
  omega

/-- Settles O29: the constraints hold whatever the free parameters are. -/
theorem hardwareParametersAreLegal : Obligations.HardwareParametersAreLegal :=
  ⟨rfl, rfl, rfl, Config.hardware_valid⟩

/-! ### Writes to registers and ports (rules R233 to R236) -/

/-- Settles O34: each of the seven registers is written whole and read back. -/
theorem storedRegistersKeepTheWord : Obligations.StoredRegistersKeepTheWord := by
  intro s v
  refine ⟨writeOffset_offset .tokIdx v s, writeOffset_offset .freqIdx v s, writeOffset_offset .nodeIdx v s,
    writeOffset_offset .codeIdx v s, writeOffset_offset .bitIdx v s, writeOffset_offset .byteIdx v s,
    writeOffset_offset .vbc v s, ?_⟩
  simp only [List.forall_mem_cons]
  exact ⟨⟨_, writeOffset_offset .tokIdx v s, readOffset_offset .tokIdx _⟩,
    ⟨_, writeOffset_offset .freqIdx v s, readOffset_offset .freqIdx _⟩,
    ⟨_, writeOffset_offset .nodeIdx v s, readOffset_offset .nodeIdx _⟩,
    ⟨_, writeOffset_offset .codeIdx v s, readOffset_offset .codeIdx _⟩,
    ⟨_, writeOffset_offset .bitIdx v s, readOffset_offset .bitIdx _⟩,
    ⟨_, writeOffset_offset .byteIdx v s, readOffset_offset .byteIdx _⟩,
    ⟨_, writeOffset_offset .vbc v s, readOffset_offset .vbc _⟩, List.forall_mem_nil _⟩

/-- Settles O35: each push port appends when its buffer has room (the cases of the push ports). -/
theorem pushAppendsOneElement : Obligations.PushAppendsOneElement := by
  intro s v
  rw [← pushedByte_eq, ← pushedBit_eq]
  refine ⟨fun h => ?_, fun h => ?_, fun h => ?_, fun h => ?_⟩
  · exact (writeOffset_offset .inPush v s).trans (congrArg _ (if_pos h))
  · exact (writeOffset_offset .symPush v s).trans (congrArg _ (if_pos h))
  · exact (writeOffset_offset .bitPush v s).trans (congrArg _ (if_pos h))
  · exact (writeOffset_offset .bytePush v s).trans (congrArg _ (if_pos h))

/-- Settles O36: each push port drops the element when its buffer is full. -/
theorem pushToAFullBufferIsDropped : Obligations.PushToAFullBufferIsDropped := by
  intro s v
  refine ⟨fun h => ?_, fun h => ?_, fun h => ?_, fun h => ?_⟩
  · exact (writeOffset_offset .inPush v s).trans (congrArg _ (if_neg h.not_gt))
  · exact (writeOffset_offset .symPush v s).trans (congrArg _ (if_neg h.not_gt))
  · exact (writeOffset_offset .bitPush v s).trans (congrArg _ (if_neg h.not_gt))
  · exact (writeOffset_offset .bytePush v s).trans (congrArg _ (if_neg h.not_gt))

end Sys2Proof.Machine
end

section
/-! PROOFS. What a step changes (rules R24, R42, R43, R45, R76, R234, R302): a frame for every command, the effects a step
that wipes nothing can have, and what each field's change says about the step. -/

namespace Sys2Proof.Machine

/-! ### The frame of a command -/

/-- What the command `i`, which is not `CLEAR`, can change on the way from `s` to `t` (rules R43, R45, R76). -/
structure CommandFrame (i : Instr) (s t : State) : Prop where
  cfg     : t.cfg = s.cfg
  inBuf   : t.inBuf = s.inBuf
  sym     : t.sym = s.sym
  indexes : t.tokIdx = s.tokIdx ∧ t.freqIdx = s.freqIdx ∧ t.nodeIdx = s.nodeIdx ∧ t.codeIdx = s.codeIdx ∧
    t.bitIdx = s.bitIdx ∧ t.byteIdx = s.byteIdx
  herr    : t.status.herr = s.status.herr
  ever    : t.status.ever = s.status.ever ∨ t.status.state = .error ∧ t.status.ever = true
  tokens  : (t.tok = s.tok ∧ t.lzPos = s.lzPos) ∧ t.status.tokV = s.status.tokV ∨ i = .lzmatch
  tree    : (t.freq = s.freq ∧ t.node = s.node ∧ t.nsym = s.nsym ∧ t.root = s.root) ∧
    t.status.treeV = s.status.treeV ∨ i = .htree
  codes   : t.code = s.code ∧ t.status.codeV = s.status.codeV ∨ i = .hcode ∨ i = .htree
  bits    : t.bits = s.bits ∨ i = .bunpack
  bytes   : t.bytes = s.bytes ∧ t.vbc = s.vbc ∨ i = .bpack

theorem exec_frame {i : Instr} {s t : State} (h : exec i s = .next t) (hi : i ≠ .clear) : CommandFrame i s t := by
  cases i with
  | lzmatch => obtain ⟨-, rfl⟩ | ⟨-, rfl⟩ := execLzmatch_cases h <;> constructor <;> simp
  | htree => obtain ⟨-, rfl⟩ | ⟨-, rfl⟩ := execHtree_cases h <;> constructor <;> simp
  | hcode => obtain ⟨-, rfl⟩ | ⟨-, rfl⟩ := execHcode_cases h <;> constructor <;> simp
  | bpack => rw [execBpack_next h]; constructor <;> simp
  | bunpack => obtain ⟨-, rfl⟩ | ⟨-, rfl⟩ := execBunpack_cases h <;> constructor <;> simp
  | clear => exact absurd rfl hi

/-! ### The effects of a step that wipes nothing -/

/-- A register that is a push port (rule R235). -/
abbrev Reg.IsPushPort (r : Reg) : Prop := r = .inPush ∨ r = .symPush ∨ r = .bitPush ∨ r = .bytePush

/-- What a step that is no reset and no `CLEAR` can do to `s`: only the host's side moves, or, with the access taken off
the queue, a command runs or one register is written. -/
inductive StepEffect (s : State) : State → Prop where
  | host (pending : List Access) (replies : List Word) : StepEffect s { s with pending := pending, replies := replies }
  | command (i : Instr) (rest : List Access) (t : State) : NextRuns s i → CommandFrame i (takeAccess rest s) t →
      StepEffect s t
  | illegal (c : Word) (rest : List Access) : NextWrites s .cmd c →
      StepEffect s (raise .illegalCommand c (takeAccess rest s))
  | bufClr (v : Word) (rest : List Access) : NextWrites s .bufClr v → StepEffect s (clearBuffers v (takeAccess rest s))
  | dropped (r : Reg) (v : Word) (rest : List Access) : r.IsPushPort → NextWrites s r v →
      StepEffect s (dropPush (takeAccess rest s))
  | inPush (v : Word) (rest : List Access) : NextWrites s .inPush v →
      StepEffect s { takeAccess rest s with inBuf := s.inBuf ++ [pushedByte v] }
  | symPush (v : Word) (rest : List Access) : NextWrites s .symPush v →
      StepEffect s { takeAccess rest s with sym := s.sym ++ [pushedByte v] }
  | bitPush (v : Word) (rest : List Access) : NextWrites s .bitPush v →
      StepEffect s { takeAccess rest s with bits := s.bits ++ [pushedBit v] }
  | bytePush (v : Word) (rest : List Access) : NextWrites s .bytePush v →
      StepEffect s { takeAccess rest s with bytes := s.bytes ++ [pushedByte v] }
  | tokIdx (v : Word) (rest : List Access) : NextWrites s .tokIdx v →
      StepEffect s { takeAccess rest s with tokIdx := v }
  | freqIdx (v : Word) (rest : List Access) : NextWrites s .freqIdx v →
      StepEffect s { takeAccess rest s with freqIdx := v }
  | nodeIdx (v : Word) (rest : List Access) : NextWrites s .nodeIdx v →
      StepEffect s { takeAccess rest s with nodeIdx := v }
  | codeIdx (v : Word) (rest : List Access) : NextWrites s .codeIdx v →
      StepEffect s { takeAccess rest s with codeIdx := v }
  | bitIdx (v : Word) (rest : List Access) : NextWrites s .bitIdx v →
      StepEffect s { takeAccess rest s with bitIdx := v }
  | byteIdx (v : Word) (rest : List Access) : NextWrites s .byteIdx v →
      StepEffect s { takeAccess rest s with byteIdx := v }
  | vbc (v : Word) (rest : List Access) : NextWrites s .vbc v → StepEffect s { takeAccess rest s with vbc := v }

/-- The effect of a write that runs no `CLEAR`: a push either fits or is dropped (rules R235, R236). -/
theorem WriteEffect.stepEffect {s t : State} {r : Reg} {v : Word} {rest : List Access}
    (h : WriteEffect v (takeAccess rest s) r t) (hw : NextWrites s r v) (hclear : r = .cmd → v ≠ encode .clear) :
    StepEffect s t := by
  cases h with
  | command i t hdecode hexec =>
    obtain rfl := word_of_decode hdecode
    exact .command i rest t hw (exec_frame hexec fun hi => hclear rfl (congrArg encode hi))
  | illegal e he => exact .illegal v rest hw
  | bufClr => exact .bufClr v rest hw
  | inPush =>
    obtain ⟨-, he⟩ | ⟨-, he⟩ := pushIn_cases v (takeAccess rest s) <;> rw [he]
    · exact .inPush v rest hw
    · exact .dropped .inPush v rest (.inl rfl) hw
  | symPush =>
    obtain ⟨-, he⟩ | ⟨-, he⟩ := pushSym_cases v (takeAccess rest s) <;> rw [he]
    · exact .symPush v rest hw
    · exact .dropped .symPush v rest (.inr (.inl rfl)) hw
  | bitPush =>
    obtain ⟨-, he⟩ | ⟨-, he⟩ := pushBit_cases v (takeAccess rest s) <;> rw [he]
    · exact .bitPush v rest hw
    · exact .dropped .bitPush v rest (.inr (.inr (.inl rfl))) hw
  | bytePush =>
    obtain ⟨-, he⟩ | ⟨-, he⟩ := pushByte_cases v (takeAccess rest s) <;> rw [he]
    · exact .bytePush v rest hw
    · exact .dropped .bytePush v rest (.inr (.inr (.inr rfl))) hw
  | tokIdx => exact .tokIdx v rest hw
  | freqIdx => exact .freqIdx v rest hw
  | nodeIdx => exact .nodeIdx v rest hw
  | codeIdx => exact .codeIdx v rest hw
  | bitIdx => exact .bitIdx v rest hw
  | byteIdx => exact .byteIdx v rest hw
  | vbc => exact .vbc v rest hw
  | ignored => exact .host rest s.replies

theorem step_effect {s t : State} (h : step s = .next t) (hwipes : ¬ NextWipes s) : StepEffect s t := by
  obtain heq | ⟨rest, r, v, hw, heffect, hclear⟩ := step_write_cases h hwipes
  · rw [heq]
    exact .host t.pending t.replies
  · exact heffect.stepEffect hw hclear

/-- A reset and `CLEAR` both give the reset state (rules R320, R321). -/
theorem step_of_wipes {s : State} (h : NextWipes s) : ∃ rest, step s = .next (resetCore (takeAccess rest s)) := by
  obtain hreset | hclear := h
  · obtain ⟨rest, hp⟩ := List.head?_eq_some_iff.1 hreset
    exact ⟨rest, step_of_pending hp⟩
  · obtain ⟨rest, hp⟩ := List.head?_eq_some_iff.1 hclear
    refine ⟨rest, ?_⟩
    calc step s
        = serve (cmdAccess .clear) (takeAccess rest s) := step_of_pending hp
      _ = exec .clear (takeAccess rest s) := serve_cmdAccess .clear _
      _ = .next (resetCore (takeAccess rest s)) := exec_clear _

/-! ### Who changes each field -/

section

variable {s t : State} (h : StepEffect s t)
include h

/-- No register write and no command changes the parameters (rule R24). -/
theorem StepEffect.cfg_eq : t.cfg = s.cfg := by
  cases h with
  | command i rest t hruns frame => exact frame.cfg
  | _ => rfl

theorem StepEffect.indexes_unchanged_or :
    (t.tokIdx = s.tokIdx ∨ NextWrites s .tokIdx t.tokIdx) ∧ (t.freqIdx = s.freqIdx ∨ NextWrites s .freqIdx t.freqIdx) ∧
    (t.nodeIdx = s.nodeIdx ∨ NextWrites s .nodeIdx t.nodeIdx) ∧
    (t.codeIdx = s.codeIdx ∨ NextWrites s .codeIdx t.codeIdx) ∧
    (t.bitIdx = s.bitIdx ∨ NextWrites s .bitIdx t.bitIdx) ∧
    (t.byteIdx = s.byteIdx ∨ NextWrites s .byteIdx t.byteIdx) := by
  cases h with
  | command i rest t hruns frame =>
    obtain ⟨htok, hfreq, hnode, hcode, hbit, hbyte⟩ := frame.indexes
    exact ⟨.inl htok, .inl hfreq, .inl hnode, .inl hcode, .inl hbit, .inl hbyte⟩
  | tokIdx v rest hw | freqIdx v rest hw | nodeIdx v rest hw | codeIdx v rest hw | bitIdx v rest hw
  | byteIdx v rest hw => simp [hw]
  | _ => simp

theorem StepEffect.inBuf_unchanged_or : t.inBuf = s.inBuf ∨ ∃ v, NextWrites s .inPush v ∨ NextWrites s .bufClr v := by
  cases h with
  | command i rest t hruns frame => exact .inl frame.inBuf
  | inPush v rest hw => exact .inr ⟨v, .inl hw⟩
  | bufClr v rest hw => exact .inr ⟨v, .inr hw⟩
  | _ => exact .inl rfl

theorem StepEffect.sym_unchanged_or : t.sym = s.sym ∨ ∃ v, NextWrites s .symPush v ∨ NextWrites s .bufClr v := by
  cases h with
  | command i rest t hruns frame => exact .inl frame.sym
  | symPush v rest hw => exact .inr ⟨v, .inl hw⟩
  | bufClr v rest hw => exact .inr ⟨v, .inr hw⟩
  | _ => exact .inl rfl

theorem StepEffect.bits_unchanged_or :
    t.bits = s.bits ∨ NextRuns s .bunpack ∨ ∃ v, NextWrites s .bitPush v ∨ NextWrites s .bufClr v := by
  cases h with
  | command i rest t hruns frame =>
    obtain heq | rfl := frame.bits
    exacts [.inl heq, .inr (.inl hruns)]
  | bitPush v rest hw => exact .inr (.inr ⟨v, .inl hw⟩)
  | bufClr v rest hw => exact .inr (.inr ⟨v, .inr hw⟩)
  | _ => exact .inl rfl

theorem StepEffect.bytes_unchanged_or :
    t.bytes = s.bytes ∨ NextRuns s .bpack ∨ ∃ v, NextWrites s .bytePush v ∨ NextWrites s .bufClr v := by
  cases h with
  | command i rest t hruns frame =>
    obtain ⟨hbytes, -⟩ | rfl := frame.bytes
    exacts [.inl hbytes, .inr (.inl hruns)]
  | bytePush v rest hw => exact .inr (.inr ⟨v, .inl hw⟩)
  | bufClr v rest hw => exact .inr (.inr ⟨v, .inr hw⟩)
  | _ => exact .inl rfl

theorem StepEffect.vbc_unchanged_or : t.vbc = s.vbc ∨ NextRuns s .bpack ∨ NextWrites s .vbc t.vbc := by
  cases h with
  | command i rest t hruns frame =>
    obtain ⟨-, hvbc⟩ | rfl := frame.bytes
    exacts [.inl hvbc, .inr (.inl hruns)]
  | vbc v rest hw => exact .inr (.inr hw)
  | _ => exact .inl rfl

/-- The matcher's outputs and their flag (rules R32, R43). -/
theorem StepEffect.tokens_unchanged_or :
    (t.tok = s.tok ∧ t.lzPos = s.lzPos) ∧ t.status.tokV = s.status.tokV ∨ NextRuns s .lzmatch := by
  cases h with
  | command i rest t hruns frame =>
    obtain heq | rfl := frame.tokens
    exacts [.inl heq, .inr hruns]
  | _ => exact .inl ⟨⟨rfl, rfl⟩, rfl⟩

/-- The tree builder's outputs and their flag (rules R36, R43). -/
theorem StepEffect.tree_unchanged_or :
    (t.freq = s.freq ∧ t.node = s.node ∧ t.nsym = s.nsym ∧ t.root = s.root) ∧ t.status.treeV = s.status.treeV ∨
      NextRuns s .htree := by
  cases h with
  | command i rest t hruns frame =>
    obtain heq | rfl := frame.tree
    exacts [.inl heq, .inr hruns]
  | _ => exact .inl ⟨⟨rfl, rfl, rfl, rfl⟩, rfl⟩

/-- The code table and its flag (rules R39, R43). -/
theorem StepEffect.codes_unchanged_or :
    t.code = s.code ∧ t.status.codeV = s.status.codeV ∨ NextRuns s .hcode ∨ NextRuns s .htree := by
  cases h with
  | command i rest t hruns frame =>
    obtain heq | rfl | rfl := frame.codes
    exacts [.inl heq, .inr (.inl hruns), .inr (.inr hruns)]
  | _ => exact .inl ⟨rfl, rfl⟩

/-- Only a dropped push moves `HERR`, and sets it (rules R43, R236). -/
theorem StepEffect.herr_unchanged_or :
    t.status.herr = s.status.herr ∨ t.status.herr = true ∧ ∃ r v, r.IsPushPort ∧ NextWrites s r v := by
  cases h with
  | command i rest t hruns frame => exact .inl frame.herr
  | dropped r v rest hport hw => exact .inr ⟨rfl, r, v, hport, hw⟩
  | _ => exact .inl rfl

/-- Only an error moves `EVER`, and sets it (rules R43, R296). -/
theorem StepEffect.ever_unchanged_or :
    t.status.ever = s.status.ever ∨ t.status.state = .error ∧ t.status.ever = true := by
  cases h with
  | command i rest t hruns frame => exact frame.ever
  | illegal c rest hw => exact .inr ⟨rfl, rfl⟩
  | _ => exact .inl rfl

theorem StepEffect.state_unchanged_or : t.status.state = s.status.state ∨ ∃ c, NextWrites s .cmd c := by
  cases h with
  | command i rest t hruns frame => exact .inr ⟨_, hruns⟩
  | illegal c rest hw => exact .inr ⟨c, hw⟩
  | _ => exact .inl rfl

end

/-! ### The obligations -/

/-- Settles O50: an index register moves only by the effect that writes it. -/
theorem indexRegistersMoveOnlyByWrites : Obligations.IndexRegistersMoveOnlyByWrites := by
  intro s t hstep hwipes
  exact (step_effect hstep hwipes).indexes_unchanged_or

/-- Settles O51: one lemma for each store says which effects change it. -/
theorem storesChangeOnlyByTheirWriters : Obligations.StoresChangeOnlyByTheirWriters := by
  intro s t hstep hwipes
  have h := step_effect hstep hwipes
  exact ⟨h.inBuf_unchanged_or, h.tokens_unchanged_or.imp_left And.left, h.sym_unchanged_or,
    h.tree_unchanged_or.imp_left And.left, h.codes_unchanged_or.imp_left And.left, h.bits_unchanged_or,
    h.bytes_unchanged_or, h.vbc_unchanged_or⟩

/-- Settles O52: one lemma for each flag says which effects change it, and how. -/
theorem flagsChangeAsTheTableSays : Obligations.FlagsChangeAsTheTableSays := by
  intro s t hstep hwipes
  have h := step_effect hstep hwipes
  refine ⟨h.tokens_unchanged_or.imp_left And.right, h.tree_unchanged_or.imp_left And.right,
    h.codes_unchanged_or.imp_left And.right, fun hs => ?_, fun hs => ?_,
    h.herr_unchanged_or.imp_right ?_, h.ever_unchanged_or.imp_right And.left, h.state_unchanged_or⟩
  · exact h.herr_unchanged_or.elim (fun heq => heq.trans hs) And.left
  · exact h.ever_unchanged_or.elim (fun heq => heq.trans hs) And.right
  · rintro ⟨-, r, v, hport, hw⟩
    obtain rfl | rfl | rfl | rfl := hport
    · exact ⟨v, .inl hw⟩
    · exact ⟨v, .inr (.inl hw)⟩
    · exact ⟨v, .inr (.inr (.inl hw))⟩
    · exact ⟨v, .inr (.inr (.inr hw))⟩

/-- Settles O49: `CLEAR` and reset keep the parameters, and no other effect touches them. -/
theorem parametersNeverChange : Obligations.ParametersNeverChange := by
  intro s t hstep
  by_cases hwipes : NextWipes s
  · obtain ⟨rest, hreset⟩ := step_of_wipes hwipes
    obtain rfl : t = resetCore (takeAccess rest s) := Host.Outcome.next.inj (hstep.symm.trans hreset)
    exact resetCore_cfg _
  · exact (step_effect hstep hwipes).cfg_eq

end Sys2Proof.Machine
end

section
/-! PROOFS. What the registers read (rules R21 to R42, R48, R104 to R107, R231, R232): the constants and the stored words,
the numbers, the words of the data ports, and 0 where there is nothing. -/

namespace Sys2Proof.Machine

/-! ### Registers that show a number (rules R9, R90) -/

/-- A register that shows a number below `2^32` reads exactly the number. -/
theorem toNat_readOffset {s : State} {r : Reg} {n : Nat} (hread : readReg s r = asWord n) (hn : n < 2 ^ 32) :
    (readOffset s r.offset).toNat = n := by
  rw [readOffset_offset, hread, toNat_asWord hn]

/-- Settles O60: the first registers read what they hold by `readReg`; the numbers fit in 32 bits by the bounds of
`CoreInv`. -/
theorem registersReadWhatTheyHold : Obligations.RegistersReadWhatTheyHold := by
  constructor
  · intro s
    exact ⟨readOffset_offset .id s, readOffset_offset .paramW s, readOffset_offset .paramL s,
      readOffset_offset .capIn s, readOffset_offset .capSym s, readOffset_offset .capByte s,
      readOffset_offset .errInfo s, readOffset_offset .tokIdx s, readOffset_offset .freqIdx s,
      readOffset_offset .nodeIdx s, readOffset_offset .codeIdx s, readOffset_offset .bitIdx s,
      readOffset_offset .byteIdx s, readOffset_offset .vbc s⟩
  · intro s h
    obtain ⟨⟨-, hw⟩, hl, -⟩ := h.cfg
    have hin := h.inCap_lt
    have hsym := h.symCap_lt
    have hbyte := h.byteCap_lt
    have hnsym := h.nsym_le
    have hnode := h.length_node_le
    have hroot := h.root_le
    have hbits := h.length_bits_lt
    have hbytes := h.length_bytes_lt
    exact ⟨toNat_readOffset (r := .paramW) rfl (by omega), toNat_readOffset (r := .paramL) rfl (by omega),
      toNat_readOffset (r := .capIn) rfl (by omega), toNat_readOffset (r := .capSym) rfl (by omega),
      toNat_readOffset (r := .capByte) rfl (by omega), toNat_readOffset (r := .inLen) rfl h.length_inBuf_lt,
      toNat_readOffset (r := .lzPos) rfl h.lzPos_lt, toNat_readOffset (r := .tokCnt) rfl h.length_tok_lt,
      toNat_readOffset (r := .symLen) rfl h.length_sym_lt, toNat_readOffset (r := .nsym) rfl (by omega),
      toNat_readOffset (r := .nodeCnt) rfl (by omega), toNat_readOffset (r := .root) rfl (by omega),
      toNat_readOffset (r := .bitLen) rfl (by omega), toNat_readOffset (r := .byteLen) rfl (by omega)⟩

/-! ### `STATUS` and `ERR` (rules R26, R291) -/

/-- `STATUS` as a number: `STATE` and each flag at its weight (rule R26). -/
theorem Status.toNat_asWord (t : Status) :
    t.asWord.toNat =
      (match t.state with
        | .idle => 0
        | .done => 1
        | .error => 2) +
      4 * t.tokV.toNat + 8 * t.treeV.toNat + 16 * t.codeV.toNat + 256 * t.herr.toNat + 512 * t.ever.toNat := by
  obtain ⟨state, tokV, treeV, codeV, herr, ever⟩ := t
  cases state <;> revert tokV treeV codeV herr ever <;> decide

theorem ErrCode.toNat_code (e : ErrCode) :
    e.code.toNat =
      (match e with
        | .ok => 0
        | .emptyInput => 1
        | .malformed => 2
        | .illegalCommand => 3
        | .sequenceError => 4) := by
  cases e <;> rfl

/-- Settles O43: the two registers read the words of `STATUS` and `ERR`. -/
theorem statusAndErrWords : Obligations.StatusAndErrWords := by
  intro s
  constructor
  · exact (congrArg BitVec.toNat (readOffset_offset .status s)).trans s.status.toNat_asWord
  · exact (congrArg BitVec.toNat (readOffset_offset .err s)).trans s.err.toNat_code

/-! ### The data ports (rules R33 to R41) -/

section

variable {s : State}

theorem readReg_tokData_of_le (h : s.tok.length ≤ s.tokIdx.toNat) : readReg s .tokData = 0#32 := by
  simp only [readReg, tokDataWord, List.getElem?_eq_none h]

theorem readReg_freqData_of_le (h : 256 ≤ s.freqIdx.toNat) : readReg s .freqData = 0#32 := by
  simp only [readReg, freqDataWord, Vector.getElem?_eq_none h]

/-- `FREQ_DATA` reads the count of the symbol that `FREQ_IDX` selects (rule R35). -/
theorem readReg_freqData {b : Byte} (h : s.freqIdx.toNat = b.toNat) : readReg s .freqData = asWord (entry s.freq b) := by
  simp only [readReg, freqDataWord, h, Vector.getElem?_eq_getElem b.isLt, entry]

theorem nodeDataWord_of_le (field : Node → Word) (h : s.node.length ≤ s.nodeIdx.toNat) :
    nodeDataWord field s = 0#32 := by
  simp only [nodeDataWord, List.getElem?_eq_none h]

/-- A node register reads the field of the node that `NODE_IDX` selects (rule R37). -/
theorem nodeDataWord_of_getElem? (field : Node → Word) {n : Node} (h : s.node[s.nodeIdx.toNat]? = some n) :
    nodeDataWord field s = field n := by
  simp only [nodeDataWord, h]

theorem readReg_bitData_of_le (h : s.bits.length ≤ s.bitIdx.toNat) : readReg s .bitData = 0#32 := by
  simp only [readReg, bitDataWord, List.getElem?_eq_none h]

theorem readReg_bitData {b : Bool} (h : s.bits[s.bitIdx.toNat]? = some b) : readReg s .bitData = asWord b.toNat := by
  simp only [readReg, bitDataWord, h]

theorem readReg_byteData_of_le (h : s.bytes.length ≤ s.byteIdx.toNat) : readReg s .byteData = 0#32 := by
  simp only [readReg, byteDataWord, List.getElem?_eq_none h]

theorem readReg_byteData {b : Byte} (h : s.bytes[s.byteIdx.toNat]? = some b) :
    readReg s .byteData = byteAsWord b := by
  simp only [readReg, byteDataWord, h]

/-- The two code ports read 0 when `CODE_IDX` selects no code (rule R39). -/
theorem readReg_code_of_none (h : selectedCode s = none) :
    readReg s .codeLen = 0#32 ∧ readReg s .codeBits = 0#32 := by
  simp only [readReg, codeLenData, codeBitsData, h, and_self]

/-- The two code ports read the words of the code that `CODE_IDX` selects (rule R39). -/
theorem readReg_code {c : BitString} (h : selectedCode s = some c) :
    readReg s .codeLen = codeLenWord c ∧ readReg s .codeBits = codeBitsWord c (codeIdxWord s.codeIdx) := by
  simp only [readReg, codeLenData, codeBitsData, h, and_self]

/-- `CODE_IDX` selects no code when bits 31:11 are not 0 or the symbol in bits 7:0 has none (rules R39, R107). -/
theorem selectedCode_eq_none
    (h : s.codeIdx.toNat / 2048 ≠ 0 ∨ entry s.code (BitVec.ofNat 8 s.codeIdx.toNat) = none) :
    selectedCode s = none := by
  have hsym : codeIdxSymbol s.codeIdx = BitVec.ofNat 8 s.codeIdx.toNat := by
    apply BitVec.eq_of_toNat_eq
    simp [codeIdxSymbol]
  rw [selectedCode, hsym]
  split
  · next hzero =>
    refine h.resolve_left fun hne => hne ?_
    have hfield : s.codeIdx.toNat / 2048 % 2 ^ 21 = 0 := by
      simpa [codeIdxZero, Nat.shiftRight_eq_div_pow] using congrArg BitVec.toNat hzero
    have := s.codeIdx.isLt
    omega
  · rfl

/-- `CODE_IDX` = symbol + 256 * word selects the symbol's code (rule R107). -/
theorem selectedCode_eq {b : Byte} {w : Nat} (hw : w < 8) (hidx : s.codeIdx.toNat = 256 * w + b.toNat) :
    selectedCode s = entry s.code b := by
  obtain ⟨hsym, -, hzero⟩ := codeIdx_fields hw hidx
  rw [selectedCode, hsym, if_pos hzero]

end

/-- Settles O38: each data port has a lemma that it reads 0 there. -/
theorem outOfRangeIndexReadsZero : Obligations.OutOfRangeIndexReadsZero := by
  intro s
  refine ⟨fun h => ?_, fun h => ?_, fun h => ⟨?_, ?_, ?_⟩, fun h => ?_, fun h => ?_, fun h => ?_⟩
  · exact (readOffset_offset .tokData s).trans (readReg_tokData_of_le h)
  · exact (readOffset_offset .freqData s).trans (readReg_freqData_of_le h)
  · exact (readOffset_offset .nodeInfo s).trans (nodeDataWord_of_le _ h)
  · exact (readOffset_offset .nodeFreq s).trans (nodeDataWord_of_le _ h)
  · exact (readOffset_offset .nodeKids s).trans (nodeDataWord_of_le _ h)
  · obtain ⟨hlen, hbits⟩ := readReg_code_of_none (selectedCode_eq_none h)
    exact ⟨(readOffset_offset .codeLen s).trans hlen, (readOffset_offset .codeBits s).trans hbits⟩
  · exact (readOffset_offset .bitData s).trans (readReg_bitData_of_le h)
  · exact (readOffset_offset .byteData s).trans (readReg_byteData_of_le h)

/-! ### The words of a node (rule R106) -/

theorem toNat_info_leaf (b : Byte) (f : Nat) : (Node.leaf b f).info.toNat = 0x80000000 + b.toNat := by
  have := b.isLt
  simp only [Node.info, BitVec.toNat_append, BitVec.toNat_ofNat]
  rw [← Nat.shiftLeft_add_eq_or_of_lt (by omega), Nat.shiftLeft_eq]
  simp

theorem toNat_info_internal (f l r : Nat) : (Node.internal f l r).info.toNat = 0x80000100 := rfl

/-- The children's indices at their weights (rule R106). -/
theorem toNat_kids_internal (f : Nat) {l r : Nat} (hl : l < 512) (hr : r < 512) :
    (Node.internal f l r).kids.toNat = r * 2 ^ 16 + l := by
  simp only [Node.kids, BitVec.toNat_append, BitVec.toNat_ofNat]
  rw [← Nat.shiftLeft_add_eq_or_of_lt (by omega), Nat.shiftLeft_eq]
  simp
  omega

/-- Settles O40: the three node registers read the fields of the selected node. -/
theorem nodeWordsHoldTheNode : Obligations.NodeWordsHoldTheNode := by
  intro s
  have hinfo {n : Node} (h : s.node[s.nodeIdx.toNat]? = some n) : readOffset s 0x70 = n.info :=
    (readOffset_offset .nodeInfo s).trans (nodeDataWord_of_getElem? _ h)
  have hfreq {n : Node} (h : s.node[s.nodeIdx.toNat]? = some n) (hn : n.freq < 2 ^ 32) :
      (readOffset s 0x74).toNat = n.freq := toNat_readOffset (r := .nodeFreq) (nodeDataWord_of_getElem? _ h) hn
  have hkids {n : Node} (h : s.node[s.nodeIdx.toNat]? = some n) : readOffset s 0x78 = n.kids :=
    (readOffset_offset .nodeKids s).trans (nodeDataWord_of_getElem? _ h)
  refine ⟨fun b f h hf => ⟨?_, hfreq h hf, hkids h⟩, fun f l r h hf hl hr => ⟨?_, hfreq h hf, ?_⟩⟩
  · rw [hinfo h, toNat_info_leaf]
  · rw [hinfo h, toNat_info_internal]
  · rw [hkids h, toNat_kids_internal f hl hr]

/-! ### The words of a code, a count, a bit and a byte (rules R35, R40, R41, R107) -/

/-- Settles O41: the code ports read the words of the selected code, whose bits are those of the code. -/
theorem codeWordsHoldTheCode : Obligations.CodeWordsHoldTheCode := by
  intro s b w c hw hidx hc hlen
  obtain ⟨-, hword, -⟩ := codeIdx_fields hw hidx
  obtain ⟨hreadLen, hreadBits⟩ := readReg_code ((selectedCode_eq hw hidx).trans hc)
  rw [hword] at hreadBits
  refine ⟨?_, fun r hr => ?_⟩
  · exact (congrArg BitVec.toNat ((readOffset_offset .codeLen s).trans hreadLen)).trans (codeLenWord_toNat c hlen)
  · exact (congrArg (BitVec.getLsbD · (31 - r)) ((readOffset_offset .codeBits s).trans hreadBits)).trans
      (codeBitsWord_getLsbD c w r hr)

theorem toNat_byteAsWord (b : Byte) : (byteAsWord b).toNat = b.toNat := by
  have := b.isLt
  rw [byteAsWord, BitVec.toNat_setWidth, Nat.mod_eq_of_lt (by omega)]

/-- Settles O42: each of the three ports reads the selected element as a word. -/
theorem freqBitAndByteReadTheirElement : Obligations.FreqBitAndByteReadTheirElement := by
  intro s
  refine ⟨fun b hidx hlt => ?_, fun b hb => ?_, fun b hb => ?_⟩
  · exact toNat_readOffset (r := .freqData) (readReg_freqData hidx) hlt
  · exact toNat_readOffset (r := .bitData) (readReg_bitData hb) ((Bool.toNat_lt b).trans (by decide))
  · exact (congrArg BitVec.toNat ((readOffset_offset .byteData s).trans (readReg_byteData hb))).trans (toNat_byteAsWord b)

/-! ### After reset (rules R21, R48) -/

theorem selectedCode_resetWith (c : Config) : selectedCode (State.resetWith c) = none :=
  selectedCode_eq_none (.inr (by rw [resetWith_code, entry_symbolTable]))

/-- After reset every register from `CMD` on reads 0; all but the tables' ports by evaluation (rule R48). -/
theorem readReg_resetWith (c : Config) {r : Reg} (h : 0x18 ≤ r.offset) : readReg (State.resetWith c) r = 0#32 := by
  cases r with
  | id | paramW | paramL | capIn | capSym | capByte => exact absurd h (by decide)
  | status => exact BitVec.eq_of_toNat_eq (Status.toNat_asWord Status.reset)
  | freqData =>
    rw [readReg_freqData (b := 0#8) rfl, resetWith_freq, entry_symbolTable]
    rfl
  | codeLen => exact (readReg_code_of_none (selectedCode_resetWith c)).1
  | codeBits => exact (readReg_code_of_none (selectedCode_resetWith c)).2
  | _ => rfl

/-- Settles O28: the registers below `CMD` are the constants, and the rest reads 0 in the empty state. -/
theorem resetRegisterValues : Obligations.ResetRegisterValues := by
  intro c
  refine ⟨readOffset_offset .id _, readOffset_offset .paramW _, readOffset_offset .paramL _,
    readOffset_offset .capIn _, readOffset_offset .capSym _, readOffset_offset .capByte _, fun off hoff => ?_,
    rfl, rfl, rfl, fun b => ?_, fun b => ?_⟩
  · rw [readOffset]
    split
    · next r hr => exact readReg_resetWith c (offset_of_atOffset hr ▸ hoff)
    · rfl
  · rw [resetWith_freq, entry_symbolTable]
  · rw [resetWith_code, entry_symbolTable]

end Sys2Proof.Machine
end
